-- ==== Sys2Proof/Word.lean ====
section
/-! DEFINITION. The two plain word types of the block (spec/00_scope.md R8): a byte, and the 32-bit
operand and result word of the command and response words (R79, R82). -/

namespace Sys2Proof

/-- A byte, 0..255 (R8). -/
abbrev Byte := BitVec 8

/-- The operand field `a[31:0]` of a command and the result fields `v0`, `v1` of a response (R79, R82). -/
abbrev Word := BitVec 32

end Sys2Proof
end

