-- ==== Sys2Proof/Config.lean ====
section
/-! DEFINITION. The parameters a model of the block takes (spec/00_scope.md R6), their constraints (R7)
and the source's host-side numbers (R255). Parameters are arguments of every operation and never state
(R43); the values this hardware takes stand in Machine/Hardware.lean. -/

namespace Sys2Proof

/-- The five packet identifiers (R6, R192). Only the host's software uses them; the block never looks at one. -/
structure PacketIds where
  getValues       : Byte
  setDuty         : Byte
  setCurrent      : Byte
  setCurrentBrake : Byte
  setRpm          : Byte
deriving DecidableEq, Repr

/-- The identifier parameters are pairwise distinct (R7). -/
def PacketIds.distinct (i : PacketIds) : Bool :=
  decide ([i.getValues, i.setDuty, i.setCurrent, i.setCurrentBrake, i.setRpm].Nodup)

/-- The implementation parameters (R6). `crc16` is `CRC16_FN`: as a Lean function of the byte sequence it is
total and deterministic and depends on its argument only, which is R120. -/
structure Params where
  crc16    : List Byte → BitVec 16
  longEn   : Bool
  txpCap   : Nat
  frameCap : Nat
  ids      : PacketIds

/-- `RXP_CAP = FRAME_CAP - 5` (R6, R7). -/
def Params.rxpCap (p : Params) : Nat := p.frameCap - 5

/-- The constraints of R7 that are not already met by the types of the fields. -/
def Params.valid (p : Params) : Bool :=
  decide (1 ≤ p.txpCap ∧ p.txpCap ≤ 65535 ∧ 6 ≤ p.frameCap ∧ p.frameCap ≤ 65541) && p.ids.distinct

/-- "A model refuses a configuration that breaks one" (R7). -/
def Params.configure (p : Params) : Option Params := if p.valid then some p else none

namespace Config

/-- `T_EXCHANGE_MS`, the exchange deadline the host computes (R6, R255); no rule of the block uses it. -/
def tExchangeMs : Nat := 100

/-- `T_SETTLE_MS`, the settle delay before the host starts reading (R6, R255); no rule of the block uses it. -/
def tSettleMs : Nat := 500

end Config

end Sys2Proof
end

