-- ==== Sys2Proof/Syntax.lean ====
section
/-! DEFINITION. What the block reacts to: `Instr`, one constructor per row of spec/opcode_table.json, and
`Input`, the encoded form in which the environment presents it at one of the block's ports. -/

namespace Sys2Proof

/-- The two frame kinds (R70); also the value of `RX_KIND` (R26). -/
inductive FrameKind where
  | short
  | long
deriving DecidableEq, Repr

/-- One input of the block, decoded. The first sixteen are the command words of R80 in the order of their
operation codes, then the three events of R86, then the two wire frame formats of R71 and R72.

A command carries only the operand bits its operation uses (R81). A frame carries what its layout leaves to
it: the payload (whose length is the length field), the two CRC bytes and the byte at the end-of-frame offset.
In every frame the encoder builds that last byte is 3 (R76), but a frame that arrives may carry another
(R169), and the frame layout's decoder does not test it (R146). -/
inductive Instr where
  | reserved0
  | txclr
  | appu8 (b : Byte)
  | appi32 (v : BitVec 32)
  | enc
  | rxstart
  | dec
  | curwr (k : BitVec 16)
  | rdi16
  | rdi32
  | rdf16 (scale : BitVec 32)
  | rdf32 (scale : BitVec 32)
  | crctx
  | rdreg (r : BitVec 4)
  | skip (n : BitVec 16)
  | reservedF
  | rxbyte (b : Byte)
  | rxexpire
  | reset
  | frameShort (payload : List Byte) (crcHi crcLo last : Byte)
  | frameLong (payload : List Byte) (crcHi crcLo last : Byte)
deriving DecidableEq, Repr

/-- One encoded input, at the port it is presented on (R11, R79, R86): the host's 36-bit command word; bytes
offered by the serial channel, first on the wire first (R66); the two strobes, asserted when 1 (R91). -/
inductive Input where
  | command (w : BitVec 36)
  | serial (bytes : List Byte)
  | expire (strobe : BitVec 1)
  | reset (strobe : BitVec 1)
deriving DecidableEq, Repr

/-- The row of spec/opcode_table.json an instruction belongs to. -/
def Instr.mnemonic : Instr → String
  | .reserved0 => "RESERVED0"
  | .txclr => "TXCLR"
  | .appu8 _ => "APPU8"
  | .appi32 _ => "APPI32"
  | .enc => "ENC"
  | .rxstart => "RXSTART"
  | .dec => "DEC"
  | .curwr _ => "CURWR"
  | .rdi16 => "RDI16"
  | .rdi32 => "RDI32"
  | .rdf16 _ => "RDF16"
  | .rdf32 _ => "RDF32"
  | .crctx => "CRCTX"
  | .rdreg _ => "RDREG"
  | .skip _ => "SKIP"
  | .reservedF => "RESERVEDF"
  | .rxbyte _ => "RXBYTE"
  | .rxexpire => "RXEXPIRE"
  | .reset => "RESET"
  | .frameShort _ _ _ _ => "FRAME_SHORT"
  | .frameLong _ _ _ _ => "FRAME_LONG"

/-- Host commands are answered by one response; events and frames arriving are not (R82). -/
def Instr.isCommand : Instr → Bool
  | .rxbyte _ | .rxexpire | .reset | .frameShort _ _ _ _ | .frameLong _ _ _ _ => false
  | .reserved0 | .txclr | .appu8 _ | .appi32 _ | .enc | .rxstart | .dec | .curwr _ | .rdi16 | .rdi32
  | .rdf16 _ | .rdf32 _ | .crctx | .rdreg _ | .skip _ | .reservedF => true

end Sys2Proof
end

