-- ==== Sys2Proof/WellFormed.lean ====
section
/-! DEFINITION. Well-formed instructions. The types of the operands already bound every command operand to the
bits its operation uses (R81); what is left to check is that a frame's payload fits its length field. -/

namespace Sys2Proof

/-- A Short frame has one length byte, a Long frame two (R71, R72). -/
def Instr.wf : Instr → Bool
  | .frameShort payload _ _ _ => decide (payload.length ≤ 255)
  | .frameLong payload _ _ _ => decide (payload.length ≤ 65535)
  | .reserved0 | .txclr | .appu8 _ | .appi32 _ | .enc | .rxstart | .dec | .curwr _ | .rdi16 | .rdi32
  | .rdf16 _ | .rdf32 _ | .crctx | .rdreg _ | .skip _ | .reservedF | .rxbyte _ | .rxexpire | .reset => true

end Sys2Proof
end

