-- ==== Sys2Proof/Decode.lean ====
section
/-! DEFINITION. The encodings of spec/30_encoding.md: the frame layouts (R70 to R77, R88), the command word
(R79 to R81), the events (R86), the opcode table (R91), a total decoder and, after it, the encoder. -/

namespace Sys2Proof

/-! ## Frame layout -/

/-- The first byte of a frame (R73, R85). -/
def FrameKind.marker : FrameKind → Byte
  | .short => 0x02
  | .long => 0x03

/-- The value of `RX_KIND`: 0 Short, 1 Long (R26). -/
def FrameKind.code : FrameKind → BitVec 1
  | .short => 0
  | .long => 1

/-- Header size `hdr`: the marker and the length bytes (R77). -/
def FrameKind.hdr : FrameKind → Nat
  | .short => 2
  | .long => 3

/-- The last byte of every frame (R76). -/
def terminator : Byte := 0x03

/-- `C[15:8]`, the CRC byte that comes first (R75). -/
def hiByte (c : BitVec 16) : Byte := c.extractLsb' 8 8

/-- `C[7:0]` (R75). -/
def loByte (c : BitVec 16) : Byte := c.extractLsb' 0 8

/-- The length bytes for payload length `n`: one byte, or two with the high byte first (R71, R72, R74). -/
def FrameKind.lengthBytes (k : FrameKind) (n : Nat) : List Byte :=
  match k with
  | .short => [BitVec.ofNat 8 n]
  | .long => [BitVec.ofNat 8 (n / 256), BitVec.ofNat 8 n]

/-- `[marker][length bytes...][payload...][crc_high][crc_low][last]` (R70 to R72). -/
def frameBytes (k : FrameKind) (payload : List Byte) (crcHi crcLo last : Byte) : List Byte :=
  k.marker :: (k.lengthBytes payload.length ++ (payload ++ [crcHi, crcLo, last]))

/-- Total frame length, `L + 5` or `L + 6` (R77, R88). -/
def FrameKind.total (k : FrameKind) (n : Nat) : Nat := k.hdr + n + 3

/-- The length a Long header declares, high byte first (R74). -/
def longLength (lenHi lenLo : Byte) : Nat := lenHi.toNat * 256 + lenLo.toNat

/-- What follows the length bytes, for declared length `n`: the payload, the two CRC bytes, the last byte; and
the bytes after the frame. None while the frame is not whole. -/
def splitBody (mk : List Byte → Byte → Byte → Byte → Instr) (n : Nat) (body : List Byte) :
    Option (Instr × List Byte) :=
  match body.drop n with
  | crcHi :: crcLo :: last :: rest => some (mk (body.take n) crcHi crcLo last, rest)
  | _ => none

/-- The frame-kind decoder of R91: the first byte selects the kind, the length bytes the total (R88). -/
def splitFrame : List Byte → Option (Instr × List Byte)
  | [] => none
  | b :: rest =>
    if b = FrameKind.short.marker then
      match rest with
      | len :: body => splitBody .frameShort len.toNat body
      | [] => none
    else if b = FrameKind.long.marker then
      match rest with
      | lenHi :: lenLo :: body => splitBody .frameLong (longLength lenHi lenLo) body
      | _ => none
    else none

/-! ## Decoder -/

/-- Why an encoded input is no event: an offer of no bytes, or a strobe that is not asserted (R86). -/
inductive DecodeError where
  | noBytes
  | strobeNotAsserted
deriving DecidableEq, Repr

/-- `op = W[35:32]` (R79). -/
def opField (w : BitVec 36) : BitVec 4 := w.extractLsb' 32 4

/-- `a = W[31:0]` (R79). -/
def operandField (w : BitVec 36) : BitVec 32 := w.extractLsb' 0 32

/-- Dispatch on `W[35:32]` alone (R80, R182), operand assembly by R81. Every 36-bit word is a command. -/
def decodeCommand (w : BitVec 36) : Instr :=
  let a := operandField w
  match (opField w).toNat with
  | 0x0 => .reserved0
  | 0x1 => .txclr
  | 0x2 => .appu8 (a.extractLsb' 0 8)
  | 0x3 => .appi32 a
  | 0x4 => .enc
  | 0x5 => .rxstart
  | 0x6 => .dec
  | 0x7 => .curwr (a.extractLsb' 0 16)
  | 0x8 => .rdi16
  | 0x9 => .rdi32
  | 0xA => .rdf16 a
  | 0xB => .rdf32 a
  | 0xC => .crctx
  | 0xD => .rdreg (a.extractLsb' 0 4)
  | 0xE => .skip (a.extractLsb' 0 16)
  | _ => .reservedF

/-- The serial port's decoder: a whole frame if the offered bytes begin with one, otherwise one `RXBYTE`; and
the bytes left over. How bytes are grouped has no effect (R175). Log 9. -/
def decodeSerial : List Byte → Except DecodeError (Instr × List Byte)
  | [] => .error .noBytes
  | b :: rest =>
    match splitFrame (b :: rest) with
    | some r => .ok r
    | none => .ok (.rxbyte b, rest)

/-- The decoder: the instruction an encoded input holds, with the serial bytes it leaves for the next. -/
def decode : Input → Except DecodeError (Instr × List Byte)
  | .command w => .ok (decodeCommand w, [])
  | .serial bytes => decodeSerial bytes
  | .expire strobe => if strobe = 1 then .ok (.rxexpire, []) else .error .strobeNotAsserted
  | .reset strobe => if strobe = 1 then .ok (.reset, []) else .error .strobeNotAsserted

/-! ## Encoder -/

/-- The command word `{op, a}` (R79). -/
def commandWord (op : BitVec 4) (a : BitVec 32) : BitVec 36 := op ++ a

/-- The encoder: operand bits a command does not use are 0. -/
def encode : Instr → Input
  | .reserved0 => .command (commandWord 0x0 0)
  | .txclr => .command (commandWord 0x1 0)
  | .appu8 b => .command (commandWord 0x2 (b.setWidth 32))
  | .appi32 v => .command (commandWord 0x3 v)
  | .enc => .command (commandWord 0x4 0)
  | .rxstart => .command (commandWord 0x5 0)
  | .dec => .command (commandWord 0x6 0)
  | .curwr k => .command (commandWord 0x7 (k.setWidth 32))
  | .rdi16 => .command (commandWord 0x8 0)
  | .rdi32 => .command (commandWord 0x9 0)
  | .rdf16 scale => .command (commandWord 0xA scale)
  | .rdf32 scale => .command (commandWord 0xB scale)
  | .crctx => .command (commandWord 0xC 0)
  | .rdreg r => .command (commandWord 0xD (r.setWidth 32))
  | .skip n => .command (commandWord 0xE (n.setWidth 32))
  | .reservedF => .command (commandWord 0xF 0)
  | .rxbyte b => .serial [b]
  | .rxexpire => .expire 1
  | .reset => .reset 1
  | .frameShort payload crcHi crcLo last => .serial (frameBytes .short payload crcHi crcLo last)
  | .frameLong payload crcHi crcLo last => .serial (frameBytes .long payload crcHi crcLo last)

/-! ## The opcode table -/

/-- A row of spec/opcode_table.json as R91 reads it: `match` and `mask` over the 36-bit command word; the
`RXBYTE` pattern `bbbbbbbb`; a one-bit strobe at its port; `match` and `mask` over a frame's first byte. -/
inductive RowFormat where
  | cmd (value mask : BitVec 36)
  | byteEvent
  | expireStrobe
  | resetStrobe
  | frame (value mask : Byte)
deriving DecidableEq, Repr

/-- Whether an encoded input has the bits a row fixes. -/
def RowFormat.matches : RowFormat → Input → Bool
  | .cmd value mask, .command w => w &&& mask == value
  | .byteEvent, .serial [_] => true
  | .expireStrobe, .expire s => s == 1
  | .resetStrobe, .reset s => s == 1
  | .frame value mask, .serial (b :: _ :: _) => b &&& mask == value
  | _, _ => false

/-- spec/opcode_table.json, row by row in its order. -/
def opcodeTable : List (String × RowFormat) :=
  [("RESERVED0", .cmd 0x000000000 0xF00000000),
   ("TXCLR", .cmd 0x100000000 0xF00000000),
   ("APPU8", .cmd 0x200000000 0xF00000000),
   ("APPI32", .cmd 0x300000000 0xF00000000),
   ("ENC", .cmd 0x400000000 0xF00000000),
   ("RXSTART", .cmd 0x500000000 0xF00000000),
   ("DEC", .cmd 0x600000000 0xF00000000),
   ("CURWR", .cmd 0x700000000 0xF00000000)] ++
  [("RDI16", .cmd 0x800000000 0xF00000000),
   ("RDI32", .cmd 0x900000000 0xF00000000),
   ("RDF16", .cmd 0xA00000000 0xF00000000),
   ("RDF32", .cmd 0xB00000000 0xF00000000),
   ("CRCTX", .cmd 0xC00000000 0xF00000000),
   ("RDREG", .cmd 0xD00000000 0xF00000000),
   ("SKIP", .cmd 0xE00000000 0xF00000000),
   ("RESERVEDF", .cmd 0xF00000000 0xF00000000)] ++
  [("RXBYTE", .byteEvent),
   ("RXEXPIRE", .expireStrobe),
   ("RESET", .resetStrobe),
   ("FRAME_SHORT", .frame 0x02 0xFF),
   ("FRAME_LONG", .frame 0x03 0xFF)]

/-- The input a word of the opcode table stands for. A row's bits do not name the port, so one-byte words are
read by the most specific row that matches: a frame's marker byte as the shortest frame of its kind with every
later byte 0; the word 1 as the `RXEXPIRE` strobe (the `RESET` strobe has the same bits); any other byte as
`RXBYTE`. Longer words are command words. Log 10. -/
def tableInput (nbits w : Nat) : Option Input :=
  if nbits ≤ 8 then
    if w < 256 then
      let b := BitVec.ofNat 8 w
      if w = 1 then some (.expire 1)
      else if b = FrameKind.short.marker then some (.serial [b, 0, 0, 0, 0])
      else if b = FrameKind.long.marker then some (.serial [b, 0, 0, 0, 0, 0])
      else some (.serial [b])
    else none
  else if w < 2 ^ 36 then some (.command (BitVec.ofNat 36 w))
  else none

/-- The instruction the decoder reads from a word of the opcode table. -/
def decodeTableWord (nbits w : Nat) : Option Instr :=
  match tableInput nbits w with
  | none => none
  | some input =>
    match decode input with
    | .ok (i, []) => some i
    | _ => none

end Sys2Proof
end

