-- ==== Sys2Proof/Machine/State.lean ====
section
/-! DEFINITION. The state of the block (spec/10_state.md): the twelve items of R20 in `Block`, and beside them
the two ports through which the environment and the block meet. -/

namespace Sys2Proof.Machine

/-- Reader states with the register value of R24. The values 6 and 7 are never taken. -/
inductive RxState where
  | idle
  | waitingForHeader
  | accumulatingPayload
  | terminated
  | timedOut
  | malformedHeader
deriving DecidableEq, Repr

/-- The status codes of R83. Codes 4 and 5 are the host's; the block never answers with one (R214, R215). -/
inductive Status where
  | ok
  | timeout
  | integrityError
  | malformedHeader
  | unknownPacket
  | shortResponse
  | boundsError
  | notReady
  | illegalOp
  | scaleZero
  | lengthUnsupported
deriving DecidableEq, Repr

/-- The answer to one host command, `(status, v0, v1)` (R82). -/
structure Response where
  status : Status
  v0     : Word
  v1     : Word
deriving DecidableEq, Repr

/-- What leaves the block: a response to the host (R82), or a frame handed to the serial channel in one
transaction (R87). -/
inductive Output where
  | response (r : Response)
  | frame (bytes : List Byte)
deriving DecidableEq, Repr

/-- The contents of one byte buffer, by index (R50): index and byte, indexes strictly rising, no entry equal to
what an unlisted index reads as. -/
abbrev Memory := List Host.Cell

/-- What an unlisted index reads as. The spec leaves the bytes unspecified and no rule reads one (R42). Log 3. -/
def Memory.unlisted : Byte := 0

/-- The canonical form, for entries at `lo` and above. -/
def Memory.wfFrom (lo : Nat) : Memory → Bool
  | [] => true
  | (a, v) :: rest => decide (lo ≤ a) && v != Memory.unlisted && Memory.wfFrom (a + 1) rest

/-- The canonical form: equal contents are equal data. -/
def Memory.wf (m : Memory) : Bool := Memory.wfFrom 0 m

/-- "The complete architectural state of the block is the twelve items of this table" (R20). -/
structure Block where
  /-- `TXP`, the outbound payload being staged (R21). -/
  txp      : Memory
  /-- `TXP_CUR`, the number of payload bytes staged (R22). -/
  txpCur   : BitVec 16
  /-- `RXF`, the inbound frame being assembled (R23). -/
  rxf      : Memory
  /-- `RX_STATE` (R24). -/
  rxState  : RxState
  /-- `RX_COUNT`, the number of frame bytes stored in `RXF` (R25). -/
  rxCount  : BitVec 17
  /-- `RX_KIND`, the framing the marker selected (R26). -/
  rxKind   : FrameKind
  /-- `RX_LEN`, the declared payload length (R27). -/
  rxLen    : BitVec 16
  /-- `RX_EXPECT`, the expected total frame length (R28). -/
  rxExpect : BitVec 17
  /-- `RXP`, the last validated payload (R29). -/
  rxp      : Memory
  /-- `RXP_LEN`, the number of valid bytes in `RXP` (R30). -/
  rxpLen   : BitVec 16
  /-- `RXP_VALID`: `RXP` holds a payload whose CRC matched (R31). -/
  rxpValid : Bool
  /-- `RXP_CUR`, the receive cursor (R32). -/
  rxpCur   : BitVec 16
deriving DecidableEq, Repr

/-- The block and its ports. `pending` holds the encoded inputs the environment has presented and the block has
not taken, in the order they are taken (R60); `outputs` holds every response and emitted frame so far, oldest
first. The two are the model's own and no part of the block's state (R43). Log 6, log 17. -/
structure State extends Block where
  pending : List Input
  outputs : List Output
deriving DecidableEq, Repr

/-- The three address spaces (R50). -/
inductive Space where
  | txp
  | rxf
  | rxp
deriving DecidableEq, Repr

/-- Why the machine stops. -/
inductive Fault where
  /-- An access to an index the buffer does not have (R50). Raised by `ENC` and `CRCTX` (`TXP`), by `DEC` (`RXF`,
  `RXP`), by the reads (`RXP`) and by a stored `RXBYTE`, alone or in a frame (`RXF`). Safe: the spec says no such
  access happens (R166, R253), and no state that meets the invariants of R41 leads to one. Log 11. -/
  | outsideBuffer (space : Space)
deriving DecidableEq, Repr

/-- Why an instruction has no meaning. -/
inductive Refusal where
  /-- Raised by an arm of `exec` whose instruction has no meaning yet; every instruction has one. Safe. -/
  | notModelled (mnemonic : String)
deriving DecidableEq, Repr

/-- What an instruction answers with. -/
abbrev Result := Host.Outcome State Fault Refusal

/-- The block after `RESET` (R42): every register 0, `RX_STATE` `Idle`, no buffer byte listed (log 3). -/
def Block.reset : Block where
  txp := []
  txpCur := 0
  rxf := []
  rxState := .idle
  rxCount := 0
  rxKind := .short
  rxLen := 0
  rxExpect := 0
  rxp := []
  rxpLen := 0
  rxpValid := false
  rxpCur := 0

/-- The machine right after reset: the block of R42, nothing presented yet, nothing put out (log 8). -/
def State.reset : State where
  toBlock := Block.reset
  pending := []
  outputs := []

end Sys2Proof.Machine
end

