-- ==== Sys2Proof/Machine/Ops.lean ====
section
/-! DEFINITION. The named operations: one byte of a buffer, a run of bytes within a buffer's size, answering a
command (`respond`, `fail`), emitting a frame, sequencing, and taking the next input. -/

namespace Sys2Proof.Machine

/-! ## One buffer -/

/-- One byte of a buffer. -/
def Memory.read : Memory → Nat → Byte
  | [], _ => Memory.unlisted
  | (k, v) :: rest, a => if a = k then v else Memory.read rest a

/-- Put one byte, keeping the canonical form. -/
def Memory.write : Memory → Nat → Byte → Memory
  | [], a, b => if b = Memory.unlisted then [] else [(a, b)]
  | (k, v) :: rest, a, b =>
    if a < k then (if b = Memory.unlisted then (k, v) :: rest else (a, b) :: (k, v) :: rest)
    else if a = k then (if b = Memory.unlisted then rest else (a, b) :: rest)
    else (k, v) :: Memory.write rest a b

/-- The bytes at indexes `i` to `i + n - 1`. -/
def Memory.readBytes (m : Memory) (i : Nat) : Nat → List Byte
  | 0 => []
  | n + 1 => m.read i :: m.readBytes (i + 1) n

/-- Put a run of bytes at index `i` and up. -/
def Memory.writeBytes (m : Memory) (i : Nat) : List Byte → Memory
  | [] => m
  | b :: rest => (m.write i b).writeBytes (i + 1) rest

/-- A run of `n` bytes at `i` of a buffer of `cap` bytes; none when an index of it does not exist (R50). -/
def loadBytes (cap : Nat) (m : Memory) (i n : Nat) : Option (List Byte) :=
  if i + n ≤ cap then some (m.readBytes i n) else none

/-- A run of bytes put at `i` of a buffer of `cap` bytes; none, and nothing written, when an index of it does
not exist (R50, R56). -/
def storeBytes (cap : Nat) (m : Memory) (i : Nat) (bytes : List Byte) : Option Memory :=
  if i + bytes.length ≤ cap then some (m.writeBytes i bytes) else none

/-! ## Answering -/

/-- `respond(status, v0, v1)` (R9, R82): the one response of a command. -/
def respond (status : Status) (v0 v1 : Word) (s : State) : State :=
  { s with outputs := s.outputs ++ [.response ⟨status, v0, v1⟩] }

/-- `emit(s)` (R9, R87): the whole frame in one transaction. -/
def emit (bytes : List Byte) (s : State) : State :=
  { s with outputs := s.outputs ++ [.frame bytes] }

/-- `fail(E)` (R225): the response `(E, 0, 0)`, with no state written and nothing emitted. This is all the block
has of taking an exception, and there is nothing to return from (R210, R227). -/
def fail (e : Status) (s : State) : Result := .next (respond e 0 0 s)

/-- Go on from a next state; a stop stays a stop. -/
def andThen (r : Result) (k : State → Result) : Result :=
  match r with
  | .next s => k s
  | .fault f => .fault f
  | .refused f => .refused f

/-! ## Taking the next input -/

/-- Serial bytes left over from an offer are offered again, ahead of what follows. -/
def putBack (left : List Byte) (pending : List Input) : List Input :=
  match left with
  | [] => pending
  | b :: rest => .serial (b :: rest) :: pending

/-- Take the next input (R60): the instruction it holds, or none when nothing is pending or what is pending is
no event; and the state with the input taken. Log 7. -/
def fetch (s : State) : Option Instr × State :=
  match s.pending with
  | [] => (none, s)
  | input :: rest =>
    match decode input with
    | .ok (i, left) => (some i, { s with pending := putBack left rest })
    | .error _ => (none, { s with pending := rest })

end Sys2Proof.Machine
end

