-- ==== Sys2Proof/Machine/Flags.lean ====
section
/-! DEFINITION. The block has no arithmetic flags (spec/10_state.md R37). Its only status bits are those of
`STATUS` (R34), a view of the state; the status numbers (R83), the response word (R82) and the ready condition
(R162) stand here too. -/

namespace Sys2Proof.Machine

/-- The value of `RX_STATE` (R24). -/
def RxState.code : RxState → BitVec 3
  | .idle => 0
  | .waitingForHeader => 1
  | .accumulatingPayload => 2
  | .terminated => 3
  | .timedOut => 4
  | .malformedHeader => 5

/-- The active states (R24, R160): those that accept a received byte. -/
def RxState.active : RxState → Bool
  | .waitingForHeader | .accumulatingPayload => true
  | .idle | .terminated | .timedOut | .malformedHeader => false

/-- `rx_ready`, offered to the serial channel (R162). -/
def rxReady (s : State) : Bool := s.rxState.active

/-- `STATUS`: bits 2:0 `RX_STATE`, bit 3 `RXP_VALID`, bit 4 `RX_KIND`, the rest 0 (R34). -/
def statusWord (s : State) : Word :=
  (s.rxKind.code ++ (BitVec.ofBool s.rxpValid ++ s.rxState.code)).setWidth 32

/-- The status numbers (R83). -/
def Status.code : Status → BitVec 4
  | .ok => 0
  | .timeout => 1
  | .integrityError => 2
  | .malformedHeader => 3
  | .unknownPacket => 4
  | .shortResponse => 5
  | .boundsError => 6
  | .notReady => 7
  | .illegalOp => 8
  | .scaleZero => 9
  | .lengthUnsupported => 10

/-- The status a number stands for; 11 to 15 are never produced (R83). -/
def Status.ofCode (c : BitVec 4) : Option Status :=
  match c.toNat with
  | 0 => some .ok
  | 1 => some .timeout
  | 2 => some .integrityError
  | 3 => some .malformedHeader
  | 4 => some .unknownPacket
  | 5 => some .shortResponse
  | 6 => some .boundsError
  | 7 => some .notReady
  | 8 => some .illegalOp
  | 9 => some .scaleZero
  | 10 => some .lengthUnsupported
  | _ => none

/-- The 68-bit response word `Q` (R82). -/
def Response.word (r : Response) : BitVec 68 := r.status.code ++ (r.v0 ++ r.v1)

/-- Reading a response word (R82, R83). -/
def Response.ofWord (q : BitVec 68) : Option Response :=
  (Status.ofCode (q.extractLsb' 64 4)).map fun status => ⟨status, q.extractLsb' 32 32, q.extractLsb' 0 32⟩

end Sys2Proof.Machine
end

