-- ==== Sys2Proof/Machine/Hardware.lean ====
section
/-! DEFINITION. The parameter values of this hardware (spec/00_scope.md R6). Every operation takes its
parameters as an argument; only `exec` and `step` use these values. -/

namespace Sys2Proof.Machine

/-- The default `TXP_CAP` (R6). -/
def defaultTxpCap (longEn : Bool) : Nat := if longEn then 65535 else 255

/-- The default `FRAME_CAP` (R6). -/
def defaultFrameCap (longEn : Bool) : Nat := if longEn then 65541 else 260

/-- The recommended identifier values (R192), from general knowledge and not in the source (G3). Log 13. -/
def recommendedIds : PacketIds := ⟨4, 5, 6, 7, 8⟩

/-- Parameters with the defaults of R6 for a choice of `LONG_EN` and the recommended `CRC16_FN`. -/
def defaultParams (longEn : Bool) : Params where
  crc16 := crc16Xmodem
  longEn := longEn
  txpCap := defaultTxpCap longEn
  frameCap := defaultFrameCap longEn
  ids := recommendedIds

/-- This hardware: `LONG_EN = false` is the spec's decision (D8), the capacities are its defaults (D9, log 2),
`CRC16_FN` its recommended instantiation (D7, log 1). -/
def hardware : Params := defaultParams false

end Sys2Proof.Machine
end

