-- ==== Sys2Proof/Machine/Control.lean ====
section
/-! DEFINITION. Control operations (spec/44_control_ops.md): `RDREG`, the reserved operation codes, `RESET`. -/

namespace Sys2Proof.Machine

/-- The register a number names, zero-extended; 7 to 15 are reserved (R33, R180). -/
def readRegister (r : BitVec 4) (s : State) : Option Word :=
  match r.toNat with
  | 0 => some (statusWord s)
  | 1 => some (s.txpCur.setWidth 32)
  | 2 => some (s.rxCount.setWidth 32)
  | 3 => some (s.rxExpect.setWidth 32)
  | 4 => some (s.rxLen.setWidth 32)
  | 5 => some (s.rxpLen.setWidth 32)
  | 6 => some (s.rxpCur.setWidth 32)
  | _ => none

/-- `RDREG r` (R180). -/
def opRdreg (r : BitVec 4) (s : State) : Result :=
  match readRegister r s with
  | some v => .next (respond .ok v 0 s)
  | none => fail .illegalOp s

/-- A reserved operation code (R181). -/
def opReserved (s : State) : Result := fail .illegalOp s

/-- `RESET` (R184). The registers take the values of R42; the buffer bytes are not written (R183, log 4) and the
environment's side of the ports is not touched (R242). -/
def opReset (s : State) : Result :=
  .next
    { s with
      txpCur := 0
      rxState := .idle
      rxCount := 0
      rxKind := .short
      rxLen := 0
      rxExpect := 0
      rxpLen := 0
      rxpValid := false
      rxpCur := 0 }

/-! ## Meanings on this hardware -/

/-- `RDREG` (R180). -/
def execRdreg (r : BitVec 4) (s : State) : Result := opRdreg r s

/-- `op = 0x0` (R181). -/
def execReserved0 (s : State) : Result := opReserved s

/-- `op = 0xF` (R181). -/
def execReservedF (s : State) : Result := opReserved s

/-- `RESET` (R184). -/
def execReset (s : State) : Result := opReset s

end Sys2Proof.Machine
end

