-- ==== Sys2Proof/Machine/Operands.lean ====
section
/-! DEFINITION. Multi-byte fields (spec/20_memory.md R51 to R53) and signed readings (R9, R105). -/

namespace Sys2Proof.Machine

/-- The unsigned integer a run of bytes denotes, most significant byte first (R51, R52). -/
def beNat (bytes : List Byte) : Nat := bytes.foldl (fun acc b => acc * 256 + b.toNat) 0

/-- The `n` big-endian bytes of `v`: byte `k` is `(v >> 8·(n-1-k))[7:0]` (R9, R53). -/
def beBytes : Nat → Nat → List Byte
  | 0, _ => []
  | n + 1, v => BitVec.ofNat 8 (v >>> (8 * n)) :: beBytes n v

/-- `MemRead(B, i, n)` (R52) of a buffer of `cap` bytes. -/
def memRead (cap : Nat) (m : Memory) (i n : Nat) : Option Nat := (loadBytes cap m i n).map beNat

/-- `MemWrite(B, i, n, v)` (R53) of a buffer of `cap` bytes. -/
def memWrite (cap : Nat) (m : Memory) (i n v : Nat) : Option Memory := storeBytes cap m i (beBytes n v)

/-- `signed_w(v)` (R9): two's complement (R105, log 12). -/
def signed (w v : Nat) : Int := if v < 2 ^ (w - 1) then (v : Int) else (v : Int) - (2 ^ w : Nat)

/-- `sext_32(v, 8n)` (R9): the field of `n` bytes as the 32-bit result (R117 (c)). -/
def fieldWord (n v : Nat) : Word := (BitVec.ofNat (8 * n) v).signExtend 32

/-- The value a scaled read denotes, `signed_32(v0) / v1`, as an exact rational (R106). No read answers `OK` with
`v1 = 0`; the value there is the model's choice (DESIGN CHOICE, log 21). -/
def denoted (v0 v1 : Word) : Rat := (v0.toInt : Rat) / (v1.toNat : Rat)

end Sys2Proof.Machine
end

