-- ==== Sys2Proof/Machine/FixedPoint.lean ====
section
/-! DEFINITION. The Fixed-Point Codec (spec/40_fixed_point_codec.md): its five pure functions and its nine
operations. An operation `op…` takes the parameters; the meaning `exec…` is the operation on this hardware. -/

namespace Sys2Proof.Machine

/-! ## Pure functions. None is the result `BoundsError`. -/

/-- `readInt16(B, len, c)` (R100). -/
def readInt16 (m : Memory) (len c : Nat) : Option (Int × Nat) :=
  if c + 2 > len then none else some (signed 16 (beNat (m.readBytes c 2)), c + 2)

/-- `readInt32(B, len, c)` (R101). -/
def readInt32 (m : Memory) (len c : Nat) : Option (Int × Nat) :=
  if c + 4 > len then none else some (signed 32 (beNat (m.readBytes c 4)), c + 4)

/-- `readFloat16(B, len, s, c)` (R102): the exact rational `r / s`. The rule's domain is `s ≠ 0`; the value at scale
0, Lean's `r / 0`, is the model's choice (DESIGN CHOICE, log 21), which no operation reaches. -/
def readFloat16 (m : Memory) (len scale c : Nat) : Option (Rat × Nat) :=
  (readInt16 m len c).map fun r => ((r.1 : Rat) / (scale : Rat), r.2)

/-- `readFloat32(B, len, s, c)` (R103). Its value at scale 0 is the model's choice (DESIGN CHOICE, log 21). -/
def readFloat32 (m : Memory) (len scale c : Nat) : Option (Rat × Nat) :=
  (readInt32 m len c).map fun r => ((r.1 : Rat) / (scale : Rat), r.2)

/-- `appendInt32(B, cap, v, c)` (R104). -/
def appendInt32 (m : Memory) (cap : Nat) (v : Word) (c : Nat) : Option (Memory × Nat) :=
  (memWrite cap m c 4 v.toNat).map fun m' => (m', c + 4)

/-! ## Shared operations -/

/-- Append bytes at the transmit cursor, or `BoundsError` and nothing written (R56, R108, R109). -/
def appendBytes (p : Params) (bytes : List Byte) (s : State) : Result :=
  match storeBytes p.txpCap s.txp s.txpCur.toNat bytes with
  | none => fail .boundsError s
  | some m =>
    let cur := BitVec.ofNat 16 (s.txpCur.toNat + bytes.length)
    .next (respond .ok (cur.setWidth 32) 0 { s with txp := m, txpCur := cur })

/-- Read the `n`-byte field at the receive cursor and answer it with `v1`, or `BoundsError` and the cursor
unmoved (R56, R110 to R113). -/
def readField (p : Params) (n : Nat) (v1 : Word) (s : State) : Result :=
  if s.rxpCur.toNat + n > s.rxpLen.toNat then fail .boundsError s
  else
    match memRead p.rxpCap s.rxp s.rxpCur.toNat n with
    | none => .fault (.outsideBuffer .rxp)
    | some r =>
      .next (respond .ok (fieldWord n r) v1 { s with rxpCur := BitVec.ofNat 16 (s.rxpCur.toNat + n) })

/-- A scaled read: the scale is tested before the bound (R112, R113, R223). -/
def readScaled (p : Params) (n : Nat) (scale : Word) (s : State) : Result :=
  if scale = 0 then fail .scaleZero s else readField p n scale s

/-- Move the receive cursor to `k`, or `BoundsError` when `k` is past the payload (R56, R114, R115). -/
def moveCursor (k : Nat) (s : State) : Result :=
  if k > s.rxpLen.toNat then fail .boundsError s
  else
    let cur := BitVec.ofNat 16 k
    .next (respond .ok (cur.setWidth 32) 0 { s with rxpCur := cur })

/-! ## Operations -/

/-- `TXCLR` (R107). -/
def opTxclr (s : State) : Result := .next (respond .ok 0 0 { s with txpCur := 0 })

/-- `APPU8 b` (R108). -/
def opAppu8 (p : Params) (b : Byte) (s : State) : Result := appendBytes p [b] s

/-- `APPI32 v` (R109). -/
def opAppi32 (p : Params) (v : Word) (s : State) : Result := appendBytes p (beBytes 4 v.toNat) s

/-- `RDI16` (R110). -/
def opRdi16 (p : Params) (s : State) : Result := readField p 2 1 s

/-- `RDI32` (R111). -/
def opRdi32 (p : Params) (s : State) : Result := readField p 4 1 s

/-- `RDF16 s` (R112). -/
def opRdf16 (p : Params) (scale : Word) (s : State) : Result := readScaled p 2 scale s

/-- `RDF32 s` (R113). -/
def opRdf32 (p : Params) (scale : Word) (s : State) : Result := readScaled p 4 scale s

/-- `CURWR k` (R114). -/
def opCurwr (k : BitVec 16) (s : State) : Result := moveCursor k.toNat s

/-- `SKIP n` (R115). -/
def opSkip (n : BitVec 16) (s : State) : Result := moveCursor (s.rxpCur.toNat + n.toNat) s

/-! ## Meanings on this hardware -/

/-- `TXCLR` (R107). -/
def execTxclr (s : State) : Result := opTxclr s

/-- `APPU8` (R108). -/
def execAppu8 (b : Byte) (s : State) : Result := opAppu8 hardware b s

/-- `APPI32` (R109). -/
def execAppi32 (v : Word) (s : State) : Result := opAppi32 hardware v s

/-- `RDI16` (R110). -/
def execRdi16 (s : State) : Result := opRdi16 hardware s

/-- `RDI32` (R111). -/
def execRdi32 (s : State) : Result := opRdi32 hardware s

/-- `RDF16` (R112). -/
def execRdf16 (scale : Word) (s : State) : Result := opRdf16 hardware scale s

/-- `RDF32` (R113). -/
def execRdf32 (scale : Word) (s : State) : Result := opRdf32 hardware scale s

/-- `CURWR` (R114). -/
def execCurwr (k : BitVec 16) (s : State) : Result := opCurwr k s

/-- `SKIP` (R115). -/
def execSkip (n : BitVec 16) (s : State) : Result := opSkip n s

end Sys2Proof.Machine
end

