-- ==== Sys2Proof/Machine/FrameCodec.lean ====
section
/-! DEFINITION. The Frame Codec (spec/42_frame_codec.md) and the CRC16 Validator's operation
(spec/41_crc16.md R127): `EncodeFrame`, `DecodeFrame`, `ENC`, `DEC`, `CRCTX`. -/

namespace Sys2Proof.Machine

/-! ## Pure functions -/

/-- The frame of kind `k` for a payload: its CRC high byte first, its last byte the terminator (R71, R72, R75). -/
def buildFrame (p : Params) (k : FrameKind) (payload : List Byte) : List Byte :=
  frameBytes k payload (hiByte (p.crc16 payload)) (loByte (p.crc16 payload)) terminator

/-- Kind selection by length alone (R141, R142). The domain of `EncodeFrame` ends at 65535 bytes; a longer
payload, which no buffer can hold, is answered as one that is not supported (log 16). -/
def encodeKind (p : Params) (len : Nat) : Except Status FrameKind :=
  if len ≤ 255 then .ok .short
  else if p.longEn ∧ len ≤ 65535 then .ok .long
  else .error .lengthUnsupported

/-- `EncodeFrame(P)` (R140). -/
def encodeFrame (p : Params) (payload : List Byte) : Except Status (List Byte) :=
  match encodeKind p payload.length with
  | .ok k => .ok (buildFrame p k payload)
  | .error e => .error e

/-- The part of `DecodeFrame` after the header: the whole-frame bound, the payload slice, the CRC (R144, R145).
The byte at `hdr + L + 2` must be there and is not examined (R146); later bytes are ignored (R147). -/
def decodeBody (p : Params) (raw : List Byte) (hdr len : Nat) : Except Status (List Byte) :=
  if hdr + len + 3 > raw.length then .error .malformedHeader
  else
    let payload := (raw.drop hdr).take len
    if p.crc16 payload = raw.getD (hdr + len) 0 ++ raw.getD (hdr + len + 1) 0 then .ok payload
    else .error .integrityError

/-- `DecodeFrame(raw, n)` (R144), `raw` being the `n` valid bytes. -/
def decodeFrame (p : Params) (raw : List Byte) : Except Status (List Byte) :=
  if raw.length < 1 then .error .malformedHeader
  else if raw.getD 0 0 = 0x02 then
    if raw.length < 2 then .error .malformedHeader
    else decodeBody p raw 2 (raw.getD 1 0).toNat
  else if raw.getD 0 0 = 0x03 ∧ p.longEn then
    if raw.length < 3 then .error .malformedHeader
    else decodeBody p raw 3 (longLength (raw.getD 1 0) (raw.getD 2 0))
  else .error .malformedHeader

/-! ## Operations -/

/-- The bytes `TXP[0 .. TXP_CUR)`. -/
def staged (p : Params) (s : State) : Option (List Byte) := loadBytes p.txpCap s.txp 0 s.txpCur.toNat

/-- The bytes `RXF[0 .. RX_COUNT)`. -/
def received (p : Params) (s : State) : Option (List Byte) := loadBytes p.frameCap s.rxf 0 s.rxCount.toNat

/-- `CRCTX` (R127). -/
def opCrctx (p : Params) (s : State) : Result :=
  match staged p s with
  | none => .fault (.outsideBuffer .txp)
  | some payload => .next (respond .ok ((p.crc16 payload).setWidth 32) 0 s)

/-- `ENC` (R149): the length is held against the supported range (R223), the frame is emitted, then answered
for with its length. -/
def opEnc (p : Params) (s : State) : Result :=
  match encodeKind p s.txpCur.toNat with
  | .error e => fail e s
  | .ok k =>
    match staged p s with
    | none => .fault (.outsideBuffer .txp)
    | some payload =>
      let frame := buildFrame p k payload
      .next (respond .ok (BitVec.ofNat 32 frame.length) 0 (emit frame s))

/-- Hand over a validated payload: `RXP`, `RXP_LEN`, `RXP_CUR` and `RXP_VALID` together (R150, R153). -/
def acceptPayload (p : Params) (payload : List Byte) (s : State) : Result :=
  match storeBytes p.rxpCap s.rxp 0 payload with
  | none => .fault (.outsideBuffer .rxp)
  | some m =>
    let len := BitVec.ofNat 16 payload.length
    .next (respond .ok (len.setWidth 32) 0
      { s with rxp := m, rxpLen := len, rxpCur := 0, rxpValid := true })

/-- `DEC` (R150). -/
def opDec (p : Params) (s : State) : Result :=
  match s.rxState with
  | .terminated =>
    match received p s with
    | none => .fault (.outsideBuffer .rxf)
    | some raw =>
      match decodeFrame p raw with
      | .ok payload => acceptPayload p payload s
      | .error e => fail e s
  | .timedOut => fail .timeout s
  | .malformedHeader => fail .malformedHeader s
  | .idle | .waitingForHeader | .accumulatingPayload => fail .notReady s

/-! ## Meanings on this hardware -/

/-- `CRCTX` (R127). -/
def execCrctx (s : State) : Result := opCrctx hardware s

/-- `ENC` (R149). -/
def execEnc (s : State) : Result := opEnc hardware s

/-- `DEC` (R150). -/
def execDec (s : State) : Result := opDec hardware s

end Sys2Proof.Machine
end

