-- ==== Sys2Proof/Machine/FrameReader.lean ====
section
/-! DEFINITION. The Frame Reader (spec/43_frame_reader.md): `RXSTART`, the events `RXBYTE` and `RXEXPIRE`, and a
whole frame arriving. -/

namespace Sys2Proof.Machine

/-- `RXSTART` (R161). -/
def opRxstart (s : State) : Result :=
  .next (respond .ok 0 0
    { s with
      rxState := .waitingForHeader
      rxCount := 0
      rxKind := .short
      rxLen := 0
      rxExpect := 0
      rxpLen := 0
      rxpCur := 0
      rxpValid := false })

/-! ## One received byte -/

/-- "store": `RXF[RX_COUNT] <- b; RX_COUNT <- RX_COUNT + 1` (file 43, section 3), then `after`. -/
def rxStore (p : Params) (b : Byte) (after : State → State) (s : State) : Result :=
  match storeBytes p.frameCap s.rxf s.rxCount.toNat [b] with
  | none => .fault (.outsideBuffer .rxf)
  | some m => .next (after { s with rxf := m, rxCount := s.rxCount + 1 })

/-- A rejection: the byte is not stored (R163, R166). -/
def rxReject (s : State) : Result := .next { s with rxState := .malformedHeader }

/-- Marker byte (R163). -/
def rxMarker (p : Params) (b : Byte) (s : State) : Result :=
  if b = 0x02 then rxStore p b (fun t => { t with rxKind := .short }) s
  else if b = 0x03 ∧ p.longEn then rxStore p b (fun t => { t with rxKind := .long }) s
  else rxReject s

/-- The last length byte: the bound on the declared length before anything is stored (R164 to R166). -/
def rxDeclare (p : Params) (b : Byte) (len expect : Nat) (s : State) : Result :=
  if expect > p.frameCap then rxReject s
  else
    rxStore p b
      (fun t =>
        { t with
          rxLen := BitVec.ofNat 16 len
          rxExpect := BitVec.ofNat 17 expect
          rxState := .accumulatingPayload })
      s

/-- Short length byte (R164). -/
def rxShortLength (p : Params) (b : Byte) (s : State) : Result := rxDeclare p b b.toNat (b.toNat + 5) s

/-- Long length bytes (R165). Index 1 of `RXF` exists in every buffer R7 admits. -/
def rxLongLength (p : Params) (b : Byte) (s : State) : Result :=
  if s.rxCount = 1 then rxStore p b (fun t => t) s
  else rxDeclare p b (longLength (s.rxf.read 1) b) (longLength (s.rxf.read 1) b + 6) s

/-- Accumulation and the terminator test (R167, R168). -/
def rxAccumulate (p : Params) (b : Byte) (s : State) : Result :=
  rxStore p b
    (fun t => if t.rxCount = t.rxExpect ∧ b = terminator then { t with rxState := .terminated } else t) s

/-- The whole `RXBYTE(b)` step (R179). Where the reader is not active the byte is not accepted and nothing
changes (R162, log 5); after a wrong terminator it is consumed and dropped (R169). -/
def opRxbyte (p : Params) (b : Byte) (s : State) : Result :=
  match s.rxState with
  | .waitingForHeader =>
    if s.rxCount = 0 then rxMarker p b s
    else if s.rxKind = .short then rxShortLength p b s
    else rxLongLength p b s
  | .accumulatingPayload => if s.rxCount < s.rxExpect then rxAccumulate p b s else .next s
  | .idle | .terminated | .timedOut | .malformedHeader => .next s

/-- `RXFRAME b0 b1 .. bk`: the events `RXBYTE b0`, .., `RXBYTE bk` in that order (R90). -/
def rxBytes (p : Params) : List Byte → State → Result
  | [], s => .next s
  | b :: rest, s => andThen (opRxbyte p b s) (rxBytes p rest)

/-- A wire frame arriving is its bytes arriving (R66, R90, R175; log 9). With `LONG_EN = false` the marker of a
Long frame ends the reception (R163, R85). -/
def opFrame (p : Params) (k : FrameKind) (payload : List Byte) (crcHi crcLo last : Byte) (s : State) : Result :=
  rxBytes p (frameBytes k payload crcHi crcLo last) s

/-! ## The deadline -/

/-- `RXEXPIRE` (R170). -/
def opRxexpire (s : State) : Result :=
  match s.rxState with
  | .waitingForHeader | .accumulatingPayload => .next { s with rxState := .timedOut }
  | .idle | .terminated | .timedOut | .malformedHeader => .next s

/-! ## Meanings on this hardware -/

/-- `RXSTART` (R161). -/
def execRxstart (s : State) : Result := opRxstart s

/-- `RXBYTE` (R179). -/
def execRxbyte (b : Byte) (s : State) : Result := opRxbyte hardware b s

/-- `RXEXPIRE` (R170). -/
def execRxexpire (s : State) : Result := opRxexpire s

/-- `FRAME_SHORT` (R71). -/
def execFrameShort (payload : List Byte) (crcHi crcLo last : Byte) (s : State) : Result :=
  opFrame hardware .short payload crcHi crcLo last s

/-- `FRAME_LONG` (R72). -/
def execFrameLong (payload : List Byte) (crcHi crcLo last : Byte) (s : State) : Result :=
  opFrame hardware .long payload crcHi crcLo last s

end Sys2Proof.Machine
end

