-- ==== Sys2Proof/Machine/Dispatch.lean ====
section
/-! DEFINITION. One arm per constructor of `Instr` (spec/44_control_ops.md R182). -/

namespace Sys2Proof.Machine

/-- The effect of one input. -/
def exec (i : Instr) (s : State) : Host.Outcome State Fault Refusal :=
  match i with
  | .reserved0 => Sys2Proof.Machine.execReserved0 s
  | .txclr => Sys2Proof.Machine.execTxclr s
  | .appu8 b => Sys2Proof.Machine.execAppu8 b s
  | .appi32 v => Sys2Proof.Machine.execAppi32 v s
  | .enc => Sys2Proof.Machine.execEnc s
  | .rxstart => Sys2Proof.Machine.execRxstart s
  | .dec => Sys2Proof.Machine.execDec s
  | .curwr k => Sys2Proof.Machine.execCurwr k s
  | .rdi16 => Sys2Proof.Machine.execRdi16 s
  | .rdi32 => Sys2Proof.Machine.execRdi32 s
  | .rdf16 scale => Sys2Proof.Machine.execRdf16 scale s
  | .rdf32 scale => Sys2Proof.Machine.execRdf32 scale s
  | .crctx => Sys2Proof.Machine.execCrctx s
  | .rdreg r => Sys2Proof.Machine.execRdreg r s
  | .skip n => Sys2Proof.Machine.execSkip n s
  | .reservedF => Sys2Proof.Machine.execReservedF s
  | .rxbyte b => Sys2Proof.Machine.execRxbyte b s
  | .rxexpire => Sys2Proof.Machine.execRxexpire s
  | .reset => Sys2Proof.Machine.execReset s
  | .frameShort payload crcHi crcLo last => Sys2Proof.Machine.execFrameShort payload crcHi crcLo last s
  | .frameLong payload crcHi crcLo last => Sys2Proof.Machine.execFrameLong payload crcHi crcLo last s

end Sys2Proof.Machine
end

