-- ==== Sys2Proof/Machine/Step.lean ====
section
/-! DEFINITION. One step: take the next input and let the block react to it (spec/00_scope.md R5, R11;
spec/20_memory.md R60). -/

namespace Sys2Proof.Machine

/-- The next input, whole, or nothing: between events the block holds its state (R5, R232; log 7). -/
def step (s : State) : Host.Outcome State Fault Refusal :=
  match fetch s with
  | (some i, t) => exec i t
  | (none, t) => .next t

/-- Present the input a word of the opcode table stands for, ahead of whatever is pending: the next step takes
it (log 8, log 10). -/
def State.withFetchWord (s : State) (nbits w : Nat) : State :=
  match tableInput nbits w with
  | some input => { s with pending := input :: s.pending }
  | none => s

end Sys2Proof.Machine
end

