-- ==== Sys2Proof/Machine/Generic.lean ====
section
/-! DEFINITION. The block for any parameters (spec/00_scope.md R6, R7; spec/41_crc16.md R123): the same
operations, with the parameters as an argument. `exec` and `step` are the case `hardware`. -/

namespace Sys2Proof.Machine

/-- The effect of one input on a block with parameters `p`. -/
def execWith (p : Params) (i : Instr) (s : State) : Result :=
  match i with
  | .reserved0 => opReserved s
  | .txclr => opTxclr s
  | .appu8 b => opAppu8 p b s
  | .appi32 v => opAppi32 p v s
  | .enc => opEnc p s
  | .rxstart => opRxstart s
  | .dec => opDec p s
  | .curwr k => opCurwr k s
  | .rdi16 => opRdi16 p s
  | .rdi32 => opRdi32 p s
  | .rdf16 scale => opRdf16 p scale s
  | .rdf32 scale => opRdf32 p scale s
  | .crctx => opCrctx p s
  | .rdreg r => opRdreg r s
  | .skip n => opSkip n s
  | .reservedF => opReserved s
  | .rxbyte b => opRxbyte p b s
  | .rxexpire => opRxexpire s
  | .reset => opReset s
  | .frameShort payload crcHi crcLo last => opFrame p .short payload crcHi crcLo last s
  | .frameLong payload crcHi crcLo last => opFrame p .long payload crcHi crcLo last s

/-- One step of a block with parameters `p`. -/
def stepWith (p : Params) (s : State) : Result :=
  match fetch s with
  | (some i, t) => execWith p i t
  | (none, t) => .next t

/-- A list of inputs, one after another (R60). -/
def runWith (p : Params) : List Instr → State → Result
  | [], s => .next s
  | i :: rest, s => andThen (execWith p i s) (runWith p rest)

/-- `n` steps. -/
def stepsWith (p : Params) : Nat → State → Result
  | 0, s => .next s
  | n + 1, s => andThen (stepWith p s) (stepsWith p n)

end Sys2Proof.Machine
end

