-- ==== Sys2Proof/Machine/HostProfile.lean ====
section
/-! DEFINITION. The host's use of the block (spec/45_client_profile.md): the pseudo-operations (R90, R200 to
R204) as lists of instructions, the telemetry walk, the identifier check, the length gate and the whole exchange
(R198). This is software around the block (R4): it adds nothing to the state and no case to the step. -/

namespace Sys2Proof.Machine

/-! ## Commands -/

/-- The five commands with their scaled parameter (R190). -/
inductive HostCommand where
  | getTelemetry
  | setCurrent (v : Word)
  | setBrake (v : Word)
  | setRpm (v : Word)
  | setDuty (v : Word)
deriving DecidableEq, Repr

/-- The identifier of a command (R190, R192). -/
def HostCommand.id (ids : PacketIds) : HostCommand → Byte
  | .getTelemetry => ids.getValues
  | .setCurrent _ => ids.setCurrent
  | .setBrake _ => ids.setCurrentBrake
  | .setRpm _ => ids.setRpm
  | .setDuty _ => ids.setDuty

/-- The parameter, absent for get-telemetry (R191). -/
def HostCommand.param : HostCommand → Option Word
  | .getTelemetry => none
  | .setCurrent v | .setBrake v | .setRpm v | .setDuty v => some v

/-- The scale of a command's parameter; get-telemetry, which has no parameter, has none (R190: the table's dash). -/
def HostCommand.scale : HostCommand → Option Nat
  | .getTelemetry => none
  | .setCurrent _ | .setBrake _ => some 1000
  | .setRpm _ => some 1
  | .setDuty _ => some 100000

/-- The payload layout (R191). -/
def HostCommand.payload (ids : PacketIds) (c : HostCommand) : List Byte :=
  c.id ids ::
    match c.param with
    | none => []
    | some v => beBytes 4 v.toNat

/-- The pseudo-operations `GETVALUES`, `SETCURRENT`, `SETBRAKE`, `SETRPM`, `SETDUTY` (R200 to R204). -/
def HostCommand.expand (ids : PacketIds) (c : HostCommand) : List Instr :=
  [.txclr, .appu8 (c.id ids)] ++
    (match c.param with
     | none => []
     | some v => [.appi32 v]) ++
    [.enc]

/-- Turning a real value into the integer sent: truncation toward zero, from general knowledge and not in the
source (R193, G5). Log 15. -/
def quantise (x : Rat) (scale : Nat) : Int := if 0 ≤ x then (x * scale).floor else (x * scale).ceil

/-! ## Telemetry -/

/-- `MIN_TELEMETRY_LEN` (R6, R199). -/
def minTelemetryLen : Nat := 55

/-- `TelemetrySnapshot`, the host's record, in the source's field order (R194). -/
structure TelemetrySnapshot where
  fetTemperature     : Rat
  motorTemperature   : Rat
  motorCurrent       : Rat
  inputCurrent       : Rat
  dutyCycle          : Rat
  rpm                : Rat
  inputVoltage       : Rat
  ampHours           : Rat
  ampHoursCharged    : Rat
  tachometer         : Rat
  tachometerAbsolute : Rat
deriving DecidableEq, Repr

/-- The walk of R195 after `CURWR 1`. The widths and the places of the two skips are from general knowledge and
not in the source (G4). Log 14. -/
def telemetryWalk : List Instr :=
  [.rdf16 10, .rdf16 10, .rdf32 100, .rdf32 100, .skip 8, .rdf16 1000, .rdi32] ++
  [.rdf16 10, .rdf32 10000, .rdf32 10000, .skip 8, .rdi32, .rdi32]

/-- Issue one command and look at its response; none if the block stops or gives no response. -/
def ask (p : Params) (i : Instr) (s : State) : Option (State × Response) :=
  match execWith p i s with
  | .next t =>
    match t.outputs.getLast? with
    | some (.response r) => some (t, r)
    | _ => none
  | _ => none

/-- Issue commands in order up to the first that is not answered `OK`: the responses, or that status (R197). -/
def askAll (p : Params) : List Instr → State → Option (State × Except Status (List Response))
  | [], s => some (s, .ok [])
  | i :: rest, s =>
    match ask p i s with
    | none => none
    | some (t, r) =>
      if r.status = .ok then
        match askAll p rest t with
        | some (u, .ok rs) => some (u, .ok (r :: rs))
        | other => other
      else some (t, .error r.status)

/-- The eleven values of a walk, each `signed_32(v0) / v1` (R106, R194); the two skips carry none. -/
def snapshotOf : List Response → Option TelemetrySnapshot
  | [fet, motor, im, iin, _, duty, rpm, vin, ah, ahc, _, tacho, tachoAbs] =>
    let value (r : Response) : Rat := denoted r.v0 r.v1
    some ⟨value fet, value motor, value im, value iin, value duty, value rpm, value vin, value ah, value ahc,
      value tacho, value tachoAbs⟩
  | _ => none

/-- What the host does with the answer `d` of `DEC`, in the order of R198: any failure ends the exchange; the gate
on the payload length (R199); the identifier, the high byte of a 16-bit read at 0 (R196); and only when it is
get-telemetry's, `CURWR 1` and the walk, whose values are put together at the end (R197). None only if the block
stops. -/
def useReply (p : Params) (d : Response) (s : State) : Option (State × Except Status TelemetrySnapshot) :=
  if d.status ≠ .ok then some (s, .error d.status)
  else if d.v0.toNat ≤ minTelemetryLen then some (s, .error .shortResponse)
  else
    match askAll p [.curwr 0, .rdi16] s with
    | some (t, .ok [_, ident]) =>
      if ident.v0.extractLsb' 8 8 ≠ p.ids.getValues then some (t, .error .unknownPacket)
      else
        match askAll p (.curwr 1 :: telemetryWalk) t with
        | some (u, .ok (_ :: values)) => (snapshotOf values).map fun snap => (u, .ok snap)
        | some (u, .error e) => some (u, .error e)
        | _ => none
    | some (t, .error e) => some (t, .error e)
    | _ => none

/-- `DEC` and what the host does with its answer: the exchange from the end of the reception on (R196 to R199). -/
def readTelemetry (p : Params) (s : State) : Option (State × Except Status TelemetrySnapshot) :=
  match ask p .dec s with
  | none => none
  | some (t, d) => useReply p d t

/-! ## The exchange -/

/-- What reaches the block while the host waits: a byte from the serial channel, or the deadline (R198). -/
inductive Arrival where
  | byte (b : Byte)
  | expire
deriving DecidableEq, Repr

/-- The event an arrival is (R86). -/
def Arrival.instr : Arrival → Instr
  | .byte b => .rxbyte b
  | .expire => .rxexpire

/-- The two ways R198 gives the host to learn that the reception has ended: `RDREG 0` until `RX_STATE` is terminal,
or `DEC` with `NotReady` taken for "not yet". -/
inductive Polling where
  | status
  | decode
deriving DecidableEq, Repr

/-- The terminal states by their value in bits 2:0 of `STATUS` (R24, R34). -/
def statusTerminal (status : Word) : Bool :=
  let state := status.extractLsb' 0 3
  state == RxState.terminated.code || state == RxState.timedOut.code || state == RxState.malformedHeader.code

/-- One poll: the answer of `DEC` once the reception has ended, none before that. -/
def poll (p : Params) (how : Polling) (s : State) : Option (State × Option Response) :=
  match how with
  | .status =>
    match ask p (.rdreg 0) s with
    | none => none
    | some (t, r) =>
      if statusTerminal r.v0 then (ask p .dec t).map fun u => (u.1, some u.2) else some (t, none)
  | .decode => (ask p .dec s).map fun t => (t.1, if t.2.status = .notReady then none else some t.2)

/-- Poll, and until a poll finds the reception ended let the next arrival reach the block and poll again. No answer
means that the host still waits. Polling once before each arrival is the model's choice (log 22). -/
def awaitReply (p : Params) (how : Polling) : List Arrival → State → Option (State × Option Response)
  | [], s => poll p how s
  | a :: rest, s =>
    match poll p how s with
    | none => none
    | some (t, some d) => some (t, some d)
    | some (t, none) =>
      match execWith p a.instr t with
      | .next u => awaitReply p how rest u
      | _ => none

/-- `requestTelemetry()` on the block (R198): `GETVALUES`, the settle delay in which the block takes no step,
`RXSTART`, the reception, `DEC`, then what the host does with the reply. `arrivals` is what the collaborators
deliver after `RXSTART`. No outcome means that the host still waits. -/
def requestTelemetry (p : Params) (how : Polling) (arrivals : List Arrival) (s : State) :
    Option (State × Option (Except Status TelemetrySnapshot)) :=
  match askAll p (HostCommand.getTelemetry.expand p.ids ++ [.rxstart]) s with
  | none => none
  | some (t, .error e) => some (t, some (.error e))
  | some (t, .ok _) =>
    match awaitReply p how arrivals t with
    | none => none
    | some (u, none) => some (u, none)
    | some (u, some d) => (useReply p d u).map fun r => (r.1, some r.2)

/-- "Failure leaves the cache alone" (R197, R206). -/
def updateSnapshot (cached : Option TelemetrySnapshot) : Except Status TelemetrySnapshot → Option TelemetrySnapshot
  | .ok snap => some snap
  | .error _ => cached

end Sys2Proof.Machine
end

