-- ==== Sys2Proof/Safety.lean ====
section
/-! DEFINITION. The terms in which claims about the block are written: what a state keeps in every run (R41),
what an input leaves unchanged, what a command answers, what a host can see, and single-bit sensitivity (R126). -/

namespace Sys2Proof.Machine

/-! ## Invariants -/

/-- A buffer in canonical form, all of whose bytes lie within `cap` (R50). -/
def Memory.fits (cap : Nat) (m : Memory) : Bool := m.wf && m.all fun c => decide (c.1 < cap)

/-- The invariants of R41, each under its letter, and what the state means beside them: the buffers are
canonical and within their size (R50), a header in progress is short of its length bytes (R163 to R165), the
stored header bytes are the ones the registers were set from (R163 to R165), and a valid payload is the one
`DecodeFrame` finds in the frame held (R31). -/
structure Inv (p : Params) (s : State) : Prop where
  /-- The buffers (R50). -/
  buffers : s.txp.fits p.txpCap ∧ s.rxf.fits p.frameCap ∧ s.rxp.fits p.rxpCap
  /-- (a) -/
  txCursor : s.txpCur.toNat ≤ p.txpCap
  /-- (b) -/
  rxCursor : s.rxpCur.toNat ≤ s.rxpLen.toNat ∧ s.rxpLen.toNat ≤ p.rxpCap
  /-- (c) -/
  noPayload : s.rxpValid = false → s.rxpLen = 0 ∧ s.rxpCur = 0
  /-- (d) -/
  countInBuffer : s.rxCount.toNat ≤ p.frameCap
  /-- (e) -/
  expectation : s.rxState = .accumulatingPayload ∨ s.rxState = .terminated →
    s.rxExpect.toNat = s.rxLen.toNat + 5 + s.rxKind.code.toNat ∧ s.rxExpect.toNat ≤ p.frameCap ∧
      2 + s.rxKind.code.toNat ≤ s.rxCount.toNat ∧ s.rxCount.toNat ≤ s.rxExpect.toNat
  /-- (f) -/
  complete : s.rxState = .terminated →
    s.rxCount = s.rxExpect ∧ s.rxf.read (s.rxExpect.toNat - 1) = 0x03
  /-- (g) -/
  noExpectation : s.rxState = .idle ∨ s.rxState = .waitingForHeader → s.rxExpect = 0 ∧ s.rxLen = 0
  /-- (h) -/
  idleCount : s.rxState = .idle → s.rxCount = 0
  /-- (i) -/
  shortOnly : p.longEn = false → s.rxKind = .short
  /-- (j) -/
  validTerminated : s.rxpValid = true → s.rxState = .terminated
  /-- The length bytes are not all there yet. -/
  headerShort : s.rxState = .waitingForHeader → s.rxCount.toNat ≤ 1 + s.rxKind.code.toNat
  /-- The marker stored is the one that selected the kind. -/
  markerStored : s.rxState.active = true ∨ s.rxState = .terminated → 1 ≤ s.rxCount.toNat →
    s.rxf.read 0 = s.rxKind.marker
  /-- The length bytes stored are those of the declared length. -/
  lengthStored : s.rxState = .accumulatingPayload ∨ s.rxState = .terminated →
    match s.rxKind with
    | .short => (s.rxf.read 1).toNat = s.rxLen.toNat
    | .long => longLength (s.rxf.read 1) (s.rxf.read 2) = s.rxLen.toNat
  /-- Where a valid payload comes from. -/
  provenance : s.rxpValid = true →
    decodeFrame p (s.rxf.readBytes 0 s.rxCount.toNat) = .ok (s.rxp.readBytes 0 s.rxpLen.toNat)

/-! ## What an input leaves unchanged -/

/-- The twelve pieces of state (R20). -/
inductive Piece where
  | txp | txpCur | rxf | rxState | rxCount | rxKind | rxLen | rxExpect | rxp | rxpLen | rxpValid | rxpCur
deriving DecidableEq, Repr

/-- A piece is the same in two states: a register holds the same value, every index of a buffer reads the same. -/
def Piece.Same (s t : State) : Piece → Prop
  | .txp => ∀ a, t.txp.read a = s.txp.read a
  | .txpCur => t.txpCur = s.txpCur
  | .rxf => ∀ a, t.rxf.read a = s.rxf.read a
  | .rxState => t.rxState = s.rxState
  | .rxCount => t.rxCount = s.rxCount
  | .rxKind => t.rxKind = s.rxKind
  | .rxLen => t.rxLen = s.rxLen
  | .rxExpect => t.rxExpect = s.rxExpect
  | .rxp => ∀ a, t.rxp.read a = s.rxp.read a
  | .rxpLen => t.rxpLen = s.rxpLen
  | .rxpValid => t.rxpValid = s.rxpValid
  | .rxpCur => t.rxpCur = s.rxpCur

/-- Every piece but the named ones is the same, and the inputs still pending are the same. -/
def KeepsAllBut (written : List Piece) (s t : State) : Prop :=
  t.pending = s.pending ∧ ∀ x : Piece, x ∉ written → x.Same s t

/-- From `s` to `t` the one thing put out is this response (R82). -/
def Answers (s t : State) (status : Status) (v0 v1 : Word) : Prop :=
  t.outputs = s.outputs ++ [.response ⟨status, v0, v1⟩]

/-- From `s` to `t` nothing is put out. -/
def Silent (s t : State) : Prop := t.outputs = s.outputs

/-- The command fails with `e`: `(E, 0, 0)` and no state written (R225). -/
def Fails (r : Result) (e : Status) (s : State) : Prop :=
  ∃ t, r = .next t ∧ Answers s t e 0 0 ∧ KeepsAllBut [] s t

/-! ## What each input may write and answer -/

/-- The pieces of state R183 lets an input write. A frame writes what its `RXBYTE` events write. -/
def mayWrite : Instr → List Piece
  | .txclr => [.txpCur]
  | .appu8 _ | .appi32 _ => [.txp, .txpCur]
  | .enc | .crctx | .rdreg _ | .reserved0 | .reservedF => []
  | .rxstart => [.rxState, .rxCount, .rxKind, .rxLen, .rxExpect, .rxpLen, .rxpValid, .rxpCur]
  | .dec => [.rxp, .rxpLen, .rxpValid, .rxpCur]
  | .curwr _ | .skip _ | .rdi16 | .rdi32 | .rdf16 _ | .rdf32 _ => [.rxpCur]
  | .rxbyte _ | .frameShort _ _ _ _ | .frameLong _ _ _ _ => [.rxf, .rxState, .rxCount, .rxKind, .rxLen, .rxExpect]
  | .rxexpire => [.rxState]
  | .reset => [.txpCur, .rxState, .rxCount, .rxKind, .rxLen, .rxExpect, .rxpLen, .rxpValid, .rxpCur]

/-- The statuses R221 allows an operation. -/
def mayAnswer (p : Params) : Instr → List Status
  | .txclr | .rxstart | .crctx => [.ok]
  | .appu8 _ | .appi32 _ | .curwr _ | .skip _ | .rdi16 | .rdi32 => [.ok, .boundsError]
  | .enc => if p.longEn then [.ok] else [.ok, .lengthUnsupported]
  | .dec => [.ok, .timeout, .integrityError, .malformedHeader, .notReady]
  | .rdf16 _ | .rdf32 _ => [.ok, .scaleZero, .boundsError]
  | .rdreg _ => [.ok, .illegalOp]
  | .reserved0 | .reservedF => [.illegalOp]
  | .rxbyte _ | .rxexpire | .reset | .frameShort _ _ _ _ | .frameLong _ _ _ _ => []

/-! ## What a host can see -/

/-- The two states hold the same registers, the same bytes in the valid prefix of each buffer (R50), the same
pending inputs and the same outputs. Bytes outside the valid prefixes may differ. -/
structure SameVisible (s t : State) : Prop where
  txpCur : s.txpCur = t.txpCur
  rxState : s.rxState = t.rxState
  rxCount : s.rxCount = t.rxCount
  rxKind : s.rxKind = t.rxKind
  rxLen : s.rxLen = t.rxLen
  rxExpect : s.rxExpect = t.rxExpect
  rxpLen : s.rxpLen = t.rxpLen
  rxpValid : s.rxpValid = t.rxpValid
  rxpCur : s.rxpCur = t.rxpCur
  txp : ∀ a, a < s.txpCur.toNat → s.txp.read a = t.txp.read a
  rxf : ∀ a, a < s.rxCount.toNat → s.rxf.read a = t.rxf.read a
  rxp : ∀ a, a < s.rxpLen.toNat → s.rxp.read a = t.rxp.read a
  pending : s.pending = t.pending
  outputs : s.outputs = t.outputs

/-! ## Bits of a byte sequence -/

/-- A byte sequence with bit `j` of the byte at index `i` flipped. -/
def flipBit (bytes : List Byte) (i j : Nat) : List Byte := bytes.modify i fun b => b ^^^ (1#8 <<< j)

/-- Single-bit sensitivity of a checksum (R126). -/
def SingleBitSensitive (f : List Byte → BitVec 16) : Prop :=
  ∀ bytes i j, i < bytes.length → j < 8 → f (flipBit bytes i j) ≠ f bytes

end Sys2Proof.Machine
end

