-- ==== Sys2Proof/Certificates/Slice0/Obligations.lean ====
section
/-! DEFINITION. The statements about the block. Where a statement speaks of `execWith p` or `stepWith p` it holds
for every choice of the parameters of R6 that R7 admits; `exec` and `step` are the case `hardware`. -/

open Sys2Proof Sys2Proof.Machine

/-! ## Encodings -/

/-- Every well-formed instruction is read back from its encoding, whole: no operand bit is dropped and no serial
byte is left over. -/
def Obligations.DecodeOfEncodeIsTheInstruction : Prop :=
  ∀ i : Instr, i.wf = true → decode (encode i) = .ok (i, [])

/-- R80 and R81: the sixteen operation codes, each with the operand bits it uses, for every operand field. -/
def Obligations.CommandWordsDecodeByOpAndOperand : Prop :=
  ∀ a : BitVec 32,
    decodeCommand (0x0#4 ++ a) = .reserved0 ∧
    decodeCommand (0x1#4 ++ a) = .txclr ∧
    decodeCommand (0x2#4 ++ a) = .appu8 (BitVec.ofNat 8 a.toNat) ∧
    decodeCommand (0x3#4 ++ a) = .appi32 a ∧
    decodeCommand (0x4#4 ++ a) = .enc ∧
    decodeCommand (0x5#4 ++ a) = .rxstart ∧
    decodeCommand (0x6#4 ++ a) = .dec ∧
    decodeCommand (0x7#4 ++ a) = .curwr (BitVec.ofNat 16 a.toNat) ∧
    decodeCommand (0x8#4 ++ a) = .rdi16 ∧
    decodeCommand (0x9#4 ++ a) = .rdi32 ∧
    decodeCommand (0xA#4 ++ a) = .rdf16 a ∧
    decodeCommand (0xB#4 ++ a) = .rdf32 a ∧
    decodeCommand (0xC#4 ++ a) = .crctx ∧
    decodeCommand (0xD#4 ++ a) = .rdreg (BitVec.ofNat 4 a.toNat) ∧
    decodeCommand (0xE#4 ++ a) = .skip (BitVec.ofNat 16 a.toNat) ∧
    decodeCommand (0xF#4 ++ a) = .reservedF

/-- Every 36-bit word matches exactly one command row of the opcode table, the row of the instruction it decodes
to: no two rows overlap and no word is left without a row. -/
def Obligations.EveryCommandWordMatchesExactlyItsRow : Prop :=
  ∀ w : BitVec 36,
    (opcodeTable.filter fun row => row.2.matches (.command w)).map Prod.fst = [(decodeCommand w).mnemonic]

/-- Words and frames written out from the spec's encodings decode to what they stand for (95_test_vectors.md 2.0,
2.3). -/
def Obligations.WrittenOutWordsDecode : Prop :=
  decodeCommand 0x2000001FF = .appu8 0xFF ∧
  decodeCommand 0x3000061A8 = .appi32 25000 ∧
  decodeCommand 0x700010001 = .curwr 1 ∧
  decodeCommand 0xDFFFFFFF0 = .rdreg 0 ∧
  decodeCommand 0xE00000008 = .skip 8 ∧
  decode (.serial [0x03]) = .ok (.rxbyte 0x03, []) ∧
  decode (.expire 1) = .ok (.rxexpire, []) ∧
  decode (.reset 1) = .ok (.reset, []) ∧
  decode (.serial [0x02, 0x01, 0x04, 0x40, 0x84, 0x03]) = .ok (.frameShort [0x04] 0x40 0x84 0x03, []) ∧
  decode (.serial [0x03, 0x00, 0x01, 0x04, 0x40, 0x84, 0x03]) = .ok (.frameLong [0x04] 0x40 0x84 0x03, [])

/-- R82: the response word has the status in bits 67:64, `v0` in bits 63:32 and `v1` in bits 31:0, and is read
back from them. -/
def Obligations.ResponseWordHoldsItsFields : Prop :=
  ∀ r : Response,
    r.word.extractLsb' 64 4 = r.status.code ∧ r.word.extractLsb' 32 32 = r.v0 ∧ r.word.extractLsb' 0 32 = r.v1 ∧
      Response.ofWord r.word = some r

/-! ## The step -/

/-- `exec` and `step` are the machine for arbitrary parameters at this hardware's values, so every statement about
`execWith p` for all admitted `p` holds of `exec`. -/
def Obligations.ExecIsTheGenericMachineAtThisHardware : Prop :=
  hardware.valid = true ∧ (∀ (i : Instr) (s : State), exec i s = execWith hardware i s) ∧
    ∀ s : State, step s = stepWith hardware s

/-- A step takes the first pending input and runs the instruction it decodes to, on the state with that input
taken and the serial bytes it leaves put back first. -/
def Obligations.StepRunsTheDecodedInput : Prop :=
  ∀ (s : State) (x : Input) (rest : List Input) (i : Instr) (left : List Byte),
    s.pending = x :: rest → decode x = .ok (i, left) → step s = exec i { s with pending := putBack left rest }

/-- A step on the encoding of a well-formed instruction is that instruction's effect with the rest pending; the
same through `withFetchWord` for a command word. -/
def Obligations.AnEncodedInputIsRun : Prop :=
  (∀ (s : State) (i : Instr) (rest : List Input), i.wf = true → s.pending = encode i :: rest →
    step s = exec i { s with pending := rest }) ∧
  (∀ (s : State) (op : BitVec 4) (a : BitVec 32),
    step (s.withFetchWord 40 (op ++ a).toNat) = exec (decodeCommand (op ++ a)) s)

/-- Between events nothing happens: with nothing pending a step holds the state, and what is no event (a strobe
not asserted, an offer of no bytes) is taken without effect (model's reading of R5 and R86, log 7). -/
def Obligations.WithoutAnEventTheStateIsHeld : Prop :=
  (∀ s : State, s.pending = [] → step s = .next s) ∧
  (∀ (s : State) (x : Input) (rest : List Input), s.pending = x :: rest →
    (x = .expire 0 ∨ x = .reset 0 ∨ x = .serial []) → step s = .next { s with pending := rest })

/-! ## Invariants, totality, noninterference -/

/-- The reset state meets the invariants, whatever the parameters. -/
def Obligations.ResetMeetsTheInvariants : Prop := ∀ p : Params, Inv p State.reset

/-- Every step keeps the invariants of R41 and the model's own beside them (`Inv`), from every state that meets
them and for every admitted choice of parameters, Long framing included; and so does `step`. -/
def Obligations.EveryStepKeepsTheInvariants : Prop :=
  (∀ p : Params, p.valid = true → ∀ s t : State, Inv p s → stepWith p s = .next t → Inv p t) ∧
  (∀ s t : State, Inv hardware s → step s = .next t → Inv hardware t)

/-- Every input in every state that meets the invariants has a next state: nothing faults and nothing is
refused. -/
def Obligations.EveryInputHasADefinedResult : Prop :=
  (∀ p : Params, p.valid = true → ∀ s : State, Inv p s →
    (∀ i : Instr, ∃ t, execWith p i s = .next t) ∧ ∃ t, stepWith p s = .next t) ∧
  (∀ s : State, Inv hardware s → (∀ i : Instr, ∃ t, exec i s = .next t) ∧ ∃ t, step s = .next t)

/-- Bytes outside the valid prefixes are never seen: two states that differ only in such bytes give the same
outputs, hold the same registers and keep agreeing, for any number of steps. What the model chose for an unlisted
byte and for the buffers after `RESET` (log 3, log 4) is thereby not observable. -/
def Obligations.BytesOutsideTheValidPrefixesAreNeverSeen : Prop :=
  ∀ p : Params, p.valid = true → ∀ s t : State, Inv p s → Inv p t → SameVisible s t →
    ∀ n : Nat, ∃ s' t', stepsWith p n s = .next s' ∧ stepsWith p n t = .next t' ∧ SameVisible s' t'

/-- After `RXSTART` nothing of an earlier reception matters: two states with the same transmit side, whatever
their readers and decoded payloads hold, behave alike for every list of inputs from then on (R174). -/
def Obligations.ReceptionDependsOnlyOnWhatFollowsRxstart : Prop :=
  ∀ p : Params, p.valid = true → ∀ s t : State, Inv p s → Inv p t → s.txpCur = t.txpCur →
    (∀ a, a < s.txpCur.toNat → s.txp.read a = t.txp.read a) → s.pending = t.pending → s.outputs = t.outputs →
    ∀ inputs : List Instr, ∃ s' t',
      runWith p (.rxstart :: inputs) s = .next s' ∧ runWith p (.rxstart :: inputs) t = .next t' ∧ SameVisible s' t'

/-- The transmit side and the receive side share no state: a transmit operation does the same with the receive
side exchanged, and leaves it as it is; a receive operation or event likewise with the transmit side. -/
def Obligations.TransmitAndReceiveShareNoState : Prop :=
  ∀ (p : Params) (i : Instr) (s r : State),
    ((i = .txclr ∨ i = .enc ∨ i = .crctx ∨ (∃ b, i = .appu8 b) ∨ ∃ v, i = .appi32 v) →
      execWith p i { r with txp := s.txp, txpCur := s.txpCur, pending := s.pending, outputs := s.outputs } =
        andThen (execWith p i s) fun t =>
          .next { r with txp := t.txp, txpCur := t.txpCur, pending := t.pending, outputs := t.outputs }) ∧
    ((i = .rxstart ∨ i = .dec ∨ i = .rdi16 ∨ i = .rdi32 ∨ i = .rxexpire ∨ (∃ k, i = .curwr k) ∨ (∃ n, i = .skip n) ∨
        (∃ c, i = .rdf16 c) ∨ (∃ c, i = .rdf32 c) ∨ (∃ b, i = .rxbyte b) ∨
        (∃ l h c e, i = .frameShort l h c e) ∨ ∃ l h c e, i = .frameLong l h c e) →
      execWith p i { s with txp := r.txp, txpCur := r.txpCur } =
        andThen (execWith p i s) fun t => .next { t with txp := r.txp, txpCur := r.txpCur })

/-! ## Fixed-Point Codec -/

/-- R107. -/
def Obligations.TxclrSetsTheTransmitCursorToZero : Prop :=
  ∀ s : State, ∃ t, exec .txclr s = .next t ∧ t.txpCur = 0 ∧ Answers s t .ok 0 0 ∧ KeepsAllBut [.txpCur] s t

/-- R108: one byte at the cursor, every other byte of `TXP` as before; `BoundsError` when the buffer is full. -/
def Obligations.Appu8AppendsOneByteOrFails : Prop :=
  ∀ (s : State) (b : Byte), s.txp.wf = true →
    (s.txpCur.toNat + 1 ≤ hardware.txpCap →
      ∃ t, exec (.appu8 b) s = .next t ∧ t.txpCur.toNat = s.txpCur.toNat + 1 ∧
        (∀ a, t.txp.read a = if a = s.txpCur.toNat then b else s.txp.read a) ∧
        Answers s t .ok (BitVec.ofNat 32 (s.txpCur.toNat + 1)) 0 ∧ KeepsAllBut [.txp, .txpCur] s t) ∧
    (hardware.txpCap < s.txpCur.toNat + 1 → Fails (exec (.appu8 b) s) .boundsError s)

/-- R109: four bytes at the cursor, the most significant first, every other byte of `TXP` as before;
`BoundsError` and no byte written when fewer than four remain. -/
def Obligations.Appi32AppendsFourBigEndianBytesOrFails : Prop :=
  ∀ (s : State) (v : Word), s.txp.wf = true →
    (s.txpCur.toNat + 4 ≤ hardware.txpCap →
      ∃ t, exec (.appi32 v) s = .next t ∧ t.txpCur.toNat = s.txpCur.toNat + 4 ∧
        (∀ a, t.txp.read a =
          if a = s.txpCur.toNat then v.extractLsb' 24 8
          else if a = s.txpCur.toNat + 1 then v.extractLsb' 16 8
          else if a = s.txpCur.toNat + 2 then v.extractLsb' 8 8
          else if a = s.txpCur.toNat + 3 then v.extractLsb' 0 8
          else s.txp.read a) ∧
        Answers s t .ok (BitVec.ofNat 32 (s.txpCur.toNat + 4)) 0 ∧ KeepsAllBut [.txp, .txpCur] s t) ∧
    (hardware.txpCap < s.txpCur.toNat + 4 → Fails (exec (.appi32 v) s) .boundsError s)

/-- R110, R111: the field at the cursor, sign-extended, with `v1 = 1`, and the cursor past it; `BoundsError` when
the field is not wholly inside the payload. The premise is invariant (b) of R41. -/
def Obligations.IntegerReadsAnswerTheFieldAtTheCursor : Prop :=
  ∀ s : State, s.rxpLen.toNat ≤ hardware.rxpCap →
    (s.rxpCur.toNat + 2 ≤ s.rxpLen.toNat →
      ∃ t, exec .rdi16 s = .next t ∧ t.rxpCur.toNat = s.rxpCur.toNat + 2 ∧
        Answers s t .ok ((s.rxp.read s.rxpCur.toNat ++ s.rxp.read (s.rxpCur.toNat + 1)).signExtend 32) 1 ∧
        KeepsAllBut [.rxpCur] s t) ∧
    (s.rxpLen.toNat < s.rxpCur.toNat + 2 → Fails (exec .rdi16 s) .boundsError s) ∧
    (s.rxpCur.toNat + 4 ≤ s.rxpLen.toNat →
      ∃ t, exec .rdi32 s = .next t ∧ t.rxpCur.toNat = s.rxpCur.toNat + 4 ∧
        Answers s t .ok
          (s.rxp.read s.rxpCur.toNat ++ s.rxp.read (s.rxpCur.toNat + 1) ++ s.rxp.read (s.rxpCur.toNat + 2) ++
            s.rxp.read (s.rxpCur.toNat + 3)) 1 ∧
        KeepsAllBut [.rxpCur] s t) ∧
    (s.rxpLen.toNat < s.rxpCur.toNat + 4 → Fails (exec .rdi32 s) .boundsError s)

/-- R112, R113: as the integer reads, with the scale as `v1`, denoting the field over the scale; `ScaleZero` for
scale 0, before the bound. The premise is invariant (b) of R41. -/
def Obligations.ScaledReadsAnswerTheFieldAndTheScale : Prop :=
  ∀ (s : State) (scale : Word), s.rxpLen.toNat ≤ hardware.rxpCap →
    (scale = 0 → Fails (exec (.rdf16 scale) s) .scaleZero s ∧ Fails (exec (.rdf32 scale) s) .scaleZero s) ∧
    (scale ≠ 0 →
      (s.rxpCur.toNat + 2 ≤ s.rxpLen.toNat →
        ∃ t, exec (.rdf16 scale) s = .next t ∧ t.rxpCur.toNat = s.rxpCur.toNat + 2 ∧
          Answers s t .ok ((s.rxp.read s.rxpCur.toNat ++ s.rxp.read (s.rxpCur.toNat + 1)).signExtend 32) scale ∧
          denoted ((s.rxp.read s.rxpCur.toNat ++ s.rxp.read (s.rxpCur.toNat + 1)).signExtend 32) scale =
            ((s.rxp.read s.rxpCur.toNat ++ s.rxp.read (s.rxpCur.toNat + 1)).toInt : Rat) / (scale.toNat : Rat) ∧
          KeepsAllBut [.rxpCur] s t) ∧
      (s.rxpLen.toNat < s.rxpCur.toNat + 2 → Fails (exec (.rdf16 scale) s) .boundsError s) ∧
      (s.rxpCur.toNat + 4 ≤ s.rxpLen.toNat →
        ∃ t, exec (.rdf32 scale) s = .next t ∧ t.rxpCur.toNat = s.rxpCur.toNat + 4 ∧
          Answers s t .ok
            (s.rxp.read s.rxpCur.toNat ++ s.rxp.read (s.rxpCur.toNat + 1) ++ s.rxp.read (s.rxpCur.toNat + 2) ++
              s.rxp.read (s.rxpCur.toNat + 3)) scale ∧
          denoted
              (s.rxp.read s.rxpCur.toNat ++ s.rxp.read (s.rxpCur.toNat + 1) ++ s.rxp.read (s.rxpCur.toNat + 2) ++
                s.rxp.read (s.rxpCur.toNat + 3)) scale =
            ((s.rxp.read s.rxpCur.toNat ++ s.rxp.read (s.rxpCur.toNat + 1) ++ s.rxp.read (s.rxpCur.toNat + 2) ++
                s.rxp.read (s.rxpCur.toNat + 3)).toInt : Rat) / (scale.toNat : Rat) ∧
          KeepsAllBut [.rxpCur] s t) ∧
      (s.rxpLen.toNat < s.rxpCur.toNat + 4 → Fails (exec (.rdf32 scale) s) .boundsError s))

/-- The four reads denote what the codec's pure functions return: `signed_32(v0) / v1` is the value of
`readInt16`, `readInt32`, `readFloat16`, `readFloat32` at the cursor, exactly, and the cursor moves to theirs;
where a function answers `BoundsError` so does its operation. -/
def Obligations.ReadsDenoteTheCodecFunctions : Prop :=
  ∀ p : Params, p.valid = true → ∀ (s : State) (scale : Word), Inv p s → scale ≠ 0 →
    (∀ x c, (readInt16 s.rxp s.rxpLen.toNat s.rxpCur.toNat = some (x, c) →
      ∃ t v0 v1, execWith p .rdi16 s = .next t ∧ Answers s t .ok v0 v1 ∧ denoted v0 v1 = x ∧ t.rxpCur.toNat = c)) ∧
    (∀ x c, (readInt32 s.rxp s.rxpLen.toNat s.rxpCur.toNat = some (x, c) →
      ∃ t v0 v1, execWith p .rdi32 s = .next t ∧ Answers s t .ok v0 v1 ∧ denoted v0 v1 = x ∧ t.rxpCur.toNat = c)) ∧
    (∀ x c, (readFloat16 s.rxp s.rxpLen.toNat scale.toNat s.rxpCur.toNat = some (x, c) →
      ∃ t v0 v1, execWith p (.rdf16 scale) s = .next t ∧ Answers s t .ok v0 v1 ∧ denoted v0 v1 = x ∧
        t.rxpCur.toNat = c)) ∧
    (∀ x c, (readFloat32 s.rxp s.rxpLen.toNat scale.toNat s.rxpCur.toNat = some (x, c) →
      ∃ t v0 v1, execWith p (.rdf32 scale) s = .next t ∧ Answers s t .ok v0 v1 ∧ denoted v0 v1 = x ∧
        t.rxpCur.toNat = c)) ∧
    (readInt16 s.rxp s.rxpLen.toNat s.rxpCur.toNat = none → Fails (execWith p .rdi16 s) .boundsError s) ∧
    (readInt32 s.rxp s.rxpLen.toNat s.rxpCur.toNat = none → Fails (execWith p .rdi32 s) .boundsError s) ∧
    (readFloat16 s.rxp s.rxpLen.toNat scale.toNat s.rxpCur.toNat = none →
      Fails (execWith p (.rdf16 scale) s) .boundsError s) ∧
    (readFloat32 s.rxp s.rxpLen.toNat scale.toNat s.rxpCur.toNat = none →
      Fails (execWith p (.rdf32 scale) s) .boundsError s)

/-- R114. -/
def Obligations.CurwrSetsTheReceiveCursorOrFails : Prop :=
  ∀ (s : State) (k : BitVec 16),
    (k.toNat ≤ s.rxpLen.toNat →
      ∃ t, exec (.curwr k) s = .next t ∧ t.rxpCur = k ∧ Answers s t .ok (BitVec.ofNat 32 k.toNat) 0 ∧
        KeepsAllBut [.rxpCur] s t) ∧
    (s.rxpLen.toNat < k.toNat → Fails (exec (.curwr k) s) .boundsError s)

/-- R115. -/
def Obligations.SkipAdvancesTheReceiveCursorOrFails : Prop :=
  ∀ (s : State) (n : BitVec 16),
    (s.rxpCur.toNat + n.toNat ≤ s.rxpLen.toNat →
      ∃ t, exec (.skip n) s = .next t ∧ t.rxpCur.toNat = s.rxpCur.toNat + n.toNat ∧
        Answers s t .ok (BitVec.ofNat 32 (s.rxpCur.toNat + n.toNat)) 0 ∧ KeepsAllBut [.rxpCur] s t) ∧
    (s.rxpLen.toNat < s.rxpCur.toNat + n.toNat → Fails (exec (.skip n) s) .boundsError s)

/-- Appending a 32-bit pattern and reading it back at the same cursor gives the same integer, and with a scale
that integer over the scale, exactly (R117 (g)). R103 speaks of scales other than 0; what the last clause says at scale
0 rests on the model's choice of that value (log 21). -/
def Obligations.AppendThenReadGivesTheSameValue : Prop :=
  ∀ (m m' : Memory) (cap len c c' : Nat) (v : Word) (scale : Nat), m.wf = true → c + 4 ≤ len →
    appendInt32 m cap v c = some (m', c') →
      c' = c + 4 ∧ readInt32 m' len c = some (v.toInt, c + 4) ∧
      readFloat32 m' len scale c = some ((v.toInt : Rat) / (scale : Rat), c + 4)

/-! ## CRC16 Validator -/

/-- R127: the checksum of the staged payload, which is what `ENC` places in its frame's two CRC bytes, and nothing
written. The premise is invariant (a) of R41. -/
def Obligations.CrctxAnswersTheCrcOfTheStagedPayload : Prop :=
  ∀ s : State, s.txpCur.toNat ≤ hardware.txpCap →
    (∃ t, exec .crctx s = .next t ∧
      Answers s t .ok (BitVec.ofNat 32 (hardware.crc16 (s.txp.readBytes 0 s.txpCur.toNat)).toNat) 0 ∧
      KeepsAllBut [] s t) ∧
    ∀ frame, encodeFrame hardware (s.txp.readBytes 0 s.txpCur.toNat) = .ok frame →
      frame.getD (frame.length - 3) 0 ++ frame.getD (frame.length - 2) 0 =
        hardware.crc16 (s.txp.readBytes 0 s.txpCur.toNat)

/-- The recommended checksum's table-driven form (R125) equals its bitwise form (R124) on every byte sequence.
Both are from general knowledge (G1, log 1). -/
def Obligations.TableDrivenCrcEqualsBitwiseCrc : Prop :=
  ∀ bytes : List Byte, crc16Table bytes = crc16Xmodem bytes

/-- The recommended checksum has the property R126 asks of `CRC16_FN`, for byte sequences of every length. The
checksum is from general knowledge (G1, log 1). -/
def Obligations.RecommendedCrcIsSingleBitSensitive : Prop := SingleBitSensitive crc16Xmodem

/-- The recommended checksum is linear over sequences of equal length, and leading zero bytes do not change it.
The checksum is from general knowledge (G1, log 1). -/
def Obligations.RecommendedCrcIsLinear : Prop :=
  (∀ a b : List Byte, a.length = b.length →
    crc16Xmodem (List.zipWith (· ^^^ ·) a b) = crc16Xmodem a ^^^ crc16Xmodem b) ∧
  (∀ (n : Nat) (a : List Byte), crc16Xmodem (List.replicate n 0 ++ a) = crc16Xmodem a)

/-! ## Frame Codec -/

/-- R149 on this hardware: the Short frame of the staged payload is emitted, then answered for with its length,
and nothing is written; more than 255 staged bytes are refused and nothing is emitted. -/
def Obligations.EncEmitsTheFrameOfTheStagedPayload : Prop :=
  ∀ s : State,
    (s.txpCur.toNat ≤ 255 →
      ∃ t, exec .enc s = .next t ∧
        t.outputs = s.outputs ++
          [.frame ([0x02, BitVec.ofNat 8 s.txpCur.toNat] ++ s.txp.readBytes 0 s.txpCur.toNat ++
              [BitVec.ofNat 8 ((hardware.crc16 (s.txp.readBytes 0 s.txpCur.toNat)).toNat / 256),
                BitVec.ofNat 8 (hardware.crc16 (s.txp.readBytes 0 s.txpCur.toNat)).toNat, 0x03]),
            .response ⟨.ok, BitVec.ofNat 32 (s.txpCur.toNat + 5), 0⟩] ∧
        KeepsAllBut [] s t) ∧
    (255 < s.txpCur.toNat → Fails (exec .enc s) .lengthUnsupported s)

/-- R149 for every admitted choice of parameters: `ENC` emits `EncodeFrame` of the staged payload, answers with its
length and writes nothing, or answers `LengthUnsupported`, which it does exactly when more than 255 bytes are staged
and `LONG_EN = false`; a Long frame has the layout of R72. -/
def Obligations.EncAppliesEncodeFrame : Prop :=
  ∀ p : Params, p.valid = true → ∀ s : State, Inv p s →
    (∀ frame, encodeFrame p (s.txp.readBytes 0 s.txpCur.toNat) = .ok frame →
      ∃ t, execWith p .enc s = .next t ∧
        t.outputs = s.outputs ++ [.frame frame, .response ⟨.ok, BitVec.ofNat 32 frame.length, 0⟩] ∧
        KeepsAllBut [] s t) ∧
    (∀ e, encodeFrame p (s.txp.readBytes 0 s.txpCur.toNat) = .error e →
      e = .lengthUnsupported ∧ p.longEn = false ∧ 255 < s.txpCur.toNat ∧ Fails (execWith p .enc s) e s) ∧
    (p.longEn = false → 255 < s.txpCur.toNat → Fails (execWith p .enc s) .lengthUnsupported s) ∧
    (p.longEn = true → 255 < s.txpCur.toNat →
      encodeFrame p (s.txp.readBytes 0 s.txpCur.toNat) =
        .ok ([0x03, BitVec.ofNat 8 (s.txpCur.toNat / 256), BitVec.ofNat 8 s.txpCur.toNat] ++
          s.txp.readBytes 0 s.txpCur.toNat ++
          [BitVec.ofNat 8 ((p.crc16 (s.txp.readBytes 0 s.txpCur.toNat)).toNat / 256),
            BitVec.ofNat 8 (p.crc16 (s.txp.readBytes 0 s.txpCur.toNat)).toNat, 0x03]))

/-- `EncodeFrame` for every parameter choice: its length is `L + 5` or `L + 6`, its kind is by length alone, and
`DecodeFrame` gives the payload back, whatever `CRC16_FN` is (R141, R143, the first half of R151). -/
def Obligations.DecodeFrameOfEncodeFrameIsThePayload : Prop :=
  ∀ (p : Params) (payload frame : List Byte), encodeFrame p payload = .ok frame →
    decodeFrame p frame = .ok payload ∧
    (payload.length ≤ 255 → frame.length = payload.length + 5 ∧ frame.head? = some 0x02) ∧
    (256 ≤ payload.length → frame.length = payload.length + 6 ∧ frame.head? = some 0x03)

/-- R151: every payload of a supported length comes back through the block. Its frame decodes to it; and the
frame's bytes, fed to a freshly started reader with room for them, end in `Terminated` with all of them stored,
after which `DEC` answers with its length and `RXP` holds it. -/
def Obligations.EveryPayloadComesBackThroughTheReader : Prop :=
  ∀ p : Params, p.valid = true → ∀ (s : State) (payload frame : List Byte), Inv p s →
    encodeFrame p payload = .ok frame → frame.length ≤ p.frameCap →
    decodeFrame p frame = .ok payload ∧
    ∃ t u, runWith p (.rxstart :: frame.map .rxbyte) s = .next t ∧ t.rxState = .terminated ∧
      t.rxCount.toNat = frame.length ∧
      execWith p .dec t = .next u ∧ Answers t u .ok (BitVec.ofNat 32 payload.length) 0 ∧
      u.rxpLen.toNat = payload.length ∧ u.rxp.readBytes 0 payload.length = payload

/-- R152: a flipped payload bit is an `IntegrityError`, for every single-bit sensitive `CRC16_FN`; so is a flipped
bit of a CRC byte, and a flipped bit of the terminator is not seen by `DecodeFrame` (R146). -/
def Obligations.AFlippedPayloadBitIsAnIntegrityError : Prop :=
  ∀ p : Params, SingleBitSensitive p.crc16 → ∀ (payload frame : List Byte) (hdr i j : Nat),
    encodeFrame p payload = .ok frame → hdr = (if payload.length ≤ 255 then 2 else 3) → j < 8 →
    (i < payload.length → decodeFrame p (flipBit frame (hdr + i) j) = .error .integrityError) ∧
    (i = payload.length ∨ i = payload.length + 1 →
      decodeFrame p (flipBit frame (hdr + i) j) = .error .integrityError) ∧
    (i = payload.length + 2 → decodeFrame p (flipBit frame (hdr + i) j) = .ok payload)

/-- R150 on this hardware: outside `Terminated` the status names the reader's state; in `Terminated` the payload
is handed over whole when its CRC matches the two bytes before the terminator, and nothing is written when it
does not. The premise rules out states no run reaches. -/
def Obligations.DecValidatesTheReceivedFrame : Prop :=
  ∀ s : State, Inv hardware s →
    (s.rxState = .idle ∨ s.rxState = .waitingForHeader ∨ s.rxState = .accumulatingPayload →
      Fails (exec .dec s) .notReady s) ∧
    (s.rxState = .timedOut → Fails (exec .dec s) .timeout s) ∧
    (s.rxState = .malformedHeader → Fails (exec .dec s) .malformedHeader s) ∧
    (s.rxState = .terminated →
      hardware.crc16 (s.rxf.readBytes 2 s.rxLen.toNat) =
          s.rxf.read (2 + s.rxLen.toNat) ++ s.rxf.read (3 + s.rxLen.toNat) →
      ∃ t, exec .dec s = .next t ∧ t.rxpLen = s.rxLen ∧ t.rxpCur = 0 ∧ t.rxpValid = true ∧
        (∀ a, t.rxp.read a = if a < s.rxLen.toNat then s.rxf.read (2 + a) else s.rxp.read a) ∧
        Answers s t .ok (BitVec.ofNat 32 s.rxLen.toNat) 0 ∧
        KeepsAllBut [.rxp, .rxpLen, .rxpCur, .rxpValid] s t) ∧
    (s.rxState = .terminated →
      hardware.crc16 (s.rxf.readBytes 2 s.rxLen.toNat) ≠
          s.rxf.read (2 + s.rxLen.toNat) ++ s.rxf.read (3 + s.rxLen.toNat) →
      Fails (exec .dec s) .integrityError s)

/-- R150 for every admitted choice of parameters: outside `Terminated` the status names the reader's state; in
`Terminated` `DEC` applies `DecodeFrame` to the frame held, hands a valid payload over whole, and fails with
`IntegrityError` and no other error. -/
def Obligations.DecAppliesDecodeFrame : Prop :=
  ∀ p : Params, p.valid = true → ∀ s : State, Inv p s →
    (s.rxState = .idle ∨ s.rxState = .waitingForHeader ∨ s.rxState = .accumulatingPayload →
      Fails (execWith p .dec s) .notReady s) ∧
    (s.rxState = .timedOut → Fails (execWith p .dec s) .timeout s) ∧
    (s.rxState = .malformedHeader → Fails (execWith p .dec s) .malformedHeader s) ∧
    (s.rxState = .terminated →
      (∀ payload, decodeFrame p (s.rxf.readBytes 0 s.rxCount.toNat) = .ok payload →
        payload.length ≤ p.rxpCap ∧ ∃ t, execWith p .dec s = .next t ∧ t.rxp.readBytes 0 payload.length = payload ∧
          (∀ a, payload.length ≤ a → t.rxp.read a = s.rxp.read a) ∧ t.rxpLen.toNat = payload.length ∧
          t.rxpCur = 0 ∧ t.rxpValid = true ∧ Answers s t .ok (BitVec.ofNat 32 payload.length) 0 ∧
          KeepsAllBut [.rxp, .rxpLen, .rxpCur, .rxpValid] s t) ∧
      (∀ e, decodeFrame p (s.rxf.readBytes 0 s.rxCount.toNat) = .error e →
        e = .integrityError ∧ Fails (execWith p .dec s) e s))

/-- `ENC`, `CRCTX`, `DEC` and `RDREG` issued twice give the same outputs twice and leave the same state the second
time (R57). -/
def Obligations.RepeatedCommandsAnswerTheSame : Prop :=
  ∀ p : Params, p.valid = true → ∀ (s t : State) (i : Instr), Inv p s →
    (i = .enc ∨ i = .crctx ∨ i = .dec ∨ ∃ r, i = .rdreg r) → execWith p i s = .next t →
    ∃ u new, t.outputs = s.outputs ++ new ∧ execWith p i t = .next u ∧ u.outputs = t.outputs ++ new ∧
      u.toBlock = t.toBlock

/-! ## Frame Reader -/

/-- R161: accepted in every state. -/
def Obligations.RxstartStartsAFreshReader : Prop :=
  ∀ s : State, ∃ t, exec .rxstart s = .next t ∧ t.rxState = .waitingForHeader ∧ t.rxCount = 0 ∧
    t.rxKind = .short ∧ t.rxLen = 0 ∧ t.rxExpect = 0 ∧ t.rxpLen = 0 ∧ t.rxpCur = 0 ∧ t.rxpValid = false ∧
    Answers s t .ok 0 0 ∧
    KeepsAllBut [.rxState, .rxCount, .rxKind, .rxLen, .rxExpect, .rxpLen, .rxpCur, .rxpValid] s t

/-- R163 for every admitted choice of parameters: 2 is stored and selects Short; 3 is stored and selects Long when
`LONG_EN = true`; every other first byte ends the instance and is not stored. -/
def Obligations.TheFirstByteSelectsTheKind : Prop :=
  ∀ p : Params, p.valid = true → ∀ (s : State) (b : Byte), s.rxf.wf = true → s.rxState = .waitingForHeader →
    s.rxCount = 0 →
    (b = 0x02 →
      ∃ t, execWith p (.rxbyte b) s = .next t ∧ t.rxCount = 1 ∧ t.rxKind = .short ∧
        (∀ a, t.rxf.read a = if a = 0 then b else s.rxf.read a) ∧ Silent s t ∧
        KeepsAllBut [.rxf, .rxCount, .rxKind] s t) ∧
    (b = 0x03 → p.longEn = true →
      ∃ t, execWith p (.rxbyte b) s = .next t ∧ t.rxCount = 1 ∧ t.rxKind = .long ∧
        (∀ a, t.rxf.read a = if a = 0 then b else s.rxf.read a) ∧ Silent s t ∧
        KeepsAllBut [.rxf, .rxCount, .rxKind] s t) ∧
    (b ≠ 0x02 → ¬(b = 0x03 ∧ p.longEn = true) →
      ∃ t, execWith p (.rxbyte b) s = .next t ∧ t.rxState = .malformedHeader ∧ Silent s t ∧
        KeepsAllBut [.rxState] s t)

/-- R164 for every admitted choice of parameters: the bound on the declared length is tested before the byte is
stored. -/
def Obligations.TheShortLengthByteSetsTheExpectedTotal : Prop :=
  ∀ p : Params, p.valid = true → ∀ (s : State) (b : Byte), s.rxf.wf = true → s.rxState = .waitingForHeader →
    s.rxCount = 1 → s.rxKind = .short →
    (b.toNat + 5 ≤ p.frameCap →
      ∃ t, execWith p (.rxbyte b) s = .next t ∧ t.rxState = .accumulatingPayload ∧ t.rxCount = 2 ∧
        t.rxLen.toNat = b.toNat ∧ t.rxExpect.toNat = b.toNat + 5 ∧
        (∀ a, t.rxf.read a = if a = 1 then b else s.rxf.read a) ∧ Silent s t ∧
        KeepsAllBut [.rxf, .rxState, .rxCount, .rxLen, .rxExpect] s t) ∧
    (p.frameCap < b.toNat + 5 →
      ∃ t, execWith p (.rxbyte b) s = .next t ∧ t.rxState = .malformedHeader ∧ Silent s t ∧
        KeepsAllBut [.rxState] s t)

/-- R165 for every admitted choice of parameters with `LONG_EN = true`: the first length byte is stored, the second
sets the declared length, high byte first, and the expected total, or is rejected by the bound before it is
stored. -/
def Obligations.LongHeadersAreReadWhenEnabled : Prop :=
  ∀ p : Params, p.valid = true → p.longEn = true → ∀ (s : State) (b : Byte), s.rxf.wf = true →
    s.rxState = .waitingForHeader →
    (s.rxCount = 1 → s.rxKind = .long →
      ∃ t, execWith p (.rxbyte b) s = .next t ∧ t.rxCount = 2 ∧
        (∀ a, t.rxf.read a = if a = 1 then b else s.rxf.read a) ∧ Silent s t ∧ KeepsAllBut [.rxf, .rxCount] s t) ∧
    (s.rxCount = 2 → s.rxKind = .long → (s.rxf.read 1).toNat * 256 + b.toNat + 6 ≤ p.frameCap →
      ∃ t, execWith p (.rxbyte b) s = .next t ∧ t.rxState = .accumulatingPayload ∧ t.rxCount = 3 ∧
        t.rxLen.toNat = (s.rxf.read 1).toNat * 256 + b.toNat ∧
        t.rxExpect.toNat = (s.rxf.read 1).toNat * 256 + b.toNat + 6 ∧
        (∀ a, t.rxf.read a = if a = 2 then b else s.rxf.read a) ∧ Silent s t ∧
        KeepsAllBut [.rxf, .rxState, .rxCount, .rxLen, .rxExpect] s t) ∧
    (s.rxCount = 2 → s.rxKind = .long → p.frameCap < (s.rxf.read 1).toNat * 256 + b.toNat + 6 →
      ∃ t, execWith p (.rxbyte b) s = .next t ∧ t.rxState = .malformedHeader ∧ Silent s t ∧
        KeepsAllBut [.rxState] s t)

/-- R167, R168: a byte short of the expected total is stored at `RX_COUNT`; the byte at the end-of-frame offset
ends the reception when it is 3, and only then. The premise on the expected total is invariant (e) of R41. -/
def Obligations.BytesAccumulateUntilTheTerminator : Prop :=
  ∀ (s : State) (b : Byte), s.rxf.wf = true → s.rxState = .accumulatingPayload →
    s.rxCount.toNat < s.rxExpect.toNat → s.rxExpect.toNat ≤ hardware.frameCap →
    ∃ t, exec (.rxbyte b) s = .next t ∧ t.rxCount.toNat = s.rxCount.toNat + 1 ∧
      (∀ a, t.rxf.read a = if a = s.rxCount.toNat then b else s.rxf.read a) ∧
      t.rxState =
        (if s.rxCount.toNat + 1 = s.rxExpect.toNat ∧ b = 0x03 then .terminated else .accumulatingPayload) ∧
      Silent s t ∧ KeepsAllBut [.rxf, .rxState, .rxCount] s t

/-- R169: once the byte at the end-of-frame offset was not 3, later bytes are dropped. R162: where the reader is
not active a byte changes nothing (the model's choice between the two R162 offers, log 5). -/
def Obligations.DroppedAndUnacceptedBytesChangeNothing : Prop :=
  ∀ (s : State) (b : Byte),
    (s.rxState = .accumulatingPayload ∧ s.rxCount = s.rxExpect ∨ rxReady s = false) →
    exec (.rxbyte b) s = .next s

/-- R170. -/
def Obligations.RxexpireTimesOutAnActiveReader : Prop :=
  ∀ s : State,
    (s.rxState = .waitingForHeader ∨ s.rxState = .accumulatingPayload →
      ∃ t, exec .rxexpire s = .next t ∧ t.rxState = .timedOut ∧ Silent s t ∧ KeepsAllBut [.rxState] s t) ∧
    (s.rxState ≠ .waitingForHeader ∧ s.rxState ≠ .accumulatingPayload → exec .rxexpire s = .next s)

/-- R171, with R176's "Host operations other than `RXSTART` never change `RX_STATE`": a terminal state is left by
`RXSTART` and `RESET` only, and until then the frame held and its registers stay; outside a terminal state no host
command but `RXSTART` changes `RX_STATE`. -/
def Obligations.TerminalStatesAreLeftOnlyByRxstartAndReset : Prop :=
  ∀ (p : Params) (i : Instr) (s t : State), execWith p i s = .next t →
    ((s.rxState = .terminated ∨ s.rxState = .timedOut ∨ s.rxState = .malformedHeader) → i ≠ .rxstart → i ≠ .reset →
      KeepsAllBut [.txp, .txpCur, .rxp, .rxpLen, .rxpValid, .rxpCur] s t) ∧
    (i.isCommand = true → i ≠ .rxstart → t.rxState = s.rxState)

/-- R177: an `RXEXPIRE` while the reader is active ends in `TimedOut`; from then on, through any inputs but
`RXSTART` and `RESET`, `DEC` answers `Timeout`, no payload is valid and every read fails. The host's whole exchange
(R198) in which the deadline comes while the reader is active fails with `Timeout`, however it polls. -/
def Obligations.AfterATimeoutNothingIsReturned : Prop :=
  (∀ p : Params, p.valid = true → ∀ (s : State) (inputs : List Instr), Inv p s → s.rxState.active = true →
    (∀ i ∈ inputs, i ≠ .rxstart ∧ i ≠ .reset) →
    ∃ t, runWith p (.rxexpire :: inputs) s = .next t ∧ t.rxState = .timedOut ∧ t.rxpValid = false ∧
      t.rxpLen = 0 ∧ Fails (execWith p .dec t) .timeout t ∧ Fails (execWith p .rdi16 t) .boundsError t ∧
      Fails (execWith p .rdi32 t) .boundsError t ∧
      ∀ scale, scale ≠ 0 → Fails (execWith p (.rdf16 scale) t) .boundsError t ∧
        Fails (execWith p (.rdf32 scale) t) .boundsError t) ∧
  (∀ p : Params, p.valid = true → ∀ (s u : State) (how : Polling) (bytes : List Byte) (more : List Arrival)
    (cached : Option TelemetrySnapshot), Inv p s → runWith p (.rxstart :: bytes.map .rxbyte) s = .next u →
    u.rxState.active = true →
    ∃ t outcome, requestTelemetry p how (bytes.map .byte ++ .expire :: more) s = some (t, some outcome) ∧
      outcome = .error .timeout ∧ updateSnapshot cached outcome = cached ∧ t.rxState = .timedOut)

/-- R175: how received bytes are grouped has no effect. Bytes offered in chunks, however cut and whatever frames
the decoder finds in them, lead to what the same bytes do one `RXBYTE` at a time. -/
def Obligations.GroupingOfBytesHasNoEffect : Prop :=
  ∀ (p : Params) (s : State) (chunks : List (List Byte)) (rest : List Input),
    ∃ n, stepsWith p n { s with pending := chunks.map .serial ++ rest } =
      runWith p (chunks.flatten.map .rxbyte) { s with pending := rest }

/-- A Short frame is its bytes arriving one after another, in every state; arriving at a freshly started reader it
is stored whole, all `L + 5` bytes in order, the registers are set, nothing is answered, and it ends the reception
exactly when its last byte is 3 (R88, R168; the frame as one input is the model's reading, log 9). -/
def Obligations.AShortFrameIsReceivedWhole : Prop :=
  (∀ (s : State) (payload : List Byte) (crcHi crcLo last : Byte),
    exec (.frameShort payload crcHi crcLo last) s =
      runWith hardware
        (([0x02, BitVec.ofNat 8 payload.length] ++ payload ++ [crcHi, crcLo, last]).map .rxbyte) s) ∧
  (∀ (s : State) (payload : List Byte) (crcHi crcLo last : Byte), s.rxf.wf = true →
    s.rxState = .waitingForHeader → s.rxCount = 0 → payload.length ≤ 255 →
    ∃ t, exec (.frameShort payload crcHi crcLo last) s = .next t ∧
      t.rxState = (if last = 0x03 then .terminated else .accumulatingPayload) ∧
      t.rxCount.toNat = payload.length + 5 ∧ t.rxExpect = t.rxCount ∧ t.rxLen.toNat = payload.length ∧
      t.rxKind = .short ∧
      (∀ a, t.rxf.read a =
        if a < payload.length + 5 then
          ([0x02, BitVec.ofNat 8 payload.length] ++ payload ++ [crcHi, crcLo, last]).getD a 0
        else s.rxf.read a) ∧
      Silent s t ∧ KeepsAllBut [.rxf, .rxState, .rxCount, .rxKind, .rxLen, .rxExpect] s t)

/-- A Long frame is its bytes arriving one after another, in every state. Arriving at a freshly started reader: on
this hardware (`LONG_EN = false`) its marker ends the reception and nothing is stored; with `LONG_EN = true` and
room for it, it is stored whole and ends the reception exactly when its last byte is 3 (R72, R85, R163; the frame
as one input is the model's reading, log 9). -/
def Obligations.ALongFrameIsRejectedOrReceivedWhole : Prop :=
  (∀ (p : Params) (s : State) (payload : List Byte) (crcHi crcLo last : Byte),
    execWith p (.frameLong payload crcHi crcLo last) s =
      runWith p
        (([0x03, BitVec.ofNat 8 (payload.length / 256), BitVec.ofNat 8 payload.length] ++ payload ++
          [crcHi, crcLo, last]).map .rxbyte) s) ∧
  (∀ (s : State) (payload : List Byte) (crcHi crcLo last : Byte), s.rxState = .waitingForHeader → s.rxCount = 0 →
    ∃ t, exec (.frameLong payload crcHi crcLo last) s = .next t ∧ t.rxState = .malformedHeader ∧ Silent s t ∧
      KeepsAllBut [.rxState] s t) ∧
  (∀ p : Params, p.valid = true → p.longEn = true → ∀ (s : State) (payload : List Byte) (crcHi crcLo last : Byte),
    s.rxf.wf = true → s.rxState = .waitingForHeader → s.rxCount = 0 → payload.length + 6 ≤ p.frameCap →
    ∃ t, execWith p (.frameLong payload crcHi crcLo last) s = .next t ∧
      t.rxState = (if last = 0x03 then .terminated else .accumulatingPayload) ∧
      t.rxCount.toNat = payload.length + 6 ∧ t.rxExpect = t.rxCount ∧ t.rxLen.toNat = payload.length ∧
      t.rxKind = .long ∧
      (∀ a, t.rxf.read a =
        if a < payload.length + 6 then
          ([0x03, BitVec.ofNat 8 (payload.length / 256), BitVec.ofNat 8 payload.length] ++ payload ++
            [crcHi, crcLo, last]).getD a 0
        else s.rxf.read a) ∧
      Silent s t ∧ KeepsAllBut [.rxf, .rxState, .rxCount, .rxKind, .rxLen, .rxExpect] s t)

/-! ## Control operations, RESET, errors -/

/-- R180: the seven registers, `STATUS` by R34; 7 to 15 fail. -/
def Obligations.RdregAnswersTheNamedRegister : Prop :=
  ∀ s : State,
    (∃ t v, exec (.rdreg 0) s = .next t ∧ Answers s t .ok v 0 ∧ KeepsAllBut [] s t ∧
      v.toNat = s.rxState.code.toNat + 8 * (if s.rxpValid then 1 else 0) + 16 * s.rxKind.code.toNat) ∧
    (∃ t, exec (.rdreg 1) s = .next t ∧ Answers s t .ok (BitVec.ofNat 32 s.txpCur.toNat) 0 ∧ KeepsAllBut [] s t) ∧
    (∃ t, exec (.rdreg 2) s = .next t ∧ Answers s t .ok (BitVec.ofNat 32 s.rxCount.toNat) 0 ∧ KeepsAllBut [] s t) ∧
    (∃ t, exec (.rdreg 3) s = .next t ∧ Answers s t .ok (BitVec.ofNat 32 s.rxExpect.toNat) 0 ∧ KeepsAllBut [] s t) ∧
    (∃ t, exec (.rdreg 4) s = .next t ∧ Answers s t .ok (BitVec.ofNat 32 s.rxLen.toNat) 0 ∧ KeepsAllBut [] s t) ∧
    (∃ t, exec (.rdreg 5) s = .next t ∧ Answers s t .ok (BitVec.ofNat 32 s.rxpLen.toNat) 0 ∧ KeepsAllBut [] s t) ∧
    (∃ t, exec (.rdreg 6) s = .next t ∧ Answers s t .ok (BitVec.ofNat 32 s.rxpCur.toNat) 0 ∧ KeepsAllBut [] s t) ∧
    (∀ r : BitVec 4, 7 ≤ r.toNat → Fails (exec (.rdreg r) s) .illegalOp s)

/-- R181: the reserved codes, with any operand, and `RDREG` of 7 to 15 answer `IllegalOp` and change nothing; no
other command word is answered so. -/
def Obligations.ReservedCodesAnswerIllegalOp : Prop :=
  ∀ s : State,
    Fails (exec .reserved0 s) .illegalOp s ∧ Fails (exec .reservedF s) .illegalOp s ∧
    (∀ a : BitVec 32, decodeCommand (0x0#4 ++ a) = .reserved0 ∧ decodeCommand (0xF#4 ++ a) = .reservedF) ∧
    (∀ a : BitVec 32, 7 ≤ (BitVec.ofNat 4 a.toNat).toNat →
      Fails (exec (decodeCommand (0xD#4 ++ a)) s) .illegalOp s) ∧
    (∀ (op : BitVec 4) (a : BitVec 32) (t : State) (r : Response), op ≠ 0x0 → op ≠ 0xF →
      ¬(op = 0xD ∧ 7 ≤ (BitVec.ofNat 4 a.toNat).toNat) → exec (decodeCommand (op ++ a)) s = .next t →
      t.outputs.getLast? = some (.response r) → r.status ≠ .illegalOp)

/-- R184: the nine registers take the values of R42; nothing is answered or emitted and the inputs still pending are
kept. What the buffer bytes become is not said here (R184 leaves it unspecified, log 4). -/
def Obligations.ResetPutsTheRegistersToZero : Prop :=
  ∀ s : State, ∃ t, exec .reset s = .next t ∧ t.txpCur = 0 ∧ t.rxState = .idle ∧ t.rxCount = 0 ∧
    t.rxKind = .short ∧ t.rxLen = 0 ∧ t.rxExpect = 0 ∧ t.rxpLen = 0 ∧ t.rxpValid = false ∧ t.rxpCur = 0 ∧
    statusWord t = 0 ∧ Silent s t ∧ t.pending = s.pending

/-- R225: a command whose answer is not `OK` answers `(E, 0, 0)`, puts out nothing else and writes no state at
all, for every parameter choice and every state. -/
def Obligations.AFailedCommandWritesNothing : Prop :=
  ∀ (p : Params) (i : Instr) (s t : State) (r : Response), i.isCommand = true → execWith p i s = .next t →
    t.outputs.getLast? = some (.response r) → r.status ≠ .ok →
    Answers s t r.status 0 0 ∧ t.toBlock = s.toBlock ∧ t.pending = s.pending

/-- R221: a command answers with a status the rule lists for it, and every status but 4, 5 and those beyond the
list is so excluded. -/
def Obligations.EveryAnswerIsOneTheOperationMayGive : Prop :=
  ∀ (p : Params) (i : Instr) (s t : State), i.isCommand = true → execWith p i s = .next t →
    ∃ r, t.outputs.getLast? = some (.response r) ∧ r.status ∈ mayAnswer p i

/-- R183: which input writes which state, which emits and which responds, for every parameter choice and every
state: a command puts out one response, `ENC` at most one frame before it, an event nothing. -/
def Obligations.EachInputWritesOnlyWhatItMay : Prop :=
  ∀ (p : Params) (i : Instr) (s t : State), execWith p i s = .next t →
    KeepsAllBut (mayWrite i) s t ∧
    (i.isCommand = true → ∃ r, t.outputs = s.outputs ++ [.response r] ∨
      i = .enc ∧ ∃ frame, t.outputs = s.outputs ++ [.frame frame, .response r]) ∧
    (i.isCommand = false → Silent s t)

/-- R241: what the block answers straight after `RESET`, in any state a `RESET` leaves. -/
def Obligations.WhatTheResetStateAnswers : Prop :=
  ∀ s t : State, exec .reset s = .next t →
    (∀ r : BitVec 4, r.toNat ≤ 6 → ∃ u, exec (.rdreg r) t = .next u ∧ Answers t u .ok 0 0) ∧
    Fails (exec .dec t) .notReady t ∧
    Fails (exec .rdi16 t) .boundsError t ∧ Fails (exec .rdi32 t) .boundsError t ∧
    (∀ scale, scale ≠ 0 → Fails (exec (.rdf16 scale) t) .boundsError t ∧
      Fails (exec (.rdf32 scale) t) .boundsError t) ∧
    (∀ n, n ≠ 0 → Fails (exec (.skip n) t) .boundsError t ∧ Fails (exec (.curwr n) t) .boundsError t) ∧
    (∃ u, exec (.curwr 0) t = .next u ∧ Answers t u .ok 0 0) ∧
    (∃ u, exec (.skip 0) t = .next u ∧ Answers t u .ok 0 0) ∧
    (∃ u, exec .enc t = .next u ∧
      u.outputs = t.outputs ++
        [.frame [0x02, 0x00, BitVec.ofNat 8 ((hardware.crc16 []).toNat / 256), BitVec.ofNat 8 (hardware.crc16 []).toNat,
            0x03], .response ⟨.ok, 5, 0⟩]) ∧
    (∃ u, exec .crctx t = .next u ∧ Answers t u .ok (BitVec.ofNat 32 (hardware.crc16 []).toNat) 0) ∧
    (∀ b, exec (.rxbyte b) t = .next t) ∧ exec .rxexpire t = .next t

/-! ## The host's use of the block -/

/-- R200 to R204: each pseudo-operation clears the transmit cursor, stages the identifier and, but for
`GETVALUES`, the four big-endian bytes of its parameter, and emits the Short frame of that payload; the receive side is
untouched. -/
def Obligations.PseudoOperationsEmitTheirFrame : Prop :=
  ∀ p : Params, p.valid = true → 5 ≤ p.txpCap → ∀ (s : State) (c : HostCommand) (payload : List Byte), Inv p s →
    payload = (c.id p.ids ::
      match c.param with
      | none => []
      | some v => [v.extractLsb' 24 8, v.extractLsb' 16 8, v.extractLsb' 8 8, v.extractLsb' 0 8]) →
    ∃ t before, runWith p (c.expand p.ids) s = .next t ∧
      t.outputs = s.outputs ++ before ++
        [.frame ([0x02, BitVec.ofNat 8 payload.length] ++ payload ++
            [BitVec.ofNat 8 ((p.crc16 payload).toNat / 256), BitVec.ofNat 8 (p.crc16 payload).toNat, 0x03]),
          .response ⟨.ok, BitVec.ofNat 32 (payload.length + 5), 0⟩] ∧
      (∀ o ∈ before, ∃ n, o = .response ⟨.ok, n, 0⟩) ∧
      t.txpCur.toNat = payload.length ∧ t.txp.readBytes 0 payload.length = payload ∧
      KeepsAllBut [.txp, .txpCur] s t

/-- The telemetry walk never runs past the payload: from any payload of 53 bytes or more, the thirteen reads and
skips after `CURWR 1` are all answered `OK` and leave the cursor at 53. The layout walked is from general knowledge
(R195, G4, log 14). -/
def Obligations.TheTelemetryWalkFitsItsPayload : Prop :=
  ∀ p : Params, p.valid = true → ∀ s : State, Inv p s → 53 ≤ s.rxpLen.toNat →
    ∃ t rs, askAll p (.curwr 1 :: telemetryWalk) s = some (t, .ok rs) ∧ rs.length = 14 ∧ t.rxpCur.toNat = 53 ∧
      KeepsAllBut [.rxpCur] s t

/-- The length gate (R199): a valid frame whose payload has 55 bytes or fewer makes the host's read fail with
`ShortResponse`, and the cached snapshot stays as it was, although `DEC` answers `OK`. So does the host's whole
exchange (R198) in which such a frame arrives, however it polls and whatever arrives after the frame. -/
def Obligations.AShortReplyFailsAndKeepsTheSnapshot : Prop :=
  (∀ p : Params, p.valid = true → ∀ (s : State) (payload : List Byte) (cached : Option TelemetrySnapshot), Inv p s →
    s.rxState = .terminated → decodeFrame p (s.rxf.readBytes 0 s.rxCount.toNat) = .ok payload →
    payload.length ≤ 55 →
    ∃ t outcome, readTelemetry p s = some (t, outcome) ∧ outcome = .error .shortResponse ∧
      updateSnapshot cached outcome = cached ∧ t.rxpValid = true ∧ t.rxpLen.toNat = payload.length) ∧
  (∀ p : Params, p.valid = true → ∀ (s : State) (how : Polling) (payload frame : List Byte) (more : List Arrival)
    (cached : Option TelemetrySnapshot), Inv p s → encodeFrame p payload = .ok frame → frame.length ≤ p.frameCap →
    payload.length ≤ 55 →
    ∃ t outcome, requestTelemetry p how (frame.map .byte ++ more) s = some (t, some outcome) ∧
      outcome = .error .shortResponse ∧ updateSnapshot cached outcome = cached ∧ t.rxpValid = true ∧
      t.rxpLen.toNat = payload.length)

/-- A reply longer than the gate whose identifier is get-telemetry's gives a snapshot, and the walk ends at 53; with
another identifier the host's read fails with `UnknownPacket` right after the 16-bit read at 0, with the receive
cursor at 2, and the cached snapshot stays as it was (R196, R198). So does the host's whole exchange in which such a
frame arrives, however it polls and whatever arrives after the frame. The layout walked is from general knowledge
(R195, G4, log 14). -/
def Obligations.ALongReplyGivesASnapshotOrUnknownPacket : Prop :=
  (∀ p : Params, p.valid = true → ∀ (s : State) (ident : Byte) (body : List Byte)
    (cached : Option TelemetrySnapshot), Inv p s → s.rxState = .terminated →
    decodeFrame p (s.rxf.readBytes 0 s.rxCount.toNat) = .ok (ident :: body) → 55 < body.length + 1 →
    (ident = p.ids.getValues → ∃ t snap, readTelemetry p s = some (t, .ok snap) ∧
      updateSnapshot cached (.ok snap) = some snap ∧ t.rxpCur.toNat = 53) ∧
    (ident ≠ p.ids.getValues → ∃ t outcome, readTelemetry p s = some (t, outcome) ∧
      outcome = .error .unknownPacket ∧ updateSnapshot cached outcome = cached ∧ t.rxpCur.toNat = 2)) ∧
  (∀ p : Params, p.valid = true → ∀ (s : State) (how : Polling) (ident : Byte) (body frame : List Byte)
    (more : List Arrival) (cached : Option TelemetrySnapshot), Inv p s →
    encodeFrame p (ident :: body) = .ok frame → frame.length ≤ p.frameCap → 55 < body.length + 1 →
    (ident = p.ids.getValues →
      ∃ t snap, requestTelemetry p how (frame.map .byte ++ more) s = some (t, some (.ok snap)) ∧
        updateSnapshot cached (.ok snap) = some snap ∧ t.rxpCur.toNat = 53) ∧
    (ident ≠ p.ids.getValues →
      ∃ t outcome, requestTelemetry p how (frame.map .byte ++ more) s = some (t, some outcome) ∧
        outcome = .error .unknownPacket ∧ updateSnapshot cached outcome = cached ∧ t.rxpCur.toNat = 2))

/-- The integer sent for a real value, divided by its scale, is less than one step from the value and never further
from zero. Truncation toward zero is from general knowledge (R193, G5, log 15). -/
def Obligations.QuantisedValuesComeBackWithinOneStep : Prop :=
  ∀ (x : Rat) (scale : Nat), 0 < scale →
    |x - (quantise x scale : Rat) / (scale : Rat)| < 1 / (scale : Rat) ∧
      |(quantise x scale : Rat) / (scale : Rat)| ≤ |x|
end

