-- ==== Sys2Proof/Laws/Decode.lean ====
section
/-! SUPPORT. The fields of a command word, and what the frame layout's decoder finds. -/

namespace Sys2Proof

theorem toNat_append_word (op : BitVec 4) (a : BitVec 32) :
    BitVec.toNat (w := 36) (op ++ a) = op.toNat * 2 ^ 32 + a.toNat := by
  have h : (op ++ a : BitVec (4 + 32)).toNat = op.toNat * 2 ^ 32 + a.toNat := by
    rw [BitVec.toNat_append, ← Nat.shiftLeft_add_eq_or_of_lt a.isLt, Nat.shiftLeft_eq]
  exact h

@[simp] theorem opField_append (op : BitVec 4) (a : BitVec 32) : opField (op ++ a) = op := by
  apply BitVec.eq_of_toNat_eq
  have := op.isLt
  have := a.isLt
  rw [opField, BitVec.extractLsb'_toNat, toNat_append_word, Nat.shiftRight_eq_div_pow]
  omega

@[simp] theorem operandField_append (op : BitVec 4) (a : BitVec 32) : operandField (op ++ a) = a := by
  apply BitVec.eq_of_toNat_eq
  have := a.isLt
  rw [operandField, BitVec.extractLsb'_toNat, toNat_append_word, Nat.shiftRight_eq_div_pow]
  omega

/-- A command word is its two fields. -/
theorem append_fields (w : BitVec 36) : (opField w ++ operandField w : BitVec 36) = w := by
  apply BitVec.eq_of_toNat_eq
  have := w.isLt
  rw [toNat_append_word, opField, operandField, BitVec.extractLsb'_toNat, BitVec.extractLsb'_toNat,
    Nat.shiftRight_eq_div_pow]
  omega

@[simp] theorem opField_commandWord (op : BitVec 4) (a : BitVec 32) : opField (commandWord op a) = op :=
  opField_append op a

@[simp] theorem operandField_commandWord (op : BitVec 4) (a : BitVec 32) : operandField (commandWord op a) = a :=
  operandField_append op a

/-! ## Frame layout -/

@[simp] theorem length_frameBytes (k : FrameKind) (payload : List Byte) (crcHi crcLo last : Byte) :
    (frameBytes k payload crcHi crcLo last).length = k.total payload.length := by
  cases k <;> simp [frameBytes, FrameKind.lengthBytes, FrameKind.total, FrameKind.hdr] <;> omega

theorem longLength_bytes (n : Nat) (h : n ≤ 65535) :
    longLength (BitVec.ofNat 8 (n / 256)) (BitVec.ofNat 8 n) = n := by
  simp only [longLength, BitVec.toNat_ofNat]
  omega

theorem longLength_le (lenHi lenLo : Byte) : longLength lenHi lenLo ≤ 65535 := by
  have := lenHi.isLt
  have := lenLo.isLt
  simp only [longLength]
  omega

theorem splitBody_append (mk : List Byte → Byte → Byte → Byte → Instr) (payload rest : List Byte)
    (crcHi crcLo last : Byte) :
    splitBody mk payload.length (payload ++ crcHi :: crcLo :: last :: rest) =
      some (mk payload crcHi crcLo last, rest) := by
  simp [splitBody]

/-- A frame at the front of the offered bytes is found whole. -/
theorem splitFrame_short (payload rest : List Byte) (crcHi crcLo last : Byte) (h : payload.length ≤ 255) :
    splitFrame (frameBytes .short payload crcHi crcLo last ++ rest) =
      some (.frameShort payload crcHi crcLo last, rest) := by
  have hl : (BitVec.ofNat 8 payload.length).toNat = payload.length := by simp; omega
  simp only [frameBytes, FrameKind.lengthBytes, List.cons_append, List.nil_append, splitFrame, if_true,
    List.append_assoc, hl]
  exact splitBody_append ..

theorem splitFrame_long (payload rest : List Byte) (crcHi crcLo last : Byte) (h : payload.length ≤ 65535) :
    splitFrame (frameBytes .long payload crcHi crcLo last ++ rest) =
      some (.frameLong payload crcHi crcLo last, rest) := by
  have hne : FrameKind.long.marker ≠ FrameKind.short.marker := by decide
  simp only [frameBytes, FrameKind.lengthBytes, List.cons_append, List.nil_append, splitFrame, if_neg hne, if_true,
    List.append_assoc, longLength_bytes _ h]
  exact splitBody_append ..

theorem splitBody_sound {mk : List Byte → Byte → Byte → Byte → Instr} {n : Nat} {body rest : List Byte} {i : Instr}
    (h : splitBody mk n body = some (i, rest)) :
    ∃ payload crcHi crcLo last, payload.length = n ∧ i = mk payload crcHi crcLo last ∧
      body = payload ++ crcHi :: crcLo :: last :: rest := by
  unfold splitBody at h
  split at h
  · next crcHi crcLo last rest' hd =>
    injection h with h
    injection h with hi hr
    subst hr
    have hlen : (body.drop n).length = 3 + rest'.length := by rw [hd]; simp; omega
    rw [List.length_drop] at hlen
    refine ⟨body.take n, crcHi, crcLo, last, ?_, hi.symm, ?_⟩
    · rw [List.length_take]
      omega
    · rw [← hd, List.take_append_drop]
  · cases h

/-- What the frame layout's decoder finds is the layout of what was offered, and nothing is lost. -/
theorem splitFrame_sound {bytes rest : List Byte} {i : Instr} (h : splitFrame bytes = some (i, rest)) :
    ∃ payload crcHi crcLo last,
      (i = .frameShort payload crcHi crcLo last ∧ payload.length ≤ 255 ∧
        bytes = frameBytes .short payload crcHi crcLo last ++ rest) ∨
      (i = .frameLong payload crcHi crcLo last ∧ payload.length ≤ 65535 ∧
        bytes = frameBytes .long payload crcHi crcLo last ++ rest) := by
  unfold splitFrame at h
  split at h
  · cases h
  · next b tail =>
    split at h
    · next hb =>
      split at h
      · next len body =>
        obtain ⟨payload, crcHi, crcLo, last, hl, rfl, rfl⟩ := splitBody_sound h
        refine ⟨payload, crcHi, crcLo, last, .inl ⟨rfl, ?_, ?_⟩⟩
        · rw [hl]
          exact Nat.le_of_lt_succ len.isLt
        · simp [frameBytes, FrameKind.lengthBytes, hl, hb]
      · cases h
    · split at h
      · next hb =>
        split at h
        · next lenHi lenLo body =>
          obtain ⟨payload, crcHi, crcLo, last, hl, rfl, rfl⟩ := splitBody_sound h
          refine ⟨payload, crcHi, crcLo, last, .inr ⟨rfl, ?_, ?_⟩⟩
          · rw [hl]
            exact longLength_le lenHi lenLo
          · have hhi : BitVec.ofNat 8 (longLength lenHi lenLo / 256) = lenHi := by
              apply BitVec.eq_of_toNat_eq
              have := lenHi.isLt
              have := lenLo.isLt
              simp only [longLength, BitVec.toNat_ofNat]
              omega
            have hlo : BitVec.ofNat 8 (longLength lenHi lenLo) = lenLo := by
              apply BitVec.eq_of_toNat_eq
              have := lenLo.isLt
              simp only [longLength, BitVec.toNat_ofNat]
              omega
            simp [frameBytes, FrameKind.lengthBytes, hl, hb, hhi, hlo]
        · cases h
      · cases h

end Sys2Proof
end

