-- ==== Sys2Proof/Laws/Memory.lean ====
section
/-! SUPPORT. One buffer: reading after writing, runs of bytes, and that every operation keeps the canonical form
and the buffer's size. -/

namespace Sys2Proof.Machine

/-! ## The canonical form -/

theorem Memory.wfFrom_cons {lo a : Nat} {v : Byte} {m : Memory} :
    Memory.wfFrom lo ((a, v) :: m) = true ↔ lo ≤ a ∧ v ≠ Memory.unlisted ∧ Memory.wfFrom (a + 1) m = true := by
  simp [Memory.wfFrom, and_assoc]

theorem Memory.wfFrom_mono {lo lo' : Nat} {m : Memory} (h : m.wfFrom lo = true) (hle : lo' ≤ lo) :
    m.wfFrom lo' = true := by
  cases m with
  | nil => rfl
  | cons c m =>
    obtain ⟨a, v⟩ := c
    rw [wfFrom_cons] at h ⊢
    exact ⟨by omega, h.2⟩

/-- Below its first entry a canonical buffer reads as unlisted. -/
theorem Memory.read_below {lo a : Nat} {m : Memory} (h : m.wfFrom lo = true) (ha : a < lo) :
    m.read a = Memory.unlisted := by
  induction m generalizing lo with
  | nil => rfl
  | cons c m ih =>
    obtain ⟨k, v⟩ := c
    rw [wfFrom_cons] at h
    rw [read, if_neg (by omega)]
    exact ih h.2.2 (by omega)

theorem Memory.write_wfFrom {lo a : Nat} {b : Byte} {m : Memory} (h : m.wfFrom lo = true) (ha : lo ≤ a) :
    (m.write a b).wfFrom lo = true := by
  induction m generalizing lo with
  | nil =>
    by_cases hb : b = Memory.unlisted
    · simp [write, hb, wfFrom]
    · rw [write, if_neg hb, wfFrom_cons]
      exact ⟨ha, hb, rfl⟩
  | cons c m ih =>
    obtain ⟨k, v⟩ := c
    have h' := wfFrom_cons.1 h
    rcases Nat.lt_trichotomy a k with hlt | rfl | hgt
    · by_cases hb : b = Memory.unlisted
      · simpa [write, hlt, hb] using h
      · rw [write, if_pos hlt, if_neg hb, wfFrom_cons, wfFrom_cons]
        exact ⟨ha, hb, by omega, h'.2⟩
    · by_cases hb : b = Memory.unlisted
      · simpa [write, hb] using wfFrom_mono h'.2.2 (by omega)
      · rw [write, if_neg (by omega), if_pos rfl, if_neg hb, wfFrom_cons]
        exact ⟨ha, hb, h'.2.2⟩
    · rw [write, if_neg (by omega), if_neg (by omega), wfFrom_cons]
      exact ⟨h'.1, h'.2.1, ih h'.2.2 (by omega)⟩

theorem Memory.write_wf {m : Memory} (h : m.wf = true) (a : Nat) (b : Byte) : (m.write a b).wf = true :=
  write_wfFrom h (Nat.zero_le a)

theorem Memory.writeBytes_wf {m : Memory} (h : m.wf = true) (i : Nat) (bytes : List Byte) :
    (m.writeBytes i bytes).wf = true := by
  induction bytes generalizing m i with
  | nil => exact h
  | cons b rest ih => exact ih (write_wf h i b) (i + 1)

/-! ## Reading after writing -/

theorem Memory.read_write_from {lo a : Nat} {b : Byte} {m : Memory} (h : m.wfFrom lo = true) (x : Nat) :
    (m.write a b).read x = if x = a then b else m.read x := by
  induction m generalizing lo with
  | nil =>
    by_cases hb : b = Memory.unlisted <;> simp [write, read, hb]
  | cons c m ih =>
    obtain ⟨k, v⟩ := c
    have h' := wfFrom_cons.1 h
    rcases Nat.lt_trichotomy a k with hlt | rfl | hgt
    · by_cases hb : b = Memory.unlisted
      · rw [write, if_pos hlt, if_pos hb]
        split
        · subst x
          rw [hb]
          exact read_below (lo := k) (wfFrom_cons.2 ⟨le_refl k, h'.2⟩) hlt
        · rfl
      · rw [write, if_pos hlt, if_neg hb, read]
    · by_cases hb : b = Memory.unlisted
      · rw [write, if_neg (by omega), if_pos rfl, if_pos hb, read]
        split
        · subst x
          rw [hb]
          exact read_below h'.2.2 (by omega)
        · rfl
      · rw [write, if_neg (by omega), if_pos rfl, if_neg hb, read, read]
        split <;> rfl
    · rw [write, if_neg (by omega), if_neg (by omega), read, read, ih h'.2.2]
      by_cases hx : x = k
      · simp [hx, show k ≠ a by omega]
      · simp [hx]

/-- A read after a write. -/
theorem Memory.read_write {m : Memory} (h : m.wf = true) (a : Nat) (b : Byte) (x : Nat) :
    (m.write a b).read x = if x = a then b else m.read x := read_write_from h x

/-- Reading after putting a run of bytes. -/
theorem Memory.read_writeBytes {m : Memory} (h : m.wf = true) (i : Nat) (bytes : List Byte) (x : Nat) :
    (m.writeBytes i bytes).read x =
      if i ≤ x ∧ x < i + bytes.length then bytes.getD (x - i) 0 else m.read x := by
  induction bytes generalizing m i with
  | nil => simp [writeBytes]
  | cons b rest ih =>
    rw [writeBytes, ih (write_wf h i b), read_write h]
    by_cases hx : x = i
    · subst x
      simp
    · by_cases hlt : x < i
      · rw [if_neg (by omega), if_neg hx, if_neg (by omega)]
      · simp only [List.length_cons, hx, if_false]
        by_cases hin : x < i + 1 + rest.length
        · rw [if_pos (by omega), if_pos (by omega), show x - i = (x - (i + 1)) + 1 by omega, List.getD_cons_succ]
        · rw [if_neg (by omega), if_neg (by omega)]

/-! ## Runs of bytes -/

@[simp] theorem Memory.length_readBytes (m : Memory) (i n : Nat) : (m.readBytes i n).length = n := by
  induction n generalizing i with
  | zero => rfl
  | succ n ih => simp [readBytes, ih]

theorem Memory.getD_readBytes (m : Memory) (i n k : Nat) (d : Byte) (h : k < n) :
    (m.readBytes i n).getD k d = m.read (i + k) := by
  induction n generalizing i k with
  | zero => omega
  | succ n ih =>
    cases k with
    | zero => simp [readBytes]
    | succ k =>
      rw [readBytes, List.getD_cons_succ, ih (i + 1) k (by omega)]
      congr 1
      omega

theorem Memory.readBytes_append (m : Memory) (i n k : Nat) :
    m.readBytes i (n + k) = m.readBytes i n ++ m.readBytes (i + n) k := by
  induction n generalizing i with
  | zero => simp [readBytes]
  | succ n ih =>
    rw [show n + 1 + k = (n + k) + 1 by omega, readBytes, readBytes, ih (i + 1), List.cons_append,
      show i + 1 + n = i + (n + 1) by omega]

/-- Two buffers that read the same over a range hold the same run of bytes there. -/
theorem Memory.readBytes_congr {m m' : Memory} {i n : Nat}
    (h : ∀ x, i ≤ x → x < i + n → m.read x = m'.read x) : m.readBytes i n = m'.readBytes i n := by
  induction n generalizing i with
  | zero => rfl
  | succ n ih =>
    rw [readBytes, readBytes, h i (le_refl i) (by omega), ih fun x hx hx' => h x (by omega) (by omega)]

theorem Memory.readBytes_writeBytes {m : Memory} (h : m.wf = true) (i : Nat) (bytes : List Byte) :
    (m.writeBytes i bytes).readBytes i bytes.length = bytes := by
  induction bytes generalizing m i with
  | nil => rfl
  | cons b rest ih =>
    have hr : ((m.write i b).writeBytes (i + 1) rest).read i = b := by
      rw [read_writeBytes (write_wf h i b), if_neg (by omega), read_write h, if_pos rfl]
    rw [writeBytes, List.length_cons, readBytes, hr, ih (write_wf h i b)]

/-- Writing outside a range leaves the run of bytes there. -/
theorem Memory.readBytes_write_of_not_mem {m : Memory} (h : m.wf = true) {a i n : Nat} (b : Byte)
    (ha : a < i ∨ i + n ≤ a) : (m.write a b).readBytes i n = m.readBytes i n :=
  readBytes_congr fun x hx hx' => by rw [read_write h, if_neg (by omega)]

/-- A run one longer, when the byte after it has just been written. -/
theorem Memory.readBytes_write_end {m : Memory} (h : m.wf = true) (i n : Nat) (b : Byte) :
    (m.write (i + n) b).readBytes i (n + 1) = m.readBytes i n ++ [b] := by
  rw [readBytes_append, readBytes_write_of_not_mem h b (by omega)]
  simp [readBytes, read_write h]

/-! ## Size -/

theorem Memory.write_bound {cap a : Nat} {b : Byte} {m : Memory} (h : ∀ c ∈ m, c.1 < cap) (ha : a < cap) :
    ∀ c ∈ m.write a b, c.1 < cap := by
  induction m with
  | nil =>
    intro c hc
    rw [write] at hc
    split at hc <;> simp_all
  | cons e m ih =>
    obtain ⟨k, v⟩ := e
    intro c hc
    have hk : k < cap := h (k, v) (by simp)
    have hm : ∀ c ∈ m, c.1 < cap := fun c hc => h c (by simp [hc])
    rw [write] at hc
    split at hc
    · split at hc
      · exact h c hc
      · rcases List.mem_cons.1 hc with rfl | hc
        · exact ha
        · exact h c hc
    · split at hc
      · split at hc
        · exact hm c hc
        · rcases List.mem_cons.1 hc with rfl | hc
          · exact ha
          · exact hm c hc
      · rcases List.mem_cons.1 hc with rfl | hc
        · exact hk
        · exact ih hm c hc

theorem Memory.fits_iff {cap : Nat} {m : Memory} :
    m.fits cap = true ↔ m.wf = true ∧ ∀ c ∈ m, c.1 < cap := by
  simp [fits]

theorem Memory.fits_wf {cap : Nat} {m : Memory} (h : m.fits cap = true) : m.wf = true := (fits_iff.1 h).1

theorem Memory.write_fits {cap : Nat} {m : Memory} (h : m.fits cap = true) {a : Nat} (ha : a < cap) (b : Byte) :
    (m.write a b).fits cap = true := by
  rw [fits_iff] at h ⊢
  exact ⟨write_wf h.1 a b, write_bound h.2 ha⟩

theorem Memory.writeBytes_fits {cap : Nat} {m : Memory} (h : m.fits cap = true) {i : Nat} {bytes : List Byte}
    (hi : i + bytes.length ≤ cap) : (m.writeBytes i bytes).fits cap = true := by
  induction bytes generalizing m i with
  | nil => exact h
  | cons b rest ih =>
    rw [List.length_cons] at hi
    exact ih (write_fits h (by omega) b) (by omega)

/-- Two canonical buffers that read the same are the same data. -/
theorem Memory.ext_from {lo : Nat} {m m' : Memory} (h : m.wfFrom lo = true) (h' : m'.wfFrom lo = true)
    (hr : ∀ x, m.read x = m'.read x) : m = m' := by
  induction m generalizing lo m' with
  | nil =>
    cases m' with
    | nil => rfl
    | cons c m' =>
      obtain ⟨k, v⟩ := c
      have := (wfFrom_cons.1 h').2.1
      have hk := hr k
      simp only [read, if_true] at hk
      exact absurd hk.symm this
  | cons c m ih =>
    obtain ⟨k, v⟩ := c
    have hm := wfFrom_cons.1 h
    cases m' with
    | nil =>
      have hk := hr k
      simp only [read, if_true] at hk
      exact absurd hk hm.2.1
    | cons c' m' =>
      obtain ⟨k', v'⟩ := c'
      have hm' := wfFrom_cons.1 h'
      have hkk : k = k' := by
        rcases Nat.lt_trichotomy k k' with hlt | heq | hgt
        · have hk := hr k
          rw [read, if_pos rfl, read_below (wfFrom_cons.2 ⟨le_refl k', hm'.2⟩) hlt] at hk
          exact absurd hk hm.2.1
        · exact heq
        · have hk := hr k'
          rw [read_below (wfFrom_cons.2 ⟨le_refl k, hm.2⟩) hgt, read, if_pos rfl] at hk
          exact absurd hk.symm hm'.2.1
      subst hkk
      have hvv : v = v' := by
        have hk := hr k
        rwa [read, if_pos rfl, read, if_pos rfl] at hk
      subst hvv
      have : m = m' := by
        apply ih hm.2.2 hm'.2.2
        intro x
        by_cases hx : x = k
        · subst x
          rw [read_below hm.2.2 (by omega), read_below hm'.2.2 (by omega)]
        · have hk := hr x
          rwa [read, if_neg hx, read, if_neg hx] at hk
      rw [this]

/-- Equal memories are equal data. -/
theorem Memory.ext_of_wf {m m' : Memory} (h : m.wf = true) (h' : m'.wf = true)
    (hr : ∀ x, m.read x = m'.read x) : m = m' := ext_from h h' hr

/-! ## Bounded access -/

theorem loadBytes_eq_some {cap : Nat} {m : Memory} {i n : Nat} {bytes : List Byte} :
    loadBytes cap m i n = some bytes ↔ i + n ≤ cap ∧ bytes = m.readBytes i n := by
  unfold loadBytes
  split <;> simp_all [eq_comm]

theorem loadBytes_of_le {cap : Nat} {m : Memory} {i n : Nat} (h : i + n ≤ cap) :
    loadBytes cap m i n = some (m.readBytes i n) := if_pos h

theorem storeBytes_eq_some {cap : Nat} {m m' : Memory} {i : Nat} {bytes : List Byte} :
    storeBytes cap m i bytes = some m' ↔ i + bytes.length ≤ cap ∧ m' = m.writeBytes i bytes := by
  unfold storeBytes
  split <;> simp_all [eq_comm]

theorem storeBytes_of_le {cap : Nat} {m : Memory} {i : Nat} {bytes : List Byte} (h : i + bytes.length ≤ cap) :
    storeBytes cap m i bytes = some (m.writeBytes i bytes) := if_pos h

theorem storeBytes_eq_none {cap : Nat} {m : Memory} {i : Nat} {bytes : List Byte} :
    storeBytes cap m i bytes = none ↔ cap < i + bytes.length := by
  unfold storeBytes
  split <;> simp_all

/-- Every memory operation keeps the canonical form and the size: storing is the only one that changes a buffer. -/
theorem storeBytes_fits {cap : Nat} {m m' : Memory} {i : Nat} {bytes : List Byte} (h : m.fits cap = true)
    (hs : storeBytes cap m i bytes = some m') : m'.fits cap = true := by
  obtain ⟨hi, rfl⟩ := storeBytes_eq_some.1 hs
  exact Memory.writeBytes_fits h hi

/-- The buffers of the reset state are in canonical form. -/
theorem reset_memory_wf :
    Memory.wf State.reset.txp = true ∧ Memory.wf State.reset.rxf = true ∧ Memory.wf State.reset.rxp = true := by
  decide

end Sys2Proof.Machine
end

