-- ==== Sys2Proof/Laws/State.lean ====
section
/-! SUPPORT. One lemma per field per update of the state, so that no proof unfolds a record update. -/

namespace Sys2Proof.Machine

section respond
variable (status : Status) (v0 v1 : Word) (s : State)

@[simp] theorem respond_toBlock : (respond status v0 v1 s).toBlock = s.toBlock := rfl
@[simp] theorem respond_pending : (respond status v0 v1 s).pending = s.pending := rfl
@[simp] theorem respond_outputs :
    (respond status v0 v1 s).outputs = s.outputs ++ [.response ⟨status, v0, v1⟩] := rfl

end respond

section emit
variable (frame : List Byte) (s : State)

@[simp] theorem emit_toBlock : (emit frame s).toBlock = s.toBlock := rfl
@[simp] theorem emit_pending : (emit frame s).pending = s.pending := rfl
@[simp] theorem emit_outputs : (emit frame s).outputs = s.outputs ++ [.frame frame] := rfl

end emit

@[simp] theorem andThen_next (s : State) (k : State → Result) : andThen (.next s) k = k s := rfl
@[simp] theorem andThen_fault (f : Fault) (k : State → Result) : andThen (.fault f) k = .fault f := rfl
@[simp] theorem andThen_refused (f : Refusal) (k : State → Result) : andThen (.refused f) k = .refused f := rfl

theorem andThen_eq_next {r : Result} {k : State → Result} {t : State} :
    andThen r k = .next t ↔ ∃ s, r = .next s ∧ k s = .next t := by
  cases r <;> simp

theorem andThen_assoc (r : Result) (k k' : State → Result) :
    andThen (andThen r k) k' = andThen r fun s => andThen (k s) k' := by
  cases r <;> rfl

@[simp] theorem fail_eq_next {e : Status} {s t : State} : fail e s = .next t ↔ respond e 0 0 s = t := by
  simp [fail]

/-- Two states with the same block, the same pending inputs and the same outputs are the same. -/
theorem State.ext_parts {s t : State} (hb : s.toBlock = t.toBlock) (hp : s.pending = t.pending)
    (ho : s.outputs = t.outputs) : s = t := by
  cases s
  cases t
  simp_all

@[simp] theorem reset_block : State.reset.toBlock = Block.reset := rfl
@[simp] theorem reset_pending : State.reset.pending = [] := rfl
@[simp] theorem reset_outputs : State.reset.outputs = [] := rfl

/-! ## What an input keeps -/

theorem Piece.same_refl (s : State) (x : Piece) : x.Same s s := by
  cases x <;> simp [Piece.Same]

theorem Piece.same_of_block {s t : State} (h : t.toBlock = s.toBlock) (x : Piece) : x.Same s t := by
  cases x <;> simp [Piece.Same, h]

theorem Piece.same_trans {s t u : State} {x : Piece} (h : x.Same s t) (h' : x.Same t u) : x.Same s u := by
  cases x <;> simp_all [Piece.Same]

theorem KeepsAllBut.refl (ws : List Piece) (s : State) : KeepsAllBut ws s s :=
  ⟨rfl, fun x _ => Piece.same_refl s x⟩

theorem KeepsAllBut.trans {ws : List Piece} {s t u : State} (h : KeepsAllBut ws s t) (h' : KeepsAllBut ws t u) :
    KeepsAllBut ws s u :=
  ⟨h'.1.trans h.1, fun x hx => Piece.same_trans (h.2 x hx) (h'.2 x hx)⟩

theorem KeepsAllBut.mono {ws ws' : List Piece} {s t : State} (h : KeepsAllBut ws s t) (hs : ws ⊆ ws') :
    KeepsAllBut ws' s t :=
  ⟨h.1, fun x hx => h.2 x fun hx' => hx (hs hx')⟩

theorem KeepsAllBut.of_block {ws : List Piece} {s t : State} (hb : t.toBlock = s.toBlock)
    (hp : t.pending = s.pending) : KeepsAllBut ws s t :=
  ⟨hp, fun x _ => Piece.same_of_block hb x⟩

theorem fails_fail (e : Status) (s : State) : Fails (fail e s) e s :=
  ⟨respond e 0 0 s, rfl, rfl, KeepsAllBut.of_block rfl rfl⟩

end Sys2Proof.Machine
end

