-- ==== Sys2Proof/Laws/Ops.lean ====
section
/-! SUPPORT. For each shared operation, one lemma that says everything it can answer; and that `exec` and `step`
are the generic machine at this hardware's parameters. -/

namespace Sys2Proof.Machine

/-! ## The generic machine at this hardware -/

theorem exec_eq_execWith (i : Instr) (s : State) : exec i s = execWith hardware i s := by
  cases i <;> rfl

theorem step_eq_stepWith (s : State) : step s = stepWith hardware s := by
  unfold step stepWith
  rcases fetch s with ⟨_ | i, t⟩
  · rfl
  · exact exec_eq_execWith i t

theorem hardware_valid : hardware.valid = true := by decide

theorem valid_bounds {p : Params} (h : p.valid = true) :
    1 ≤ p.txpCap ∧ p.txpCap ≤ 65535 ∧ 6 ≤ p.frameCap ∧ p.frameCap ≤ 65541 := by
  simp only [Params.valid, Bool.and_eq_true, decide_eq_true_eq] at h
  exact h.1

/-! ## Codec operations -/

theorem appendBytes_eq_next {p : Params} {bytes : List Byte} {s t : State} :
    appendBytes p bytes s = .next t ↔
      (p.txpCap < s.txpCur.toNat + bytes.length ∧ t = respond .boundsError 0 0 s) ∨
      (s.txpCur.toNat + bytes.length ≤ p.txpCap ∧
        t = respond .ok ((BitVec.ofNat 16 (s.txpCur.toNat + bytes.length)).setWidth 32) 0
          { s with
            txp := s.txp.writeBytes s.txpCur.toNat bytes
            txpCur := BitVec.ofNat 16 (s.txpCur.toNat + bytes.length) }) := by
  unfold appendBytes
  by_cases h : s.txpCur.toNat + bytes.length ≤ p.txpCap
  · rw [storeBytes_of_le h]
    simp [show ¬ p.txpCap < s.txpCur.toNat + bytes.length by omega, h, @eq_comm _ t]
  · rw [storeBytes_eq_none.2 (by omega)]
    simp [show p.txpCap < s.txpCur.toNat + bytes.length by omega, h, @eq_comm _ t]

theorem readField_eq_next {p : Params} {n : Nat} {v1 : Word} {s t : State} :
    readField p n v1 s = .next t ↔
      (s.rxpLen.toNat < s.rxpCur.toNat + n ∧ t = respond .boundsError 0 0 s) ∨
      (s.rxpCur.toNat + n ≤ s.rxpLen.toNat ∧ s.rxpCur.toNat + n ≤ p.rxpCap ∧
        t = respond .ok (fieldWord n (beNat (s.rxp.readBytes s.rxpCur.toNat n))) v1
          { s with rxpCur := BitVec.ofNat 16 (s.rxpCur.toNat + n) }) := by
  unfold readField memRead
  by_cases h : s.rxpCur.toNat + n > s.rxpLen.toNat
  · rw [if_pos h]
    simp [h, show ¬ s.rxpCur.toNat + n ≤ s.rxpLen.toNat by omega, @eq_comm _ t]
  · rw [if_neg h]
    by_cases hc : s.rxpCur.toNat + n ≤ p.rxpCap
    · rw [loadBytes_of_le hc]
      simp [hc, show s.rxpCur.toNat + n ≤ s.rxpLen.toNat by omega,
        show ¬ s.rxpLen.toNat < s.rxpCur.toNat + n by omega, @eq_comm _ t]
    · have : loadBytes p.rxpCap s.rxp s.rxpCur.toNat n = none := if_neg hc
      simp [this, hc, show ¬ s.rxpLen.toNat < s.rxpCur.toNat + n by omega]

theorem readScaled_eq_next {p : Params} {n : Nat} {scale : Word} {s t : State} :
    readScaled p n scale s = .next t ↔
      (scale = 0 ∧ t = respond .scaleZero 0 0 s) ∨ (scale ≠ 0 ∧ readField p n scale s = .next t) := by
  unfold readScaled
  split
  · next h => simp [h, @eq_comm _ t]
  · next h => exact ⟨fun hr => .inr ⟨h, hr⟩, fun hr => hr.elim (fun hr => absurd hr.1 h) And.right⟩

theorem moveCursor_eq_next {k : Nat} {s t : State} :
    moveCursor k s = .next t ↔
      (s.rxpLen.toNat < k ∧ t = respond .boundsError 0 0 s) ∨
      (k ≤ s.rxpLen.toNat ∧
        t = respond .ok ((BitVec.ofNat 16 k).setWidth 32) 0 { s with rxpCur := BitVec.ofNat 16 k }) := by
  unfold moveCursor
  by_cases h : k > s.rxpLen.toNat
  · simp [h, show ¬ k ≤ s.rxpLen.toNat by omega, @eq_comm _ t]
  · simp [h, show k ≤ s.rxpLen.toNat by omega, @eq_comm _ t]

/-! ## Frame codec operations -/

theorem encodeKind_eq_ok {p : Params} {n : Nat} {k : FrameKind} :
    encodeKind p n = .ok k ↔
      (n ≤ 255 ∧ k = .short) ∨ (256 ≤ n ∧ n ≤ 65535 ∧ p.longEn = true ∧ k = .long) := by
  unfold encodeKind
  by_cases h : n ≤ 255
  · simp [h, show ¬ 256 ≤ n by omega, @eq_comm _ k]
  · by_cases hl : p.longEn = true ∧ n ≤ 65535
    · rw [if_neg h, if_pos hl]
      simp [h, hl.1, hl.2, show 256 ≤ n by omega, @eq_comm _ k]
    · rw [if_neg h, if_neg hl]
      simp only [reduceCtorEq, false_iff]
      rintro (h' | ⟨-, h', h'', -⟩)
      · exact h h'.1
      · exact hl ⟨h'', h'⟩

theorem encodeKind_eq_error {p : Params} {n : Nat} {e : Status} :
    encodeKind p n = .error e ↔ e = .lengthUnsupported ∧ 255 < n ∧ (p.longEn = false ∨ 65535 < n) := by
  unfold encodeKind
  by_cases h : n ≤ 255
  · simp [h, show ¬ 255 < n by omega]
  · by_cases hl : p.longEn = true ∧ n ≤ 65535
    · rw [if_neg h, if_pos hl]
      simp [hl.1, show ¬ 65535 < n by omega]
    · rw [if_neg h, if_neg hl]
      cases hb : p.longEn <;> simp_all [@eq_comm _ e]

theorem opCrctx_eq_next {p : Params} {s t : State} :
    opCrctx p s = .next t ↔ s.txpCur.toNat ≤ p.txpCap ∧
      t = respond .ok ((p.crc16 (s.txp.readBytes 0 s.txpCur.toNat)).setWidth 32) 0 s := by
  unfold opCrctx staged loadBytes
  by_cases h : s.txpCur.toNat ≤ p.txpCap <;> simp [h, @eq_comm _ t]

theorem opEnc_eq_next {p : Params} {s t : State} :
    opEnc p s = .next t ↔
      (∃ e, encodeKind p s.txpCur.toNat = .error e ∧ t = respond e 0 0 s) ∨
      (∃ k, encodeKind p s.txpCur.toNat = .ok k ∧ s.txpCur.toNat ≤ p.txpCap ∧
        t = respond .ok (BitVec.ofNat 32 (buildFrame p k (s.txp.readBytes 0 s.txpCur.toNat)).length) 0
          (emit (buildFrame p k (s.txp.readBytes 0 s.txpCur.toNat)) s)) := by
  unfold opEnc staged loadBytes
  cases hk : encodeKind p s.txpCur.toNat with
  | error e => simp [@eq_comm _ t]
  | ok k => by_cases h : s.txpCur.toNat ≤ p.txpCap <;> simp [h, @eq_comm _ t]

theorem acceptPayload_eq_next {p : Params} {payload : List Byte} {s t : State} :
    acceptPayload p payload s = .next t ↔ payload.length ≤ p.rxpCap ∧
      t = respond .ok ((BitVec.ofNat 16 payload.length).setWidth 32) 0
        { s with
          rxp := s.rxp.writeBytes 0 payload
          rxpLen := BitVec.ofNat 16 payload.length
          rxpCur := 0
          rxpValid := true } := by
  unfold acceptPayload storeBytes
  by_cases h : payload.length ≤ p.rxpCap <;> simp [h, @eq_comm _ t]

theorem opDec_eq_next {p : Params} {s t : State} :
    opDec p s = .next t ↔
      (s.rxState = .terminated ∧ s.rxCount.toNat ≤ p.frameCap ∧
        ((∃ e, decodeFrame p (s.rxf.readBytes 0 s.rxCount.toNat) = .error e ∧ t = respond e 0 0 s) ∨
          ∃ payload, decodeFrame p (s.rxf.readBytes 0 s.rxCount.toNat) = .ok payload ∧
            acceptPayload p payload s = .next t)) ∨
      (s.rxState = .timedOut ∧ t = respond .timeout 0 0 s) ∨
      (s.rxState = .malformedHeader ∧ t = respond .malformedHeader 0 0 s) ∨
      ((s.rxState = .idle ∨ s.rxState = .waitingForHeader ∨ s.rxState = .accumulatingPayload) ∧
        t = respond .notReady 0 0 s) := by
  unfold opDec received loadBytes
  cases hs : s.rxState <;> simp only [fail_eq_next, reduceCtorEq, false_and, true_and, or_false, false_or, or_true,
    @eq_comm _ t]
  by_cases h : s.rxCount.toNat ≤ p.frameCap
  · simp only [Nat.zero_add, h, if_true]
    cases hd : decodeFrame p (s.rxf.readBytes 0 s.rxCount.toNat) <;> simp
  · simp [h]

/-- What `DecodeFrame` can answer besides a payload. -/
theorem decodeFrame_error {p : Params} {raw : List Byte} {e : Status} (h : decodeFrame p raw = .error e) :
    e = .malformedHeader ∨ e = .integrityError := by
  have hb : ∀ hdr len, decodeBody p raw hdr len = .error e → e = .malformedHeader ∨ e = .integrityError := by
    intro hdr len h
    unfold decodeBody at h
    dsimp only at h
    split at h
    · exact .inl (by injection h with h; exact h.symm)
    · split at h
      · cases h
      · exact .inr (by injection h with h; exact h.symm)
  unfold decodeFrame at h
  split at h
  · exact .inl (by injection h with h; exact h.symm)
  · split at h
    · split at h
      · exact .inl (by injection h with h; exact h.symm)
      · exact hb _ _ h
    · split at h
      · split at h
        · exact .inl (by injection h with h; exact h.symm)
        · exact hb _ _ h
      · exact .inl (by injection h with h; exact h.symm)

/-! ## Reader operations -/

theorem rxStore_eq_next {p : Params} {b : Byte} {after : State → State} {s t : State} :
    rxStore p b after s = .next t ↔ s.rxCount.toNat + 1 ≤ p.frameCap ∧
      t = after { s with rxf := s.rxf.write s.rxCount.toNat b, rxCount := s.rxCount + 1 } := by
  unfold rxStore storeBytes
  by_cases h : s.rxCount.toNat + 1 ≤ p.frameCap <;> simp [h, Memory.writeBytes, @eq_comm _ t]

theorem rxDeclare_eq_next {p : Params} {b : Byte} {len expect : Nat} {s t : State} :
    rxDeclare p b len expect s = .next t ↔
      (p.frameCap < expect ∧ t = { s with rxState := .malformedHeader }) ∨
      (expect ≤ p.frameCap ∧ s.rxCount.toNat + 1 ≤ p.frameCap ∧
        t =
          { s with
            rxf := s.rxf.write s.rxCount.toNat b
            rxCount := s.rxCount + 1
            rxLen := BitVec.ofNat 16 len
            rxExpect := BitVec.ofNat 17 expect
            rxState := .accumulatingPayload }) := by
  unfold rxDeclare rxReject
  by_cases h : expect > p.frameCap
  · rw [if_pos h]
    simp [h, show ¬ expect ≤ p.frameCap by omega, @eq_comm _ t]
  · rw [if_neg h, rxStore_eq_next]
    simp [show ¬ p.frameCap < expect by omega, show expect ≤ p.frameCap by omega]

/-- All a received byte can do: nothing; reject the header; store the byte, and then set the registers a length
byte or the terminator sets. -/
theorem opRxbyte_cases {p : Params} {b : Byte} {s t : State} (h : opRxbyte p b s = .next t) :
    t = s ∨ (s.rxState = .waitingForHeader ∧ t = { s with rxState := .malformedHeader }) ∨
    (s.rxState.active = true ∧ s.rxCount.toNat + 1 ≤ p.frameCap ∧ ∃ state kind len expect,
      t =
        { s with
          rxf := s.rxf.write s.rxCount.toNat b
          rxCount := s.rxCount + 1
          rxState := state
          rxKind := kind
          rxLen := len
          rxExpect := expect }) := by
  unfold opRxbyte at h
  cases hs : s.rxState <;> rw [hs] at h <;> simp only at h
  case waitingForHeader =>
    have reject : rxReject s = .next t → t = { s with rxState := .malformedHeader } := by
      intro h
      simpa [rxReject, @eq_comm _ t] using h
    split at h
    · unfold rxMarker at h
      split at h
      · rw [rxStore_eq_next] at h
        exact .inr (.inr ⟨rfl, h.1, s.rxState, .short, s.rxLen, s.rxExpect, by simpa using h.2⟩)
      · split at h
        · rw [rxStore_eq_next] at h
          exact .inr (.inr ⟨rfl, h.1, s.rxState, .long, s.rxLen, s.rxExpect, by simpa using h.2⟩)
        · exact .inr (.inl ⟨rfl, reject h⟩)
    · split at h
      · rcases rxDeclare_eq_next.1 h with ⟨-, h⟩ | ⟨-, hc, h⟩
        · exact .inr (.inl ⟨rfl, h⟩)
        · exact .inr (.inr ⟨rfl, hc, _, _, _, _, h⟩)
      · unfold rxLongLength at h
        split at h
        · rw [rxStore_eq_next] at h
          exact .inr (.inr ⟨rfl, h.1, s.rxState, s.rxKind, s.rxLen, s.rxExpect, by simpa using h.2⟩)
        · rcases rxDeclare_eq_next.1 h with ⟨-, h⟩ | ⟨-, hc, h⟩
          · exact .inr (.inl ⟨rfl, h⟩)
          · exact .inr (.inr ⟨rfl, hc, _, _, _, _, h⟩)
  case accumulatingPayload =>
    split at h
    · unfold rxAccumulate at h
      rw [rxStore_eq_next] at h
      obtain ⟨hc, h⟩ := h
      split at h
      · exact .inr (.inr ⟨rfl, hc, .terminated, s.rxKind, s.rxLen, s.rxExpect, h⟩)
      · exact .inr (.inr ⟨rfl, hc, s.rxState, s.rxKind, s.rxLen, s.rxExpect, h⟩)
    · left
      simpa using h.symm
  all_goals
    left
    simpa using h.symm

/-- Where the reader is not active a byte changes nothing. -/
theorem opRxbyte_inactive {p : Params} {b : Byte} {s : State} (h : s.rxState.active = false) :
    opRxbyte p b s = .next s := by
  unfold opRxbyte
  cases hs : s.rxState <;> simp_all [RxState.active]

theorem rxBytes_append (p : Params) (a b : List Byte) (s : State) :
    rxBytes p (a ++ b) s = andThen (rxBytes p a s) (rxBytes p b) := by
  induction a generalizing s with
  | nil => rfl
  | cons x a ih =>
    simp only [List.cons_append, rxBytes, andThen_assoc]
    congr
    funext t
    exact ih t

/-- An invariant of single bytes is one of runs of bytes. -/
theorem rxBytes_induction {p : Params} {motive : State → Prop}
    (hstep : ∀ b s t, motive s → opRxbyte p b s = .next t → motive t) {bytes : List Byte} {s t : State}
    (hs : motive s) (h : rxBytes p bytes s = .next t) : motive t := by
  induction bytes generalizing s with
  | nil =>
    simp only [rxBytes, Host.Outcome.next.injEq] at h
    exact h ▸ hs
  | cons b rest ih =>
    obtain ⟨u, hu, h⟩ := andThen_eq_next.1 h
    exact ih (hstep b s u hs hu) h

theorem opRxexpire_eq_next {s t : State} :
    opRxexpire s = .next t ↔
      (s.rxState.active = true ∧ t = { s with rxState := .timedOut }) ∨ (s.rxState.active = false ∧ t = s) := by
  unfold opRxexpire
  cases s.rxState <;> simp [RxState.active, @eq_comm _ t]

/-! ## Control operations -/

theorem opRdreg_eq_next {r : BitVec 4} {s t : State} :
    opRdreg r s = .next t ↔
      (∃ v, readRegister r s = some v ∧ t = respond .ok v 0 s) ∨
      (readRegister r s = none ∧ t = respond .illegalOp 0 0 s) := by
  unfold opRdreg
  cases readRegister r s <;> simp [@eq_comm _ t]

/-! ## The next input -/

theorem fetch_nil {s : State} (h : s.pending = []) : fetch s = (none, s) := by
  unfold fetch
  rw [h]

theorem fetch_ok {s : State} {x : Input} {rest : List Input} {i : Instr} {left : List Byte}
    (h : s.pending = x :: rest) (hd : decode x = .ok (i, left)) :
    fetch s = (some i, { s with pending := putBack left rest }) := by
  unfold fetch
  rw [h]
  simp [hd]

theorem fetch_error {s : State} {x : Input} {rest : List Input} {e : DecodeError}
    (h : s.pending = x :: rest) (hd : decode x = .error e) : fetch s = (none, { s with pending := rest }) := by
  unfold fetch
  rw [h]
  simp [hd]

/-- Taking an input touches only what is pending. -/
theorem fetch_block (s : State) : (fetch s).2.toBlock = s.toBlock ∧ (fetch s).2.outputs = s.outputs := by
  unfold fetch
  split
  · exact ⟨rfl, rfl⟩
  · split <;> exact ⟨rfl, rfl⟩

end Sys2Proof.Machine
end

