-- ==== Sys2Proof/Laws/HostProfile.lean ====
section
/-! SUPPORT. The host's software: what asking and polling can give, and that a whole exchange is the reception it
waits for followed by the reading of the reply. -/

namespace Sys2Proof.Machine

theorem ask_eq_some {p : Params} {i : Instr} {s t : State} {r : Response} :
    ask p i s = some (t, r) ↔ execWith p i s = .next t ∧ t.outputs.getLast? = some (.response r) := by
  unfold ask
  cases execWith p i s with
  | next u =>
    simp only [Host.Outcome.next.injEq]
    constructor
    · intro h
      split at h
      · next r' hr =>
        simp only [Option.some.injEq, Prod.mk.injEq] at h
        obtain ⟨rfl, rfl⟩ := h
        exact ⟨rfl, hr⟩
      · cases h
    · rintro ⟨rfl, hr⟩
      rw [hr]
  | fault f => simp
  | refused f => simp

/-- A command that answers with a response. -/
theorem ask_of_respond {p : Params} {i : Instr} {s t : State} {status : Status} {v0 v1 : Word}
    (h : execWith p i s = .next (respond status v0 v1 t)) :
    ask p i s = some (respond status v0 v1 t, ⟨status, v0, v1⟩) :=
  ask_eq_some.2 ⟨h, by simp [respond]⟩

theorem askAll_cons {p : Params} {i : Instr} {rest : List Instr} {s t u : State} {r : Response} {rs : List Response}
    (h : ask p i s = some (t, r)) (hr : r.status = .ok) (hrest : askAll p rest t = some (u, .ok rs)) :
    askAll p (i :: rest) s = some (u, .ok (r :: rs)) := by
  simp [askAll, h, hr, hrest]

/-! ## Polling -/

theorem statusTerminal_statusWord (s : State) :
    statusTerminal (statusWord s) = (!s.rxState.active && s.rxState != .idle) := by
  have h : ∀ (st : RxState) (v : Bool) (k : BitVec 1),
      statusTerminal ((k ++ (BitVec.ofBool v ++ st.code)).setWidth 32) = (!st.active && st != .idle) := by
    intro st v
    cases st <;> cases v <;> decide
  exact h s.rxState s.rxpValid s.rxKind.code

theorem ask_status (p : Params) (s : State) :
    ask p (.rdreg 0) s = some (respond .ok (statusWord s) 0 s, ⟨.ok, statusWord s, 0⟩) :=
  ask_of_respond (show opRdreg 0 s = _ from rfl)

/-- While the reader is active a poll tells the host nothing and only adds a response. -/
theorem poll_active {p : Params} {how : Polling} {s : State} (h : s.rxState.active = true) :
    ∃ outs, poll p how s = some ({ s with outputs := outs }, none) := by
  cases how with
  | status =>
    refine ⟨(respond .ok (statusWord s) 0 s).outputs, ?_⟩
    simp only [poll, ask_status, statusTerminal_statusWord, h, Bool.not_true, Bool.false_and, Bool.false_eq_true,
      if_false]
    rfl
  | decode =>
    have hd : execWith p .dec s = .next (respond .notReady 0 0 s) := by
      show opDec p s = _
      rw [opDec_eq_next]
      cases hs : s.rxState <;> simp_all [RxState.active]
    refine ⟨(respond .notReady 0 0 s).outputs, ?_⟩
    simp only [poll, ask_of_respond hd, Option.map_some, if_true]
    rfl

/-- In a terminal state `DEC` never answers `NotReady`. -/
theorem dec_ready {p : Params} {s t : State} {d : Response} (hs : s.rxState.active = false) (hi : s.rxState ≠ .idle)
    (h : ask p .dec s = some (t, d)) : d.status ≠ .notReady := by
  obtain ⟨hx, hr⟩ := ask_eq_some.1 h
  rcases opDec_eq_next.1 hx with ⟨-, -, ⟨e, he, rfl⟩ | ⟨payload, -, ha⟩⟩ | ⟨-, rfl⟩ | ⟨-, rfl⟩ | ⟨hn, -⟩
  · simp only [respond, List.getLast?_append, List.getLast?_singleton, Option.some_or, Option.some.injEq,
      Output.response.injEq] at hr
    subst hr
    rcases decodeFrame_error he with rfl | rfl <;> simp
  · obtain ⟨-, rfl⟩ := acceptPayload_eq_next.1 ha
    simp only [respond, List.getLast?_append, List.getLast?_singleton, Option.some_or, Option.some.injEq,
      Output.response.injEq] at hr
    subst hr
    simp
  · simp only [respond, List.getLast?_append, List.getLast?_singleton, Option.some_or, Option.some.injEq,
      Output.response.injEq] at hr
    subst hr
    simp
  · simp only [respond, List.getLast?_append, List.getLast?_singleton, Option.some_or, Option.some.injEq,
      Output.response.injEq] at hr
    subst hr
    simp
  · rcases hn with hn | hn | hn
    · exact absurd hn hi
    all_goals
      rw [hn] at hs
      cases hs

/-- In a terminal state a poll gives the host what `DEC` answers. -/
theorem poll_terminal {p : Params} {how : Polling} {s : State} (hs : s.rxState.active = false)
    (hi : s.rxState ≠ .idle) :
    ∃ outs, poll p how s = (ask p .dec { s with outputs := outs }).map fun u => (u.1, some u.2) := by
  cases how with
  | status =>
    refine ⟨(respond .ok (statusWord s) 0 s).outputs, ?_⟩
    have ht : statusTerminal (statusWord s) = true := by simp [statusTerminal_statusWord, hs, hi]
    simp only [poll, ask_status, ht, if_true]
    rfl
  | decode =>
    refine ⟨s.outputs, ?_⟩
    cases hd : ask p .dec s with
    | none => simp [poll, hd]
    | some u =>
      have := dec_ready (t := u.1) (d := u.2) hs hi hd
      simp [poll, hd, this]

/-! ## Arrivals and the sides they do not touch -/

/-- A received byte does the same whatever stands on the transmit side and in the outputs, and leaves both. -/
theorem opRxbyte_other (p : Params) (b : Byte) (s : State) (x : Memory) (c : BitVec 16) (outs : List Output) :
    opRxbyte p b { s with txp := x, txpCur := c, outputs := outs } =
      andThen (opRxbyte p b s) fun t => .next { t with txp := x, txpCur := c, outputs := outs } := by
  have store : ∀ f g : State → State,
      (∀ t : State, g { t with txp := x, txpCur := c, outputs := outs } =
        { f t with txp := x, txpCur := c, outputs := outs }) →
      rxStore p b g { s with txp := x, txpCur := c, outputs := outs } =
        andThen (rxStore p b f s) fun t => .next { t with txp := x, txpCur := c, outputs := outs } := by
    intro f g hfg
    simp only [rxStore]
    split
    · rfl
    · exact congrArg Host.Outcome.next (hfg { s with rxf := _, rxCount := s.rxCount + 1 })
  have declare : ∀ len expect, rxDeclare p b len expect { s with txp := x, txpCur := c, outputs := outs } =
      andThen (rxDeclare p b len expect s) fun t => .next { t with txp := x, txpCur := c, outputs := outs } := by
    intro len expect
    simp only [rxDeclare]
    split
    · rfl
    · exact store _ _ fun _ => rfl
  simp only [opRxbyte]
  split
  · split
    · simp only [rxMarker]
      split
      · exact store _ _ fun _ => rfl
      · split
        · exact store _ _ fun _ => rfl
        · rfl
    · split
      · exact declare _ _
      · simp only [rxLongLength]
        split
        · exact store _ _ fun _ => rfl
        · exact declare _ _
  · split
    · refine store _ _ fun t => ?_
      dsimp only
      split <;> rfl
    · rfl
  all_goals rfl

theorem arrival_other (p : Params) (a : Arrival) (s : State) (x : Memory) (c : BitVec 16) (outs : List Output) :
    execWith p a.instr { s with txp := x, txpCur := c, outputs := outs } =
      andThen (execWith p a.instr s) fun t => .next { t with txp := x, txpCur := c, outputs := outs } := by
  cases a with
  | byte b => exact opRxbyte_other p b s x c outs
  | expire =>
    show opRxexpire _ = andThen (opRxexpire s) _
    simp only [opRxexpire]
    split <;> rfl

theorem arrivals_other (p : Params) (arrivals : List Arrival) (s : State) (x : Memory) (c : BitVec 16)
    (outs : List Output) :
    runWith p (arrivals.map Arrival.instr) { s with txp := x, txpCur := c, outputs := outs } =
      andThen (runWith p (arrivals.map Arrival.instr) s) fun t =>
        .next { t with txp := x, txpCur := c, outputs := outs } := by
  induction arrivals generalizing s with
  | nil => rfl
  | cons a rest ih =>
    simp only [List.map_cons, runWith, arrival_other, andThen_assoc]
    cases execWith p a.instr s with
    | next t => exact ih t
    | fault f => rfl
    | refused f => rfl

/-- Where the reader is not active no arrival changes anything. -/
theorem arrivals_inactive {p : Params} {arrivals : List Arrival} {s : State} (h : s.rxState.active = false) :
    runWith p (arrivals.map Arrival.instr) s = .next s := by
  induction arrivals with
  | nil => rfl
  | cons a rest ih =>
    have ha : execWith p a.instr s = .next s := by
      cases a with
      | byte b => exact opRxbyte_inactive h
      | expire => exact opRxexpire_eq_next.2 (.inr ⟨h, rfl⟩)
    simp only [List.map_cons, runWith, ha, andThen_next, ih]

/-- The host that waits while `arrivals` end a reception gets what `DEC` answers in the state they lead to, however
it polls, whatever arrives after them, and whatever stands on the transmit side. -/
theorem awaitReply_of_run {p : Params} {how : Polling} {arrivals more : List Arrival} {s t : State}
    (h : runWith p (arrivals.map Arrival.instr) s = .next t) (hs : t.rxState.active = false)
    (hi : t.rxState ≠ .idle) (x : Memory) (c : BitVec 16) (outs : List Output) :
    ∃ outs', awaitReply p how (arrivals ++ more) { s with txp := x, txpCur := c, outputs := outs } =
      (ask p .dec { t with txp := x, txpCur := c, outputs := outs' }).map fun u => (u.1, some u.2) := by
  have ended : ∀ (rest : List Arrival) (s : State), s.rxState.active = false → s.rxState ≠ .idle →
      ∃ outs, awaitReply p how rest s = (ask p .dec { s with outputs := outs }).map fun u => (u.1, some u.2) := by
    intro rest s hs hi
    obtain ⟨outs, ho⟩ := poll_terminal (p := p) (how := how) hs hi
    refine ⟨outs, ?_⟩
    cases rest with
    | nil => exact ho
    | cons a rest =>
      rw [awaitReply, ho]
      cases ask p .dec { s with outputs := outs } <;> rfl
  induction arrivals generalizing s outs with
  | nil =>
    simp only [List.map_nil, runWith, Host.Outcome.next.injEq] at h
    subst h
    exact ended _ { s with txp := x, txpCur := c, outputs := outs } hs hi
  | cons a rest ih =>
    cases ha : s.rxState.active with
    | false =>
      rw [arrivals_inactive ha, Host.Outcome.next.injEq] at h
      subst h
      exact ended _ { s with txp := x, txpCur := c, outputs := outs } hs hi
    | true =>
      obtain ⟨polled, ho⟩ :=
        poll_active (p := p) (how := how) (s := { s with txp := x, txpCur := c, outputs := outs }) ha
      obtain ⟨u, hu, hr⟩ := andThen_eq_next.1 h
      obtain ⟨outs', h'⟩ := ih hr polled
      have hu' := arrival_other p a s x c polled
      rw [hu, andThen_next] at hu'
      exact ⟨outs', by rw [List.cons_append, awaitReply, ho]; simp only [hu', h']⟩

/-! ## The exchange -/

/-- `GETVALUES` and `RXSTART` are answered `OK`; they leave the reader freshly started and touch the transmit side
and the outputs besides. -/
theorem askAll_request {p : Params} (hv : p.valid = true) {s u : State} (hf : s.txp.fits p.txpCap = true)
    (hu : opRxstart s = .next u) :
    ∃ x c outs rs, Memory.fits p.txpCap x = true ∧ c.toNat ≤ p.txpCap ∧
      askAll p (HostCommand.getTelemetry.expand p.ids ++ [.rxstart]) s =
        some ({ u with txp := x, txpCur := c, outputs := outs }, .ok rs) := by
  have hb := valid_bounds hv
  let cleared := respond .ok 0 0 { s with txpCur := 0 }
  let x := s.txp.writeBytes 0 [p.ids.getValues]
  let staged := respond .ok 1 0 { cleared with txp := x, txpCur := 1 }
  let frame := buildFrame p .short (x.readBytes 0 1)
  let sent := respond .ok (BitVec.ofNat 32 frame.length) 0 (emit frame staged)
  have clear : ask p .txclr s = some (cleared, ⟨.ok, 0, 0⟩) := ask_of_respond (show opTxclr s = _ from rfl)
  have stage : ask p (.appu8 p.ids.getValues) cleared = some (staged, ⟨.ok, 1, 0⟩) :=
    ask_of_respond (appendBytes_eq_next.2 (.inr ⟨hb.1, rfl⟩))
  have send : ask p .enc staged = some (sent, ⟨.ok, BitVec.ofNat 32 frame.length, 0⟩) :=
    ask_of_respond (show opEnc p staged = .next sent from
      opEnc_eq_next.2 (.inr ⟨.short, encodeKind_eq_ok.2 (.inl ⟨show 1 ≤ 255 by decide, rfl⟩), hb.1, rfl⟩))
  have start := ask_of_respond (p := p) (i := .rxstart) (s := sent) (show opRxstart sent = _ from rfl)
  simp only [opRxstart, Host.Outcome.next.injEq] at hu
  subst hu
  exact ⟨x, 1, _, _, Memory.writeBytes_fits hf hb.1, hb.1,
    askAll_cons clear rfl (askAll_cons stage rfl (askAll_cons send rfl (askAll_cons start rfl rfl)))⟩

/-- A whole exchange whose `arrivals` end the reception in a state `t` is the reading of the reply in `t`, with
another transmit side and other outputs, however the host polls and whatever arrives after them. -/
theorem requestTelemetry_of_run {p : Params} (hv : p.valid = true) {how : Polling} {arrivals more : List Arrival}
    {s t : State} (hf : s.txp.fits p.txpCap = true)
    (h : runWith p (.rxstart :: arrivals.map Arrival.instr) s = .next t) (hs : t.rxState.active = false)
    (hi : t.rxState ≠ .idle) :
    ∃ x c outs, Memory.fits p.txpCap x = true ∧ c.toNat ≤ p.txpCap ∧
      requestTelemetry p how (arrivals ++ more) s =
        (readTelemetry p { t with txp := x, txpCur := c, outputs := outs }).map fun r => (r.1, some r.2) := by
  obtain ⟨u, hu, hr⟩ := andThen_eq_next.1 h
  obtain ⟨x, c, outs, rs, hx, hc, hq⟩ := askAll_request hv hf hu
  obtain ⟨outs', hw⟩ := awaitReply_of_run (how := how) (more := more) hr hs hi x c outs
  refine ⟨x, c, outs', hx, hc, ?_⟩
  rw [requestTelemetry, hq]
  simp only [hw, readTelemetry]
  cases ask p .dec { t with txp := x, txpCur := c, outputs := outs' } <;> rfl

end Sys2Proof.Machine
end

