-- ==== Sys2Proof/Laws/Operands.lean ====
section
/-! SUPPORT. Big-endian fields: what `beNat` and `beBytes` are for 2 and 4 bytes, and that they invert each other. -/

namespace Sys2Proof.Machine

theorem append_toNat {w v : Nat} (x : BitVec w) (y : BitVec v) : (x ++ y).toNat = x.toNat * 2 ^ v + y.toNat := by
  rw [BitVec.toNat_append, Nat.shiftLeft_eq, ← Nat.shiftLeft_eq, ← Nat.shiftLeft_add_eq_or_of_lt y.isLt]

theorem beNat_append_single (bytes : List Byte) (b : Byte) : beNat (bytes ++ [b]) = beNat bytes * 256 + b.toNat := by
  simp [beNat]

theorem beNat_two (a b : Byte) : beNat [a, b] = (a ++ b).toNat := by
  rw [append_toNat]
  simp [beNat]

theorem beNat_four (a b c d : Byte) : beNat [a, b, c, d] = (a ++ b ++ c ++ d).toNat := by
  simp only [append_toNat, beNat, List.foldl]
  omega

@[simp] theorem length_beBytes (n v : Nat) : (beBytes n v).length = n := by
  induction n with
  | zero => rfl
  | succ n ih => simp [beBytes, ih]

theorem beBytes_four (v : Word) :
    beBytes 4 v.toNat = [v.extractLsb' 24 8, v.extractLsb' 16 8, v.extractLsb' 8 8, v.extractLsb' 0 8] := by
  simp [beBytes, BitVec.extractLsb']

/-- Reading back the big-endian bytes of a value. -/
theorem beNat_beBytes (n v : Nat) : beNat (beBytes n v) = v % 2 ^ (8 * n) := by
  have h : ∀ n acc, (beBytes n v).foldl (fun acc b => acc * 256 + b.toNat) acc = acc * 2 ^ (8 * n) + v % 2 ^ (8 * n) := by
    intro n
    induction n with
    | zero => intro acc; simp [beBytes, Nat.mod_one]
    | succ n ih =>
      intro acc
      rw [beBytes, List.foldl_cons, ih, BitVec.toNat_ofNat, Nat.shiftRight_eq_div_pow,
        show 8 * (n + 1) = 8 * n + 8 by ring, pow_add, Nat.mod_mul]
      norm_num
      ring
  simpa [beNat] using h n 0

theorem fieldWord_two (a b : Byte) : fieldWord 2 (beNat [a, b]) = (a ++ b).signExtend 32 := by
  unfold fieldWord
  rw [beNat_two]
  simp

theorem fieldWord_four (a b c d : Byte) : fieldWord 4 (beNat [a, b, c, d]) = a ++ b ++ c ++ d := by
  unfold fieldWord
  rw [beNat_four]
  simp

/-- The two's complement reading of R9 is the integer of the bit pattern. -/
theorem signed_eq_toInt (w : Nat) (hw : 0 < w) (x : BitVec w) : signed w x.toNat = x.toInt := by
  unfold signed
  rw [BitVec.toInt_eq_toNat_cond]
  have h2 : 2 ^ w = 2 * 2 ^ (w - 1) := by
    rw [← Nat.pow_succ']
    congr 1
    omega
  by_cases h : x.toNat < 2 ^ (w - 1)
  · rw [if_pos h, if_pos (by omega)]
  · rw [if_neg h, if_neg (by omega)]

end Sys2Proof.Machine
end

