-- ==== Sys2Proof/Laws/PerInstr.lean ====
section
/-! SUPPORT. Statements about each instruction as syntax, one lemma per constructor. -/

namespace Sys2Proof.Laws

/-! The family `TableRow`: an instruction's encoding has the bits its row of spec/opcode_table.json fixes (R91). -/

def TableRow.Statement (i : Instr) : Prop :=
  ∃ row ∈ opcodeTable, row.1 = i.mnemonic ∧ row.2.matches (encode i) = true

theorem tableRow_of_command (name : String) {i : Instr} {op : BitVec 4} {a : BitVec 32}
    (he : encode i = .command (commandWord op a)) (hn : name = i.mnemonic)
    (hm : (name, RowFormat.cmd (op ++ 0#32) 0xF00000000) ∈ opcodeTable) : TableRow.Statement i := by
  refine ⟨_, hm, hn, ?_⟩
  have : (op ++ a) &&& (0xF#4 ++ 0#32) = op ++ 0#32 := by
    rw [BitVec.and_append]
    congr
    · exact BitVec.and_allOnes (x := op)
    · exact BitVec.and_zero (x := a)
  simp only [he, RowFormat.matches, commandWord, beq_iff_eq]
  exact this

theorem TableRow.reserved0 : TableRow.Statement .reserved0 :=
  tableRow_of_command "RESERVED0" rfl rfl (by decide)
theorem TableRow.txclr : TableRow.Statement .txclr :=
  tableRow_of_command "TXCLR" rfl rfl (by decide)
theorem TableRow.appu8 (b : Byte) : TableRow.Statement (.appu8 b) :=
  tableRow_of_command "APPU8" rfl rfl (by decide)
theorem TableRow.appi32 (v : BitVec 32) : TableRow.Statement (.appi32 v) :=
  tableRow_of_command "APPI32" rfl rfl (by decide)
theorem TableRow.enc : TableRow.Statement .enc :=
  tableRow_of_command "ENC" rfl rfl (by decide)
theorem TableRow.rxstart : TableRow.Statement .rxstart :=
  tableRow_of_command "RXSTART" rfl rfl (by decide)
theorem TableRow.dec : TableRow.Statement .dec :=
  tableRow_of_command "DEC" rfl rfl (by decide)
theorem TableRow.curwr (k : BitVec 16) : TableRow.Statement (.curwr k) :=
  tableRow_of_command "CURWR" rfl rfl (by decide)
theorem TableRow.rdi16 : TableRow.Statement .rdi16 :=
  tableRow_of_command "RDI16" rfl rfl (by decide)
theorem TableRow.rdi32 : TableRow.Statement .rdi32 :=
  tableRow_of_command "RDI32" rfl rfl (by decide)
theorem TableRow.rdf16 (scale : BitVec 32) : TableRow.Statement (.rdf16 scale) :=
  tableRow_of_command "RDF16" rfl rfl (by decide)
theorem TableRow.rdf32 (scale : BitVec 32) : TableRow.Statement (.rdf32 scale) :=
  tableRow_of_command "RDF32" rfl rfl (by decide)
theorem TableRow.crctx : TableRow.Statement .crctx :=
  tableRow_of_command "CRCTX" rfl rfl (by decide)
theorem TableRow.rdreg (r : BitVec 4) : TableRow.Statement (.rdreg r) :=
  tableRow_of_command "RDREG" rfl rfl (by decide)
theorem TableRow.skip (n : BitVec 16) : TableRow.Statement (.skip n) :=
  tableRow_of_command "SKIP" rfl rfl (by decide)
theorem TableRow.reservedF : TableRow.Statement .reservedF :=
  tableRow_of_command "RESERVEDF" rfl rfl (by decide)

theorem TableRow.rxbyte (b : Byte) : TableRow.Statement (.rxbyte b) :=
  ⟨("RXBYTE", .byteEvent), by decide, rfl, rfl⟩

theorem TableRow.rxexpire : TableRow.Statement .rxexpire := ⟨("RXEXPIRE", .expireStrobe), by decide, rfl, rfl⟩

theorem TableRow.reset : TableRow.Statement .reset := ⟨("RESET", .resetStrobe), by decide, rfl, rfl⟩

theorem TableRow.frameShort (payload : List Byte) (crcHi crcLo last : Byte) :
    TableRow.Statement (.frameShort payload crcHi crcLo last) :=
  ⟨("FRAME_SHORT", .frame 0x02 0xFF), by decide, rfl, rfl⟩

theorem TableRow.frameLong (payload : List Byte) (crcHi crcLo last : Byte) :
    TableRow.Statement (.frameLong payload crcHi crcLo last) :=
  ⟨("FRAME_LONG", .frame 0x03 0xFF), by decide, rfl, rfl⟩

end Sys2Proof.Laws
end

