-- ==== Sys2Proof/Machine/Listing.lean ====
section
/-! DEFINITION. The line syntax of listings (spec/30_encoding.md R89, R90): an operation or event, and the
response after `->`. -/

namespace Sys2Proof.Machine

/-- One hexadecimal digit. -/
def hexDigit (n : Nat) : Char := ['0', '1', '2', '3', '4', '5', '6', '7', '8', '9', 'A', 'B', 'C', 'D', 'E', 'F'].getD n '?'

/-- A byte as two hexadecimal digits. -/
def hexByte (b : Byte) : String := String.ofList [hexDigit (b.toNat / 16), hexDigit (b.toNat % 16)]

/-- `RXFRAME b0 b1 .. bk` (R90). -/
def rxframeLine (bytes : List Byte) : String := "RXFRAME" ++ String.join (bytes.map fun b => " " ++ hexByte b)

/-- One line for an operation or event (R89). -/
def listingLine (i : Instr) : String :=
  match i with
  | .appu8 b => i.mnemonic ++ " " ++ toString b.toNat
  | .appi32 v => i.mnemonic ++ " " ++ toString v.toInt
  | .curwr k => i.mnemonic ++ " " ++ toString k.toNat
  | .rdf16 scale => i.mnemonic ++ " " ++ toString scale.toNat
  | .rdf32 scale => i.mnemonic ++ " " ++ toString scale.toNat
  | .rdreg r => i.mnemonic ++ " " ++ toString r.toNat
  | .skip n => i.mnemonic ++ " " ++ toString n.toNat
  | .rxbyte b => i.mnemonic ++ " 0x" ++ hexByte b
  | .frameShort payload crcHi crcLo last => rxframeLine (frameBytes .short payload crcHi crcLo last)
  | .frameLong payload crcHi crcLo last => rxframeLine (frameBytes .long payload crcHi crcLo last)
  | .reserved0 | .txclr | .enc | .rxstart | .dec | .rdi16 | .rdi32 | .crctx | .reservedF | .rxexpire | .reset =>
    i.mnemonic

/-- The names of the status codes (R83). -/
def Status.name : Status → String
  | .ok => "OK"
  | .timeout => "Timeout"
  | .integrityError => "IntegrityError"
  | .malformedHeader => "MalformedHeader"
  | .unknownPacket => "UnknownPacket"
  | .shortResponse => "ShortResponse"
  | .boundsError => "BoundsError"
  | .notReady => "NotReady"
  | .illegalOp => "IllegalOp"
  | .scaleZero => "ScaleZero"
  | .lengthUnsupported => "LengthUnsupported"

/-- A response after `->` (R89). -/
def responseLine (r : Response) : String :=
  "-> (" ++ r.status.name ++ ", " ++ toString r.v0.toNat ++ ", " ++ toString r.v1.toNat ++ ")"

end Sys2Proof.Machine
end

