-- ==== Sys2Proof/Tests/Slice0.lean ====
section
/-! SUPPORT. Tests. Expected values are those of spec/95_test_vectors.md (named by section or program) or worked by
hand from the rule cited; each test is about one input. The theorems named `witness_…` show, for a statement with
hypotheses, states and operands that meet them together. -/

namespace Sys2Proof.Tests

open Sys2Proof.Machine

/-! ## Helpers -/

/-- A next state with this property. -/
def reaches (r : Result) (f : State → Bool) : Bool :=
  match r with
  | .next t => f t
  | _ => false

/-- The newest output is this response. -/
def answered (status : Status) (v0 v1 : Word) (t : State) : Bool :=
  t.outputs.getLast? == some (.response ⟨status, v0, v1⟩)

/-- `bytes` staged in `TXP`. -/
def staging (bytes : List Byte) : State :=
  { State.reset with txp := Memory.writeBytes [] 0 bytes, txpCur := BitVec.ofNat 16 bytes.length }

/-- A reader in `state` that has stored `bytes`, with the registers a Short header of payload length `len` sets. -/
def reader (state : RxState) (bytes : List Byte) (len expect : Nat) : State :=
  { State.reset with
    rxf := Memory.writeBytes [] 0 bytes
    rxState := state
    rxCount := BitVec.ofNat 17 bytes.length
    rxLen := BitVec.ofNat 16 len
    rxExpect := BitVec.ofNat 17 expect }

/-- A reader of a Long frame. -/
def longReader (state : RxState) (bytes : List Byte) (len expect : Nat) : State :=
  { reader state bytes len expect with rxKind := .long }

/-- The frame held has been decoded to `payload`, and the receive cursor stands at `cur`. -/
def decoded (frame payload : List Byte) (cur : Nat) : State :=
  { reader .terminated frame payload.length frame.length with
    rxp := Memory.writeBytes [] 0 payload
    rxpLen := BitVec.ofNat 16 payload.length
    rxpValid := true
    rxpCur := BitVec.ofNat 16 cur }

/-- The payload of section 2.1. -/
def fields : List Byte :=
  [0x80, 0x00, 0x7F, 0xFF, 0xFF, 0xFF, 0x80, 0x00, 0x00, 0x00, 0x7F, 0xFF, 0xFF, 0xFF, 0xAB]

/-- Its frame (section 2.1). -/
def fieldsFrame : List Byte := [0x02, 0x0F] ++ fields ++ [0x59, 0xC2, 0x03]

/-- Section 2.1, with the receive cursor at `cur`. -/
def walking (cur : Nat) : State := decoded fieldsFrame fields cur

/-- The frame of section 2.4. -/
def askFrame : List Byte := [0x02, 0x01, 0x04, 0x40, 0x84, 0x03]

/-- Long framing with a buffer of `cap` bytes. -/
def longParams (cap : Nat) : Params := { defaultParams true with frameCap := cap }

/-- Short framing with a buffer of `cap` bytes. -/
def shortParams (cap : Nat) : Params := { defaultParams false with frameCap := cap }

/-! ## Well-formedness, parameters -/

theorem test_wf_refuses_a_short_frame_too_long : (Instr.frameShort (List.replicate 256 0) 0 0 3).wf = false := by
  simp only [Instr.wf, List.length_replicate]
  decide

theorem test_wf_accepts_the_longest_short_frame : (Instr.frameShort (List.replicate 255 0) 0 0 3).wf = true := by
  simp only [Instr.wf, List.length_replicate]
  decide

theorem test_wf_refuses_a_long_frame_too_long : (Instr.frameLong (List.replicate 65536 0) 0 0 3).wf = false := by
  simp only [Instr.wf, List.length_replicate]
  decide

theorem test_wf_accepts_the_longest_long_frame : (Instr.frameLong (List.replicate 65535 0) 0 0 3).wf = true := by
  simp only [Instr.wf, List.length_replicate]
  decide

/-- R7. -/
theorem test_params_refused :
    (shortParams 5).configure.isNone ∧ (longParams 65542).configure.isNone ∧
      (Params.configure { hardware with txpCap := 0 }).isNone ∧
      (Params.configure { hardware with ids := ⟨4, 4, 6, 7, 8⟩ }).isNone := by decide

/-- R7. -/
theorem test_params_admitted :
    (shortParams 6).configure.isSome ∧ (longParams 65541).configure.isSome ∧ hardware.configure.isSome := by decide

/-- R6: `RXP_CAP = FRAME_CAP - 5`. -/
theorem test_rxp_cap : hardware.rxpCap = 255 ∧ (longParams 65541).rxpCap = 65536 := by decide

/-! ## Decoding: section 2.0 and R80, R81 -/

theorem test_decode_transmit_words :
    decodeCommand 0x100000000 = .txclr ∧ decodeCommand 0x1DEADBEEF = .txclr ∧
    decodeCommand 0x200000005 = .appu8 5 ∧ decodeCommand 0x2000001FF = .appu8 0xFF ∧
    decodeCommand 0x3FFFFF63C = .appi32 0xFFFFF63C ∧ decodeCommand 0x400000000 = .enc ∧
    decodeCommand 0xC00000000 = .crctx := by decide

theorem test_decode_receive_words :
    decodeCommand 0x500000000 = .rxstart ∧ decodeCommand 0x600000000 = .dec ∧
    decodeCommand 0x700010001 = .curwr 1 ∧ decodeCommand 0x800000000 = .rdi16 ∧
    decodeCommand 0x900000000 = .rdi32 ∧ decodeCommand 0xA000003E8 = .rdf16 1000 ∧
    decodeCommand 0xB00002710 = .rdf32 10000 ∧ decodeCommand 0xE00000008 = .skip 8 := by decide

theorem test_decode_control_words :
    decodeCommand 0x012345678 = .reserved0 ∧ decodeCommand 0xFFFFFFFFF = .reservedF ∧
    decodeCommand 0xD00000006 = .rdreg 6 ∧ decodeCommand 0xD00000010 = .rdreg 0 := by decide

/-- R86. -/
theorem test_decode_events :
    decode (.serial [0x5A]) = .ok (.rxbyte 0x5A, []) ∧ decode (.expire 1) = .ok (.rxexpire, []) ∧
    decode (.reset 1) = .ok (.reset, []) ∧ decode (.expire 0) = .error .strobeNotAsserted ∧
    decode (.reset 0) = .error .strobeNotAsserted ∧ decode (.serial []) = .error .noBytes := by decide

/-- R71, R72, section 2.3. -/
theorem test_decode_frames :
    decode (.serial askFrame) = .ok (.frameShort [0x04] 0x40 0x84 0x03, []) ∧
    decode (.serial [0x02, 0x00, 0x00, 0x00, 0x03, 0x99]) = .ok (.frameShort [] 0x00 0x00 0x03, [0x99]) ∧
    decode (.serial [0x03, 0x00, 0x01, 0x04, 0x40, 0x84, 0x03]) = .ok (.frameLong [0x04] 0x40 0x84 0x03, []) ∧
    decode (.serial [0x02, 0x01, 0x04, 0x40, 0x84]) = .ok (.rxbyte 0x02, [0x01, 0x04, 0x40, 0x84]) := by decide

/-- A row's word, numbered as the table numbers it. -/
theorem test_decode_table_words :
    decodeTableWord 40 0x3000061A8 = some (.appi32 25000) ∧ decodeTableWord 8 0x5A = some (.rxbyte 0x5A) ∧
    decodeTableWord 8 1 = some .rxexpire ∧ decodeTableWord 8 2 = some (.frameShort [] 0 0 0) ∧
    decodeTableWord 8 3 = some (.frameLong [] 0 0 0) ∧ decodeTableWord 40 0x1000000000 = none := by decide

/-- R89, R90: a listing's lines. -/
theorem test_listing_lines :
    listingLine (.appi32 0xFFFFFFFF) = "APPI32 -1" ∧ listingLine (.rxbyte 0x02) = "RXBYTE 0x02" ∧
    listingLine (.frameShort [0x04] 0x40 0x84 0x03) = "RXFRAME 02 01 04 40 84 03" ∧
    responseLine ⟨.ok, 5, 0⟩ = "-> (OK, 5, 0)" := by decide

/-! ## Fixed-Point Codec: section 2.1 -/

theorem test_txclr : reaches (exec .txclr (staging [5])) (fun t => answered .ok 0 0 t && t.txpCur == 0) := by decide

theorem test_appu8 :
    reaches (exec (.appu8 5) State.reset)
      (fun t => answered .ok 1 0 t && t.txpCur == 1 && t.txp.readBytes 0 1 == [5]) := by decide

/-- Row 6: the most significant byte at the lowest index. -/
theorem test_appi32_byte_order :
    reaches (exec (.appi32 0x01020304) (staging [9]))
      (fun t => answered .ok 5 0 t && t.txp.readBytes 0 5 == [9, 1, 2, 3, 4]) := by decide

theorem test_appi32_bound :
    reaches (exec (.appi32 1) { State.reset with txpCur := 252 })
      (fun t => answered .boundsError 0 0 t && t.txpCur == 252 && t.txp == []) := by decide

/-- Rows 1 and 6. -/
theorem test_rdi16 :
    reaches (exec .rdi16 (walking 0)) (fun t => answered .ok 0xFFFF8000 1 t && t.rxpCur == 2) ∧
    reaches (exec .rdi16 (walking 14)) (fun t => answered .boundsError 0 0 t && t.rxpCur == 14) := by decide

/-- Rows 4 and 7. -/
theorem test_rdi32 :
    reaches (exec .rdi32 (walking 6)) (fun t => answered .ok 0x80000000 1 t && t.rxpCur == 10) ∧
    reaches (exec .rdi32 (walking 14)) (fun t => answered .boundsError 0 0 t && t.rxpCur == 14) := by decide

/-- Rows 8 and 17: the scale is tested before the bound. -/
theorem test_rdf16 :
    reaches (exec (.rdf16 0) (walking 14)) (answered .scaleZero 0 0) ∧
    reaches (exec (.rdf16 0xFFFFFFFF) (walking 2)) (fun t => answered .ok 0x7FFF 0xFFFFFFFF t && t.rxpCur == 4) := by
  decide

/-- Rows 18 and 19. -/
theorem test_rdf32 :
    reaches (exec (.rdf32 0) (walking 4)) (answered .scaleZero 0 0) ∧
    reaches (exec (.rdf32 1) (walking 4)) (fun t => answered .ok 0xFFFF8000 1 t && t.rxpCur == 8) := by decide

/-- Rows 13 and 14. -/
theorem test_curwr :
    reaches (exec (.curwr 16) (walking 0)) (fun t => answered .boundsError 0 0 t && t.rxpCur == 0) ∧
    reaches (exec (.curwr 15) (walking 0)) (fun t => answered .ok 15 0 t && t.rxpCur == 15) := by decide

/-- Rows 10 and 11. -/
theorem test_skip :
    reaches (exec (.skip 1) (walking 14)) (fun t => answered .ok 15 0 t && t.rxpCur == 15) ∧
    reaches (exec (.skip 1) (walking 15)) (fun t => answered .boundsError 0 0 t && t.rxpCur == 15) := by decide

/-- S1: 450 at scale 1000 is 0.450. -/
theorem test_scaled_value : denoted 0x1C2 1000 = 45 / 100 := by
  have h : denoted 0x1C2 1000 = (450 : Int) / (1000 : Nat) := rfl
  rw [h]
  norm_num

/-! ## CRC16 Validator: section 2.2 -/

set_option maxRecDepth 20000 in
theorem test_crc_check_value :
    crc16Xmodem [0x31, 0x32, 0x33, 0x34, 0x35, 0x36, 0x37, 0x38, 0x39] = 0x31C3 := by decide

set_option maxRecDepth 20000 in
theorem test_crc_running_value :
    crc16Xmodem [0x05, 0x00, 0x00, 0x61] = 0xC0C2 ∧ crc16Xmodem [0x05, 0x00, 0x00, 0x61, 0xA8] = 0x2FAE ∧
      crc16Xmodem [0x85, 0x00, 0x00, 0x61, 0xA8] = 0x0D7E ∧ crc16Xmodem [] = 0 := by decide

set_option maxRecDepth 20000 in
/-- R125: entries of the table the section names. -/
theorem test_crc_table :
    crcTable.length = 256 ∧ crcTable.getD 1 0 = 0x1021 ∧ crcTable.getD 16 0 = 0x1231 ∧
      crcTable.getD 128 0 = 0x9188 ∧ crcTable.getD 255 0 = 0x1EF0 := by decide

set_option maxRecDepth 20000 in
theorem test_crctx : reaches (exec .crctx (staging [0x05, 0x00, 0x00, 0x61, 0xA8])) (answered .ok 0x2FAE 0) := by decide

/-! ## Frame Codec: section 2.3 -/

set_option maxRecDepth 20000 in
theorem test_enc :
    reaches (exec .enc (staging [0x05, 0x00, 0x00, 0x61, 0xA8]))
      (fun t => t.outputs == [.frame [0x02, 0x05, 0x05, 0x00, 0x00, 0x61, 0xA8, 0x2F, 0xAE, 0x03],
        .response ⟨.ok, 10, 0⟩] && t.txpCur == 5) := by decide

/-- 256 bytes staged in a `TXP` of 300, `LONG_EN = false`. -/
theorem test_enc_length_unsupported :
    reaches (execWith { hardware with txpCap := 300 } .enc { State.reset with txpCur := 256 })
      (fun t => t.outputs == [.response ⟨.lengthUnsupported, 0, 0⟩] && t.txpCur == 256) := by decide

set_option maxRecDepth 20000 in
theorem test_decode_frame_results :
    decodeFrame hardware [] = .error .malformedHeader ∧
    decodeFrame hardware [0x02, 0x01, 0x04, 0x40, 0x84] = .error .malformedHeader ∧
    decodeFrame hardware [0x02, 0x01, 0x04, 0x40, 0x84, 0xFF] = .ok [0x04] ∧
    decodeFrame hardware [0x02, 0x01, 0x04, 0x40, 0x84, 0x03, 0x99] = .ok [0x04] ∧
    decodeFrame hardware [0x02, 0x01, 0x04, 0x40, 0x85, 0x03] = .error .integrityError ∧
    decodeFrame hardware [0x03, 0x00, 0x01, 0x04, 0x40, 0x84, 0x03] = .error .malformedHeader ∧
    decodeFrame (longParams 65541) [0x03, 0x00, 0x01, 0x04, 0x40, 0x84, 0x03] = .ok [0x04] ∧
    decodeFrame (longParams 65541) [0x03, 0x00] = .error .malformedHeader := by decide

set_option maxRecDepth 20000 in
theorem test_dec :
    reaches (exec .dec (reader .terminated askFrame 1 6))
      (fun t => answered .ok 1 0 t && statusWord t == 0x0B && t.rxpLen == 1 && t.rxp.readBytes 0 1 == [0x04]) := by
  decide

set_option maxRecDepth 20000 in
theorem test_dec_integrity :
    reaches (exec .dec (reader .terminated [0x02, 0x01, 0x05, 0x40, 0x84, 0x03] 1 6))
      (fun t => answered .integrityError 0 0 t && statusWord t == 0x03 && t.rxpLen == 0) := by decide

/-! ## Frame Reader: section 2.4 -/

theorem test_rxstart :
    reaches (exec .rxstart (walking 3))
      (fun t => answered .ok 0 0 t && statusWord t == 0x01 && t.rxpLen == 0 && t.rxpCur == 0 && t.rxCount == 0) := by
  decide

theorem test_rxbyte_length :
    reaches (exec (.rxbyte 0x01) (reader .waitingForHeader [0x02] 0 0))
      (fun t => statusWord t == 0x02 && t.rxCount == 2 && t.rxLen == 1 && t.rxExpect == 6) := by decide

theorem test_rxbyte_terminator :
    reaches (exec (.rxbyte 0x03) (reader .accumulatingPayload [0x02, 0x01, 0x04, 0x40, 0x84] 1 6))
      (fun t => statusWord t == 0x03 && t.rxCount == 6 && t.rxf.readBytes 0 6 == askFrame) := by decide

/-- `02 FC` with `FRAME_CAP = 256`, `02 FB` beside it; `03` with `LONG_EN` either way. -/
theorem test_header_bounds :
    reaches (execWith (shortParams 256) (.rxbyte 0xFC) (reader .waitingForHeader [0x02] 0 0))
      (fun t => statusWord t == 0x05 && t.rxCount == 1 && t.rxLen == 0) ∧
    reaches (execWith (shortParams 256) (.rxbyte 0xFB) (reader .waitingForHeader [0x02] 0 0))
      (fun t => statusWord t == 0x02 && t.rxLen == 251 && t.rxExpect == 256) ∧
    reaches (exec (.rxbyte 0x03) (reader .waitingForHeader [] 0 0)) (fun t => statusWord t == 0x05 && t.rxCount == 0) ∧
    reaches (execWith (longParams 65541) (.rxbyte 0x03) (reader .waitingForHeader [] 0 0))
      (fun t => statusWord t == 0x11 && t.rxCount == 1) := by decide

/-- `03 FF FF` with `FRAME_CAP` 65541 and 65540. -/
theorem test_long_bounds :
    reaches (execWith (longParams 65541) (.rxbyte 0xFF) (longReader .waitingForHeader [0x03, 0xFF] 0 0))
      (fun t => statusWord t == 0x12 && t.rxLen == 65535 && t.rxExpect == 65541) ∧
    reaches (execWith (longParams 65540) (.rxbyte 0xFF) (longReader .waitingForHeader [0x03, 0xFF] 0 0))
      (fun t => statusWord t == 0x15 && t.rxCount == 2 && t.rxLen == 0) := by decide

/-- `RXFRAME 02 05 05 00`, then `RXEXPIRE`. -/
theorem test_rxexpire :
    reaches (exec .rxexpire (reader .accumulatingPayload [0x02, 0x05, 0x05, 0x00] 5 10))
      (fun t => statusWord t == 0x04 && t.rxCount == 4 && t.rxExpect == 10 && t.rxLen == 5 && t.outputs == []) ∧
    reaches (exec .rxexpire (walking 0)) (fun t => t == walking 0) := by decide

/-- A payload byte 3 does not end a frame; a wrong last byte does not either. -/
theorem test_frame_short :
    reaches (exec (.frameShort [0x02, 0x03] 0x56 0x01 0x03) (reader .waitingForHeader [] 0 0))
      (fun t => statusWord t == 0x03 && t.rxCount == 7 && t.rxExpect == 7) ∧
    reaches (exec (.frameShort [0x04] 0x40 0x84 0x04) (reader .waitingForHeader [] 0 0))
      (fun t => statusWord t == 0x02 && t.rxCount == 6 && t.rxExpect == 6) := by decide

/-- `03 00 01 04 40 84 03`, `LONG_EN` either way. -/
theorem test_frame_long :
    reaches (execWith (longParams 65541) (.frameLong [0x04] 0x40 0x84 0x03) (reader .waitingForHeader [] 0 0))
      (fun t => statusWord t == 0x13 && t.rxCount == 7 && t.rxLen == 1 && t.rxExpect == 7) ∧
    reaches (exec (.frameLong [0x04] 0x40 0x84 0x03) (reader .waitingForHeader [] 0 0))
      (fun t => statusWord t == 0x05 && t.rxCount == 0) := by decide

/-! ## Control operations: section 2.5 -/

theorem test_rdreg :
    reaches (exec (.rdreg 0) (walking 3)) (answered .ok 0x0B 0) ∧ reaches (exec (.rdreg 6) (walking 3)) (answered .ok 3 0) ∧
    reaches (exec (.rdreg 7) (walking 3)) (answered .illegalOp 0 0) := by decide

theorem test_reserved :
    reaches (exec .reserved0 (walking 3)) (answered .illegalOp 0 0) ∧
    reaches (exec .reservedF (walking 3)) (answered .illegalOp 0 0) := by decide

theorem test_reset :
    reaches (exec .reset { walking 3 with txpCur := 5 })
      (fun t => statusWord t == 0 && t.txpCur == 0 && t.rxpCur == 0 && t.rxpLen == 0 && t.outputs == []) := by decide

theorem test_response_word : Response.word ⟨.boundsError, 0, 0⟩ = 0x60000000000000000 := by decide

/-- A step from reset takes the word given to it. -/
theorem test_step_runs_the_word :
    reaches (step (State.reset.withFetchWord 40 0x200000005)) (answered .ok 1 0) ∧
    reaches (step (State.reset.withFetchWord 8 0x5A)) (fun t => t == State.reset) := by decide

/-! ## The host's use of the block -/

/-- S2: `setDuty(0.25)`; and the expansions of R200 and R201. -/
theorem test_set_duty :
    (HostCommand.setDuty 0).scale.map (quantise (1 / 4)) = some 25000 ∧
    HostCommand.getTelemetry.scale = none ∧
    (HostCommand.setDuty 25000).payload recommendedIds = [0x05, 0x00, 0x00, 0x61, 0xA8] ∧
    (HostCommand.setDuty 25000).expand recommendedIds = [.txclr, .appu8 5, .appi32 25000, .enc] ∧
    HostCommand.getTelemetry.expand recommendedIds = [.txclr, .appu8 4, .enc] := by
  refine ⟨?_, rfl, by decide, by decide, by decide⟩
  have h : quantise (1 / 4) 100000 = (1 / 4 * (100000 : Nat) : Rat).floor := if_pos (by norm_num)
  rw [HostCommand.scale, Option.map_some, h, Option.some.injEq]
  norm_num
  exact Rat.floor_intCast 25000

/-- The reply of P4. -/
def reply : List Byte :=
  [0x04, 0x01, 0x3B, 0x01, 0x1C, 0x00, 0x00, 0x04, 0xD2, 0xFF, 0xFF, 0xFE, 0xBF] ++
  [0xA0, 0xA1, 0xA2, 0xA3, 0xA4, 0xA5, 0xA6, 0xA7, 0x01, 0xC2, 0xFF, 0xFF, 0xF4, 0x48] ++
  [0x01, 0xE1, 0x00, 0x00, 0x30, 0x39, 0x00, 0x00, 0x00, 0x64] ++
  [0xB0, 0xB1, 0xB2, 0xB3, 0xB4, 0xB5, 0xB6, 0xB7, 0x00, 0x01, 0x86, 0xA0, 0x00, 0x01, 0xE2, 0x40] ++
  [0x00, 0x00, 0x00, 0x07]

/-- The frame of P4. -/
def replyFrame : List Byte := [0x02, 0x39] ++ reply ++ [0xD3, 0xEC, 0x03]

/-- The gate variant of P4. -/
def shortReplyFrame : List Byte := [0x02, 0x37] ++ reply.take 55 ++ [0xD3, 0x96, 0x03]

/-! ## Witnesses -/

set_option maxRecDepth 20000 in
theorem inv_reset : Inv hardware State.reset := by
  constructor <;> first | decide | exact fun _ => rfl

set_option maxRecDepth 20000 in
theorem inv_walking : Inv hardware (walking 0) := by
  constructor <;> first | decide | exact fun _ => rfl

set_option maxRecDepth 20000 in
theorem inv_received : Inv hardware (reader .terminated askFrame 1 6) := by
  constructor <;> first | decide | exact fun _ => rfl

set_option maxRecDepth 20000 in
theorem inv_corrupted : Inv hardware (reader .terminated [0x02, 0x01, 0x05, 0x40, 0x84, 0x03] 1 6) := by
  constructor <;> first | decide | exact fun _ => rfl

set_option maxRecDepth 20000 in
theorem inv_waiting : Inv hardware (reader .waitingForHeader [] 0 0) := by
  constructor <;> first | decide | exact fun _ => rfl

set_option maxRecDepth 20000 in
theorem inv_timedOut : Inv hardware (reader .timedOut [] 0 0) := by
  constructor <;> first | decide | exact fun _ => rfl

set_option maxRecDepth 20000 in
theorem inv_malformedHeader : Inv hardware (reader .malformedHeader [] 0 0) := by
  constructor <;> first | decide | exact fun _ => rfl

set_option maxRecDepth 20000 in
theorem inv_reset_long : Inv (longParams 65541) State.reset := by
  constructor <;> first | decide | exact fun _ => rfl

set_option maxRecDepth 20000 in
theorem inv_long_received :
    Inv (longParams 65541) (longReader .terminated [0x03, 0x00, 0x01, 0x04, 0x40, 0x84, 0x03] 1 7) := by
  constructor <;> first | decide | exact fun _ => rfl

theorem valid_parameters : hardware.valid = true ∧ (longParams 65541).valid = true := by decide


/-! Encodings and the step -/

theorem witness_DecodeOfEncodeIsTheInstruction :
    (Instr.frameShort (List.replicate 255 0xAB) 1 2 4).wf = true ∧
      (Instr.frameLong (List.replicate 65535 0xAB) 1 2 4).wf = true ∧ (Instr.curwr 0xFFFF).wf = true := by
  simp only [Instr.wf, List.length_replicate]
  decide

theorem witness_StepRunsTheDecodedInput :
    ∃ s : State, s.pending = [.serial [0x02, 0x00], .expire 1] ∧
      decode (.serial [0x02, 0x00]) = .ok (.rxbyte 0x02, [0x00]) :=
  ⟨{ State.reset with pending := [.serial [0x02, 0x00], .expire 1] }, rfl, by decide⟩

theorem witness_AnEncodedInputIsRun :
    ∃ s : State, (Instr.appu8 5).wf = true ∧ s.pending = encode (.appu8 5) :: [.expire 1] :=
  ⟨{ State.reset with pending := [encode (.appu8 5), .expire 1] }, rfl, rfl⟩

theorem witness_WithoutAnEventTheStateIsHeld :
    State.reset.pending = [] ∧ ∃ s : State, s.pending = .expire 0 :: [.expire 1] :=
  ⟨rfl, { State.reset with pending := [.expire 0, .expire 1] }, rfl⟩

/-! Invariants, totality, noninterference -/

theorem witness_EveryStepKeepsTheInvariants :
    ∃ s t : State, hardware.valid = true ∧ Inv hardware s ∧ step s = .next t ∧ t.txpCur = 1 :=
  ⟨{ State.reset with pending := [encode (.appu8 5)] }, _, by decide, by constructor <;> first | decide | exact fun _ => rfl, rfl, by decide⟩

theorem witness_EveryInputHasADefinedResult :
    (longParams 65541).valid = true ∧ Inv (longParams 65541) State.reset ∧ Inv hardware (walking 0) :=
  ⟨by decide, inv_reset_long, inv_walking⟩

theorem witness_BytesOutsideTheValidPrefixesAreNeverSeen :
    ∃ s t : State, hardware.valid = true ∧ Inv hardware s ∧ Inv hardware t ∧ SameVisible s t ∧ s ≠ t :=
  ⟨State.reset, { State.reset with txp := [(7, 1)], rxf := [(0, 9)], rxp := [(254, 3)] }, by decide, inv_reset,
    by constructor <;> first | decide | exact fun _ => rfl, by constructor <;> first | rfl | (intro a ha; exact absurd ha (Nat.not_lt_zero a)),
    by decide⟩

theorem witness_ReceptionDependsOnlyOnWhatFollowsRxstart :
    ∃ s t : State, hardware.valid = true ∧ Inv hardware s ∧ Inv hardware t ∧ s.txpCur = t.txpCur ∧
      (∀ a, a < s.txpCur.toNat → s.txp.read a = t.txp.read a) ∧ s.pending = t.pending ∧ s.outputs = t.outputs ∧
      s.rxState ≠ t.rxState :=
  ⟨walking 0, State.reset, by decide, inv_walking, inv_reset, rfl, fun _ _ => rfl, rfl, rfl, by decide⟩

theorem witness_TransmitAndReceiveShareNoState :
    (∃ b, Instr.appu8 9 = .appu8 b) ∧ (∃ l h c e, Instr.frameShort [4] 1 2 3 = .frameShort l h c e) :=
  ⟨⟨9, rfl⟩, [4], 1, 2, 3, rfl⟩

/-! Fixed-Point Codec -/

theorem witness_Appu8AppendsOneByteOrFails :
    (∃ s : State, s.txp.wf = true ∧ s.txpCur.toNat + 1 = hardware.txpCap) ∧
      ∃ s : State, s.txp.wf = true ∧ hardware.txpCap < s.txpCur.toNat + 1 :=
  ⟨⟨{ State.reset with txp := [(3, 1)], txpCur := 254 }, by decide, by decide⟩,
    { State.reset with txp := [(3, 1)], txpCur := 255 }, by decide, by decide⟩

theorem witness_Appi32AppendsFourBigEndianBytesOrFails :
    (∃ s : State, s.txp.wf = true ∧ s.txpCur.toNat + 4 = hardware.txpCap) ∧
      ∃ s : State, s.txp.wf = true ∧ hardware.txpCap + 1 = s.txpCur.toNat + 4 :=
  ⟨⟨{ State.reset with txp := [(3, 1)], txpCur := 251 }, by decide, by decide⟩,
    { State.reset with txp := [(3, 1)], txpCur := 252 }, by decide, by decide⟩

/-- For the integer and the scaled reads: the field ends at the payload's last byte, or one past it. -/
theorem witness_reads_at_the_bound :
    (walking 13).rxpLen.toNat ≤ hardware.rxpCap ∧ (walking 13).rxpCur.toNat + 2 = (walking 13).rxpLen.toNat ∧
    (walking 14).rxpLen.toNat < (walking 14).rxpCur.toNat + 2 ∧
    (walking 11).rxpCur.toNat + 4 = (walking 11).rxpLen.toNat ∧
    (walking 12).rxpLen.toNat < (walking 12).rxpCur.toNat + 4 ∧ (1 : Word) ≠ 0 ∧ (0xFFFFFFFF : Word) ≠ 0 := by decide

theorem witness_ReadsDenoteTheCodecFunctions :
    hardware.valid = true ∧ Inv hardware (walking 0) ∧ (10 : Word) ≠ 0 ∧
      (∃ x c, readInt16 (walking 0).rxp (walking 0).rxpLen.toNat (walking 0).rxpCur.toNat = some (x, c)) ∧
      (∃ x c, readInt32 (walking 0).rxp (walking 0).rxpLen.toNat (walking 0).rxpCur.toNat = some (x, c)) ∧
      (∃ x c, readFloat16 (walking 0).rxp (walking 0).rxpLen.toNat 10 (walking 0).rxpCur.toNat = some (x, c)) ∧
      (∃ x c, readFloat32 (walking 0).rxp (walking 0).rxpLen.toNat 10 (walking 0).rxpCur.toNat = some (x, c)) ∧
      Inv hardware State.reset ∧ readInt16 State.reset.rxp State.reset.rxpLen.toNat State.reset.rxpCur.toNat = none ∧
      readInt32 State.reset.rxp State.reset.rxpLen.toNat State.reset.rxpCur.toNat = none ∧
      readFloat16 State.reset.rxp State.reset.rxpLen.toNat 10 State.reset.rxpCur.toNat = none ∧
      readFloat32 State.reset.rxp State.reset.rxpLen.toNat 10 State.reset.rxpCur.toNat = none :=
  ⟨by decide, inv_walking, by decide, ⟨_, _, rfl⟩, ⟨_, _, rfl⟩, ⟨_, _, rfl⟩, ⟨_, _, rfl⟩, inv_reset, rfl, rfl, rfl, rfl⟩

theorem witness_cursor_moves :
    (15 : BitVec 16).toNat = (walking 3).rxpLen.toNat ∧ (walking 3).rxpLen.toNat + 1 = (16 : BitVec 16).toNat ∧
    (walking 3).rxpCur.toNat + (12 : BitVec 16).toNat = (walking 3).rxpLen.toNat ∧
    (walking 3).rxpLen.toNat + 1 = (walking 3).rxpCur.toNat + (13 : BitVec 16).toNat := by decide

theorem witness_AppendThenReadGivesTheSameValue :
    ∃ (m m' : Memory) (cap len c c' : Nat) (v : Word), m.wf = true ∧ c + 4 = len ∧ c + 4 = cap ∧
      appendInt32 m cap v c = some (m', c') ∧ m.read c ≠ m'.read c :=
  ⟨[(3, 1)], [(0, 0x80)], 4, 4, 0, 4, 0x80000000, by decide, rfl, rfl, by decide, by decide⟩

/-! CRC16 Validator -/

theorem witness_CrctxAnswersTheCrcOfTheStagedPayload :
    (∃ s : State, s.txpCur.toNat = hardware.txpCap) ∧ (staging [4]).txpCur.toNat ≤ hardware.txpCap ∧
      ∃ frame, encodeFrame hardware ((staging [4]).txp.readBytes 0 (staging [4]).txpCur.toNat) = .ok frame :=
  ⟨⟨{ State.reset with txpCur := 255 }, by decide⟩, by decide, _, rfl⟩

theorem witness_RecommendedCrcIsSingleBitSensitive :
    ∃ (bytes : List Byte) (i j : Nat), i < bytes.length ∧ j < 8 ∧ flipBit bytes i j ≠ bytes :=
  ⟨[5, 0], 1, 7, by decide, by decide, by decide⟩

theorem witness_RecommendedCrcIsLinear : ([5, 0] : List Byte).length = ([7, 9] : List Byte).length := rfl

/-! Frame Codec -/

theorem witness_EncEmitsTheFrameOfTheStagedPayload :
    (∃ s : State, s.txpCur.toNat = 255) ∧ ∃ s : State, s.txpCur.toNat = 256 :=
  ⟨⟨{ State.reset with txpCur := 255 }, by decide⟩, { State.reset with txpCur := 256 }, by decide⟩

/-- Short framing with a `TXP` of 300 bytes, so that `ENC` can be asked for a payload it does not support. -/
def wideParams : Params := { hardware with txpCap := 300 }

theorem too_long (payload : List Byte) (h : payload.length = 256) :
    encodeFrame wideParams payload = .error .lengthUnsupported := by
  have hk : encodeKind wideParams 256 = .error .lengthUnsupported := rfl
  simp only [encodeFrame, h, hk]

theorem witness_EncAppliesEncodeFrame :
    (hardware.valid = true ∧ Inv hardware (staging [4]) ∧
      ∃ frame, encodeFrame hardware ((staging [4]).txp.readBytes 0 (staging [4]).txpCur.toNat) = .ok frame) ∧
    (∃ s : State, wideParams.valid = true ∧ wideParams.longEn = false ∧ Inv wideParams s ∧ s.txpCur.toNat = 256 ∧
      encodeFrame wideParams (s.txp.readBytes 0 s.txpCur.toNat) = .error .lengthUnsupported) ∧
    ∃ s : State, (longParams 65541).valid = true ∧ (longParams 65541).longEn = true ∧ Inv (longParams 65541) s ∧
      s.txpCur.toNat = 256 :=
  ⟨⟨by decide, by constructor <;> first | decide | exact fun _ => rfl, _, rfl⟩,
    ⟨{ State.reset with txpCur := 256 }, by decide, rfl, by constructor <;> first | decide | exact fun _ => rfl,
      by decide, too_long _ (Memory.length_readBytes _ 0 256)⟩,
    { State.reset with txpCur := 256 }, by decide, rfl, by constructor <;> first | decide | exact fun _ => rfl, by decide⟩

theorem witness_DecodeFrameOfEncodeFrameIsThePayload :
    (∃ frame, encodeFrame hardware (List.replicate 255 1) = .ok frame) ∧
      ∃ frame, encodeFrame (longParams 65541) (List.replicate 256 1) = .ok frame := by
  have hs : encodeKind hardware 255 = .ok .short := rfl
  have hl : encodeKind (longParams 65541) 256 = .ok .long := rfl
  simp only [encodeFrame, List.length_replicate, hs, hl]
  exact ⟨⟨_, rfl⟩, _, rfl⟩

theorem witness_EveryPayloadComesBackThroughTheReader :
    ∃ frame, hardware.valid = true ∧ Inv hardware (walking 0) ∧ encodeFrame hardware [4] = .ok frame ∧
      frame.length ≤ hardware.frameCap :=
  ⟨_, by decide, inv_walking, rfl, by decide⟩

/-- The exclusive or of the bytes: a single-bit sensitive checksum that is quickly seen to be one. -/
def parity (bytes : List Byte) : BitVec 16 := (bytes.foldr (· ^^^ ·) 0).setWidth 16

theorem parity_sensitive : SingleBitSensitive parity := by
  intro bytes i j hi hj
  have key : ∀ (l : List Byte) (i : Nat), i < l.length →
      (flipBit l i j).foldr (· ^^^ ·) 0 = l.foldr (· ^^^ ·) 0 ^^^ (1#8 <<< j) := by
    intro l
    induction l with
    | nil => intro i h; exact absurd h (Nat.not_lt_zero i)
    | cons x l ih =>
      intro i h
      cases i with
      | zero => simp [flipBit, BitVec.xor_assoc, BitVec.xor_comm (1#8 <<< j)]
      | succ i =>
        have := ih i (by simpa using h)
        simp only [flipBit, List.modify_succ_cons, List.foldr_cons] at this ⊢
        rw [this, BitVec.xor_assoc]
  intro h
  rw [parity, parity, key bytes i hi] at h
  have h8 : ∀ x y : Byte, x.setWidth 16 = y.setWidth 16 → x = y := by
    intro x y h
    have := congrArg BitVec.toNat h
    apply BitVec.eq_of_toNat_eq
    simp only [BitVec.toNat_setWidth] at this
    have := x.isLt
    have := y.isLt
    omega
  have h0 := congrArg (bytes.foldr (· ^^^ ·) 0 ^^^ ·) (h8 _ _ h)
  simp only [← BitVec.xor_assoc, BitVec.xor_self, BitVec.zero_xor] at h0
  revert h0
  have : ∀ j < 8, (1#8 <<< j) ≠ 0#8 := by decide
  exact this j hj

/-- A Short frame and, with Long framing, a Long one. -/
theorem witness_AFlippedPayloadBitIsAnIntegrityError :
    (∃ (p : Params) (payload frame : List Byte), SingleBitSensitive p.crc16 ∧ encodeFrame p payload = .ok frame ∧
      0 < payload.length ∧ payload.length ≤ 255) ∧
    ∃ (p : Params) (payload frame : List Byte), SingleBitSensitive p.crc16 ∧ encodeFrame p payload = .ok frame ∧
      255 < payload.length := by
  let p : Params := { longParams 65541 with crc16 := parity }
  have hl : encodeKind p 256 = .ok .long := rfl
  exact ⟨⟨{ hardware with crc16 := parity }, [4, 5], _, parity_sensitive, rfl, by decide, by decide⟩,
    p, List.replicate 256 1, buildFrame p .long (List.replicate 256 1), parity_sensitive,
    by rw [encodeFrame, List.length_replicate, hl], by rw [List.length_replicate]; decide⟩

/-- The five clauses in turn. -/
theorem witness_DecValidatesTheReceivedFrame :
    (Inv hardware (reader .waitingForHeader [] 0 0) ∧ (reader .waitingForHeader [] 0 0).rxState = .waitingForHeader) ∧
    (Inv hardware (reader .timedOut [] 0 0) ∧ (reader .timedOut [] 0 0).rxState = .timedOut) ∧
    (Inv hardware (reader .malformedHeader [] 0 0) ∧
      (reader .malformedHeader [] 0 0).rxState = .malformedHeader) ∧
    (∃ s, Inv hardware s ∧ s.rxState = .terminated ∧ hardware.crc16 (s.rxf.readBytes 2 s.rxLen.toNat) =
      s.rxf.read (2 + s.rxLen.toNat) ++ s.rxf.read (3 + s.rxLen.toNat)) ∧
    ∃ s, Inv hardware s ∧ s.rxState = .terminated ∧ hardware.crc16 (s.rxf.readBytes 2 s.rxLen.toNat) ≠
      s.rxf.read (2 + s.rxLen.toNat) ++ s.rxf.read (3 + s.rxLen.toNat) :=
  ⟨⟨inv_waiting, rfl⟩, ⟨inv_timedOut, rfl⟩, ⟨inv_malformedHeader, rfl⟩,
    ⟨_, inv_received, rfl, by decide⟩, _, inv_corrupted, rfl, by decide⟩

set_option maxRecDepth 20000 in
/-- The two cases of `Terminated`, beside the states of the theorem before. -/
theorem witness_DecAppliesDecodeFrame :
    hardware.valid = true ∧
    (Inv hardware (reader .waitingForHeader [] 0 0) ∧ Inv hardware (reader .timedOut [] 0 0) ∧
      Inv hardware (reader .malformedHeader [] 0 0)) ∧
    (∃ s payload, Inv hardware s ∧ s.rxState = .terminated ∧
      decodeFrame hardware (s.rxf.readBytes 0 s.rxCount.toNat) = .ok payload ∧ payload = [0x04]) ∧
    ∃ s e, Inv hardware s ∧ s.rxState = .terminated ∧
      decodeFrame hardware (s.rxf.readBytes 0 s.rxCount.toNat) = .error e :=
  ⟨by decide, ⟨inv_waiting, inv_timedOut, inv_malformedHeader⟩, ⟨_, _, inv_received, rfl, by decide, rfl⟩,
    _, .integrityError, inv_corrupted, rfl, by decide⟩

theorem witness_RepeatedCommandsAnswerTheSame :
    ∃ t, hardware.valid = true ∧ Inv hardware (reader .terminated askFrame 1 6) ∧
      execWith hardware .dec (reader .terminated askFrame 1 6) = .next t :=
  ⟨_, by decide, inv_received, rfl⟩

/-! Frame Reader -/

/-- The three clauses in turn; the last one for 3 without Long framing and for a byte that is no marker. -/
theorem witness_TheFirstByteSelectsTheKind :
    hardware.valid = true ∧ (longParams 65541).valid = true ∧ (reader .waitingForHeader [] 0 0).rxf.wf = true ∧
      (reader .waitingForHeader [] 0 0).rxState = .waitingForHeader ∧
      (reader .waitingForHeader [] 0 0).rxCount = 0 ∧
      (longParams 65541).longEn = true ∧
      ((0x03 : Byte) ≠ 0x02 ∧ ¬((0x03 : Byte) = 0x03 ∧ hardware.longEn = true)) ∧
      ((0x01 : Byte) ≠ 0x02 ∧ ¬((0x01 : Byte) = 0x03 ∧ (longParams 65541).longEn = true)) := by decide

theorem witness_TheShortLengthByteSetsTheExpectedTotal :
    (shortParams 256).valid = true ∧ (reader .waitingForHeader [2] 0 0).rxf.wf = true ∧
      (reader .waitingForHeader [2] 0 0).rxState = .waitingForHeader ∧
      (reader .waitingForHeader [2] 0 0).rxCount = 1 ∧ (reader .waitingForHeader [2] 0 0).rxKind = .short ∧
      (0xFB : Byte).toNat + 5 = (shortParams 256).frameCap ∧
      (shortParams 256).frameCap + 1 = (0xFC : Byte).toNat + 5 := by decide

/-- The four clauses in turn. -/
theorem witness_LongHeadersAreReadWhenEnabled :
    (longParams 65541).valid = true ∧ (longParams 65540).valid = true ∧ (longParams 65541).longEn = true ∧
    (longReader .waitingForHeader [3, 255] 0 0).rxf.wf = true ∧
    (reader .waitingForHeader [] 0 0).rxCount = 0 ∧
    ((longReader .waitingForHeader [3] 0 0).rxCount = 1 ∧ (longReader .waitingForHeader [3] 0 0).rxKind = .long) ∧
    ((longReader .waitingForHeader [3, 255] 0 0).rxCount = 2 ∧
      ((longReader .waitingForHeader [3, 255] 0 0).rxf.read 1).toNat * 256 + (255 : Byte).toNat + 6 =
        (longParams 65541).frameCap ∧
      (longParams 65540).frameCap + 1 =
        ((longReader .waitingForHeader [3, 255] 0 0).rxf.read 1).toNat * 256 + (255 : Byte).toNat + 6) := by decide

/-- A byte before the end-of-frame offset and the byte at it. -/
theorem witness_BytesAccumulateUntilTheTerminator :
    (reader .accumulatingPayload [2, 1] 1 6).rxf.wf = true ∧
    (reader .accumulatingPayload [2, 1] 1 6).rxState = .accumulatingPayload ∧
    (reader .accumulatingPayload [2, 1] 1 6).rxCount.toNat + 1 < (reader .accumulatingPayload [2, 1] 1 6).rxExpect.toNat ∧
    (reader .accumulatingPayload [2, 1, 4, 64, 132] 1 6).rxCount.toNat + 1 =
      (reader .accumulatingPayload [2, 1, 4, 64, 132] 1 6).rxExpect.toNat ∧
    (reader .accumulatingPayload [2, 1] 1 6).rxExpect.toNat ≤ hardware.frameCap := by decide

theorem witness_DroppedAndUnacceptedBytesChangeNothing :
    ((reader .accumulatingPayload [2, 1, 4, 64, 132, 4] 1 6).rxState = .accumulatingPayload ∧
      (reader .accumulatingPayload [2, 1, 4, 64, 132, 4] 1 6).rxCount =
        (reader .accumulatingPayload [2, 1, 4, 64, 132, 4] 1 6).rxExpect) ∧ rxReady State.reset = false := by decide

theorem witness_RxexpireTimesOutAnActiveReader :
    (reader .accumulatingPayload [2, 1] 1 6).rxState = .accumulatingPayload ∧
      State.reset.rxState ≠ .waitingForHeader ∧ State.reset.rxState ≠ .accumulatingPayload := by decide

theorem witness_TerminalStatesAreLeftOnlyByRxstartAndReset :
    ∃ t, execWith hardware .dec (reader .terminated askFrame 1 6) = .next t ∧
      (reader .terminated askFrame 1 6).rxState = .terminated ∧ Instr.dec.isCommand = true ∧
      Instr.dec ≠ .rxstart ∧ Instr.dec ≠ .reset :=
  ⟨_, rfl, rfl, rfl, by decide, by decide⟩

theorem witness_AfterATimeoutNothingIsReturned :
    hardware.valid = true ∧ Inv hardware (reader .waitingForHeader [] 0 0) ∧
      (reader .waitingForHeader [] 0 0).rxState.active = true ∧
      (∀ i ∈ [Instr.rxbyte 0x03, .dec, .curwr 0], i ≠ .rxstart ∧ i ≠ .reset) ∧
      Inv hardware State.reset ∧
      ∃ u, runWith hardware (.rxstart :: [0x02, 0x01].map .rxbyte) State.reset = .next u ∧ u.rxState.active = true :=
  ⟨by decide, inv_waiting, rfl, by decide, inv_reset, _, rfl, rfl⟩

/-- For the Short and the Long frame: the longest payload a Short frame and this buffer take, both last bytes. -/
theorem witness_frames_arriving :
    (reader .waitingForHeader [] 0 0).rxf.wf = true ∧ (reader .waitingForHeader [] 0 0).rxState = .waitingForHeader ∧
      (reader .waitingForHeader [] 0 0).rxCount = 0 ∧ (List.replicate 255 (0 : Byte)).length ≤ 255 ∧
      (longParams 262).valid = true ∧ (longParams 262).longEn = true ∧
      (List.replicate 256 (0 : Byte)).length + 6 = (longParams 262).frameCap := by
  simp only [List.length_replicate]
  decide

/-! Control operations, errors, RESET -/

theorem witness_RdregAnswersTheNamedRegister : 7 ≤ (7 : BitVec 4).toNat ∧ 7 ≤ (15 : BitVec 4).toNat := by decide

/-- The last two clauses: the first register number that is refused, and a command that succeeds. -/
theorem witness_ReservedCodesAnswerIllegalOp :
    7 ≤ (BitVec.ofNat 4 (0x17 : BitVec 32).toNat).toNat ∧
      ∃ t r, (0xD : BitVec 4) ≠ 0x0 ∧ (0xD : BitVec 4) ≠ 0xF ∧
        ¬((0xD : BitVec 4) = 0xD ∧ 7 ≤ (BitVec.ofNat 4 (0x6 : BitVec 32).toNat).toNat) ∧
        exec (decodeCommand (0xD#4 ++ 0x6#32)) State.reset = .next t ∧ t.outputs.getLast? = some (.response r) :=
  ⟨by decide, _, _, by decide, by decide, by decide, rfl, rfl⟩

theorem witness_AFailedCommandWritesNothing :
    ∃ t r, Instr.dec.isCommand = true ∧ execWith hardware .dec State.reset = .next t ∧
      t.outputs.getLast? = some (.response r) ∧ r.status ≠ .ok :=
  ⟨_, _, rfl, rfl, rfl, by decide⟩

theorem witness_EveryAnswerIsOneTheOperationMayGive :
    ∃ t, Instr.crctx.isCommand = true ∧ execWith hardware .crctx (staging [4]) = .next t := ⟨_, rfl, rfl⟩

theorem witness_EachInputWritesOnlyWhatItMay :
    ∃ t u, execWith hardware .enc (staging [4]) = .next t ∧ Instr.enc.isCommand = true ∧
      execWith hardware .reset (walking 3) = .next u ∧ Instr.reset.isCommand = false := ⟨_, _, rfl, rfl, rfl, rfl⟩

theorem witness_WhatTheResetStateAnswers :
    ∃ t, exec .reset (walking 3) = .next t ∧ (6 : BitVec 4).toNat ≤ 6 ∧ (1 : Word) ≠ 0 ∧ (1 : BitVec 16) ≠ 0 :=
  ⟨_, rfl, by decide, by decide, by decide⟩

/-! The host's use of the block -/

theorem witness_PseudoOperationsEmitTheirFrame :
    hardware.valid = true ∧ 5 ≤ hardware.txpCap ∧ Inv hardware (walking 0) ∧
      (HostCommand.setDuty 25000).param = some 25000 ∧ HostCommand.getTelemetry.param = none :=
  ⟨by decide, by decide, inv_walking, rfl, rfl⟩

set_option maxRecDepth 20000 in
theorem inv_reply : Inv hardware (decoded replyFrame reply 0) := by
  have h : decodeFrame hardware replyFrame = .ok reply := by decide
  have hf : (decoded replyFrame reply 0).rxf.readBytes 0 (decoded replyFrame reply 0).rxCount.toNat = replyFrame := by
    decide
  have hp : (decoded replyFrame reply 0).rxp.readBytes 0 (decoded replyFrame reply 0).rxpLen.toNat = reply := by decide
  constructor
  case provenance => exact fun _ => hf.symm ▸ hp.symm ▸ h
  all_goals first | decide | exact fun _ => rfl

set_option maxRecDepth 20000 in
theorem witness_TheTelemetryWalkFitsItsPayload :
    hardware.valid = true ∧ Inv hardware (decoded replyFrame reply 0) ∧
      53 ≤ (decoded replyFrame reply 0).rxpLen.toNat :=
  ⟨by decide, inv_reply, by decide⟩

set_option maxRecDepth 20000 in
theorem inv_short_reply : Inv hardware (reader .terminated shortReplyFrame 55 60) := by
  constructor <;> first | decide | exact fun _ => rfl

set_option maxRecDepth 20000 in
/-- The gate variant of P4: 55 bytes. -/
theorem witness_AShortReplyFailsAndKeepsTheSnapshot :
    hardware.valid = true ∧ Inv hardware (reader .terminated shortReplyFrame 55 60) ∧
      (reader .terminated shortReplyFrame 55 60).rxState = .terminated ∧
      decodeFrame hardware ((reader .terminated shortReplyFrame 55 60).rxf.readBytes 0
        (reader .terminated shortReplyFrame 55 60).rxCount.toNat) = .ok (reply.take 55) ∧
      (reply.take 55).length ≤ 55 :=
  ⟨by decide, inv_short_reply, rfl, by decide, by decide⟩

set_option maxRecDepth 20000 in
theorem inv_long_reply : Inv hardware (reader .terminated replyFrame 57 62) := by
  constructor <;> first | decide | exact fun _ => rfl

/-- Identifiers of another device: the reply of P4 is not get-telemetry's. -/
def otherIds : Params := { hardware with ids := { hardware.ids with getValues := 9 } }

set_option maxRecDepth 20000 in
theorem inv_long_reply_other : Inv otherIds (reader .terminated replyFrame 57 62) := by
  constructor <;> first | decide | exact fun _ => rfl

set_option maxRecDepth 20000 in
/-- R196, R198: another identifier fails right after `CURWR 0`, `RDI16`, so the cursor stays at 2. -/
theorem test_unknown_packet :
    (match readTelemetry otherIds (reader .terminated replyFrame 57 62) with
     | some (t, .error e) => e == .unknownPacket && t.rxpCur == 2
     | _ => false) = true := by decide

/-- The exchange of R198 with the reception of P7, and one the host still waits for, by both ways of polling. -/
theorem test_request_telemetry :
    ([Polling.status, .decode].all fun how =>
      (match requestTelemetry hardware how [.byte 0x05, .byte 0x02] State.reset with
       | some (t, some (.error e)) => e == .malformedHeader && t.rxCount == 0
       | _ => false) &&
      match requestTelemetry hardware how [.byte 0x02] State.reset with
      | some (t, none) => t.rxState == .waitingForHeader && t.rxCount == 1
      | _ => false) = true := by decide

set_option maxRecDepth 20000 in
/-- The reply of P4, with get-telemetry's identifier and with another. -/
theorem witness_ALongReplyGivesASnapshotOrUnknownPacket :
    (hardware.valid = true ∧ Inv hardware (reader .terminated replyFrame 57 62) ∧
      decodeFrame hardware ((reader .terminated replyFrame 57 62).rxf.readBytes 0
        (reader .terminated replyFrame 57 62).rxCount.toNat) = .ok (0x04 :: reply.drop 1) ∧
      (0x04 : Byte) = hardware.ids.getValues) ∧
    (otherIds.valid = true ∧ Inv otherIds (reader .terminated replyFrame 57 62) ∧
      decodeFrame otherIds ((reader .terminated replyFrame 57 62).rxf.readBytes 0
        (reader .terminated replyFrame 57 62).rxCount.toNat) = .ok (0x04 :: reply.drop 1) ∧
      (0x04 : Byte) ≠ otherIds.ids.getValues) ∧
    (reader .terminated replyFrame 57 62).rxState = .terminated ∧ 55 < (reply.drop 1).length + 1 :=
  ⟨⟨by decide, inv_long_reply, by decide, by decide⟩, ⟨by decide, inv_long_reply_other, by decide, by decide⟩, rfl,
    by decide⟩

/-- For the exchanges: the longest payload the gate refuses, and the shortest it lets through with either
identifier. -/
theorem witness_exchanges :
    hardware.valid = true ∧ Inv hardware State.reset ∧
    (∃ frame, encodeFrame hardware (List.replicate 55 0) = .ok frame ∧ frame.length ≤ hardware.frameCap) ∧
    (∃ frame, encodeFrame hardware (0x04 :: List.replicate 55 0) = .ok frame ∧ frame.length ≤ hardware.frameCap) ∧
    (∃ frame, encodeFrame hardware (0x05 :: List.replicate 55 0) = .ok frame ∧ frame.length ≤ hardware.frameCap) ∧
    55 < (List.replicate 55 (0 : Byte)).length + 1 ∧ (0x04 : Byte) = hardware.ids.getValues ∧
    (0x05 : Byte) ≠ hardware.ids.getValues :=
  ⟨by decide, inv_reset, ⟨_, rfl, by decide⟩, ⟨_, rfl, by decide⟩, ⟨_, rfl, by decide⟩, by decide, by decide,
    by decide⟩

theorem witness_QuantisedValuesComeBackWithinOneStep : 0 < 1000 ∧ 0 < 1 := by decide

end Sys2Proof.Tests
end

section
/-! SUPPORT. The decoder reads every encoding back whole, an unasserted strobe and an empty offer are no event, and
what one step does with the first pending input. -/

namespace Sys2Proof

/-! ## The decoder on encodings -/

/-- A field of at most 32 bits, put at the low end of the operand, is read back from there. -/
theorem extractLsb'_setWidth_operand {n : Nat} (h : n ≤ 32) (x : BitVec n) :
    (x.setWidth 32).extractLsb' 0 n = x := by
  rw [BitVec.extractLsb'_setWidth_of_le (by omega), BitVec.extractLsb'_eq_self]

/-- One byte is no whole frame. -/
@[simp] theorem splitFrame_singleton (b : Byte) : splitFrame [b] = none := by
  simp [splitFrame]

/-- A frame found at the front of the offered bytes is what the serial port decodes. -/
theorem decodeSerial_of_splitFrame {bytes : List Byte} {r : Instr × List Byte} (h : splitFrame bytes = some r) :
    decodeSerial bytes = .ok r := by
  cases bytes with
  | nil => simp [splitFrame] at h
  | cons b rest => simp [decodeSerial, h]

/-- The decoder is a left inverse of the encoder on well-formed instructions, with no serial byte left over. -/
theorem decode_encode {i : Instr} (h : i.wf = true) : decode (encode i) = .ok (i, []) := by
  cases i with
  | rxbyte b => simp [encode, decode, decodeSerial]
  | rxexpire | reset => rfl
  | frameShort payload crcHi crcLo last =>
    have hlen : payload.length ≤ 255 := by simpa [Instr.wf] using h
    exact decodeSerial_of_splitFrame (by simpa using splitFrame_short payload [] crcHi crcLo last hlen)
  | frameLong payload crcHi crcLo last =>
    have hlen : payload.length ≤ 65535 := by simpa [Instr.wf] using h
    exact decodeSerial_of_splitFrame (by simpa using splitFrame_long payload [] crcHi crcLo last hlen)
  | appu8 | curwr | rdreg | skip => simp [encode, decode, decodeCommand, extractLsb'_setWidth_operand]
  | reserved0 | txclr | appi32 | enc | rxstart | dec | rdi16 | rdi32 | rdf16 | rdf32 | crctx | reservedF =>
    simp [encode, decode, decodeCommand]

/-- What is no event does not decode: a strobe that is not asserted, an offer of no bytes (R86, log 7). -/
theorem decode_of_no_event {x : Input} (h : x = .expire 0 ∨ x = .reset 0 ∨ x = .serial []) :
    ∃ e, decode x = .error e := by
  obtain rfl | rfl | rfl := h
  · exact ⟨.strobeNotAsserted, rfl⟩
  · exact ⟨.strobeNotAsserted, rfl⟩
  · exact ⟨.noBytes, rfl⟩

/-- A table word of 40 bits is read as a command word (log 10). -/
theorem tableInput_command (w : BitVec 36) : tableInput 40 w.toNat = some (.command w) := by
  simp [tableInput, w.isLt]

end Sys2Proof

namespace Sys2Proof.Machine

/-! ## One step -/

theorem step_nil {s : State} (h : s.pending = []) : step s = .next s := by
  simp only [step, fetch_nil h]

theorem step_of_decode_ok {s : State} {x : Input} {rest : List Input} {i : Instr} {left : List Byte}
    (h : s.pending = x :: rest) (hd : decode x = .ok (i, left)) :
    step s = exec i { s with pending := putBack left rest } := by
  simp only [step, fetch_ok h hd]

theorem step_of_decode_error {s : State} {x : Input} {rest : List Input} {e : DecodeError}
    (h : s.pending = x :: rest) (hd : decode x = .error e) : step s = .next { s with pending := rest } := by
  simp only [step, fetch_error h hd]

/-- A command word is presented ahead of what is pending (log 8). -/
theorem withFetchWord_command (s : State) (w : BitVec 36) :
    s.withFetchWord 40 w.toNat = { s with pending := .command w :: s.pending } := by
  simp only [State.withFetchWord, tableInput_command]

/-- The input a command word stands for is taken by the next step, which leaves what was pending before. -/
theorem step_withFetchWord_command (s : State) (w : BitVec 36) :
    step (s.withFetchWord 40 w.toNat) = exec (decodeCommand w) s := by
  rw [withFetchWord_command]
  exact step_of_decode_ok (left := []) rfl rfl

end Sys2Proof.Machine
end

section
/-! The statements about the step (spec/00_scope.md). -/

namespace Sys2Proof.Machine

/-- Settles O8: the decoder reads the encoding back, with nothing left to put back. -/
theorem anEncodedInputIsRun : Obligations.AnEncodedInputIsRun := by
  unfold Obligations.AnEncodedInputIsRun
  refine ⟨fun s i rest hwf hp => ?_, fun s op a => step_withFetchWord_command s (op ++ a)⟩
  exact step_of_decode_ok hp (decode_encode hwf)

/-- Settles O6, arm by arm of the dispatch. -/
theorem execIsTheGenericMachineAtThisHardware : Obligations.ExecIsTheGenericMachineAtThisHardware :=
  ⟨hardware_valid, exec_eq_execWith, step_eq_stepWith⟩

/-- Settles O7: a step is what is fetched, executed. -/
theorem stepRunsTheDecodedInput : Obligations.StepRunsTheDecodedInput :=
  fun _ _ _ _ _ hp hd => step_of_decode_ok hp hd

/-- Settles O9: with nothing pending nothing is fetched, and what does not decode is dropped. -/
theorem withoutAnEventTheStateIsHeld : Obligations.WithoutAnEventTheStateIsHeld := by
  unfold Obligations.WithoutAnEventTheStateIsHeld
  refine ⟨fun s hp => step_nil hp, fun s x rest hp hx => ?_⟩
  obtain ⟨e, he⟩ := decode_of_no_event hx
  exact step_of_decode_error hp he

end Sys2Proof.Machine
end

section
/-! SUPPORT. That the invariants of R41 are kept (spec/10_state.md): one rule for each way an operation changes the
state, then one lemma per shared operation. -/

namespace Sys2Proof.Machine

theorem toNat_ofNat_le (w n : Nat) : (BitVec.ofNat w n).toNat ≤ n := by
  rw [BitVec.toNat_ofNat]
  exact Nat.mod_le n _

theorem Memory.read_write_self {m : Memory} (h : m.wf = true) (a : Nat) (b : Byte) : (m.write a b).read a = b := by
  rw [read_write h, if_pos rfl]

theorem Memory.read_write_below {m : Memory} (h : m.wf = true) {a x : Nat} (hx : x < a) (b : Byte) :
    (m.write a b).read x = m.read x := by
  rw [read_write h, if_neg (by omega)]

/-- No byte is stored past a buffer R7 admits, so the count of stored bytes does not wrap. -/
theorem toNat_rxCount_succ {p : Params} (hv : p.valid = true) {s : State} (h : s.rxCount.toNat + 1 ≤ p.frameCap) :
    (s.rxCount + 1).toNat = s.rxCount.toNat + 1 := by
  have := valid_bounds hv
  rw [BitVec.toNat_add, show BitVec.toNat (1 : BitVec 17) = 1 from rfl, Nat.mod_eq_of_lt (by omega)]

/-- A reader that holds no byte and no payload, in the given state. -/
def freshReader (x : RxState) (s : State) : State :=
  { s with
    rxState := x
    rxCount := 0
    rxKind := .short
    rxLen := 0
    rxExpect := 0
    rxpLen := 0
    rxpCur := 0
    rxpValid := false }

/-- After `RXSTART` a fresh reader waits (R161). -/
theorem opRxstart_eq (s : State) : opRxstart s = .next (respond .ok 0 0 (freshReader .waitingForHeader s)) := rfl

/-- After `RESET` a fresh reader is idle (R184). -/
theorem opReset_eq (s : State) : opReset s = .next { freshReader .idle s with txpCur := 0 } := rfl

section Rules
variable {p : Params} {s t : State}

/-! ## What the invariants do not look at -/

/-- The invariants speak of the block, not of its ports. -/
theorem Inv.of_block (h : Inv p s) (hb : t.toBlock = s.toBlock) : Inv p t := by
  obtain ⟨block, pending, outputs⟩ := t
  subst hb
  exact { h with }

/-- A response keeps the invariants. -/
theorem Inv.respond (h : Inv p s) (status : Status) (v0 v1 : Word) : Inv p (respond status v0 v1 s) :=
  h.of_block rfl

/-! ## The transmit side and the decoded payload -/

theorem Inv.transmit (h : Inv p s) {m : Memory} {c : BitVec 16} (hm : m.fits p.txpCap = true)
    (hc : c.toNat ≤ p.txpCap) : Inv p { s with txp := m, txpCur := c } :=
  { h with
    buffers := ⟨hm, h.buffers.2⟩
    txCursor := hc }

theorem Inv.moveRxpCur (h : Inv p s) {k : Nat} (hk : k ≤ s.rxpLen.toNat) :
    Inv p { s with rxpCur := BitVec.ofNat 16 k } :=
  { h with
    rxCursor := ⟨(toNat_ofNat_le 16 k).trans hk, h.rxCursor.2⟩
    noPayload := fun hb => by
      obtain ⟨hlen, -⟩ := h.noPayload hb
      have hk0 : k = 0 := by simpa [hlen] using hk
      exact ⟨hlen, by rw [hk0]; rfl⟩ }

theorem Inv.acceptPayload (h : Inv p s) {payload : List Byte} (hs : s.rxState = .terminated)
    (hd : decodeFrame p (s.rxf.readBytes 0 s.rxCount.toNat) = .ok payload) (hcap : payload.length ≤ p.rxpCap)
    (hlen : payload.length ≤ 65535) :
    Inv p
      { s with
        rxp := s.rxp.writeBytes 0 payload
        rxpLen := BitVec.ofNat 16 payload.length
        rxpCur := 0
        rxpValid := true } := by
  obtain ⟨htxp, hrxf, hrxp⟩ := h.buffers
  have hn : (BitVec.ofNat 16 payload.length).toNat = payload.length := by
    rw [BitVec.toNat_ofNat, Nat.mod_eq_of_lt (by omega)]
  exact
    { h with
      buffers := ⟨htxp, hrxf, Memory.writeBytes_fits hrxp (by omega)⟩
      rxCursor := ⟨Nat.zero_le _, hn.trans_le hcap⟩
      noPayload := nofun
      validTerminated := fun _ => hs
      provenance := fun _ => by
        simp only [hn, Memory.readBytes_writeBytes (Memory.fits_wf hrxp)]
        exact hd }

/-! ## The reader -/

/-- A payload is held only in `Terminated`, so none is while the reader is active. -/
theorem Inv.not_valid_of_active (h : Inv p s) (ha : s.rxState.active = true) : s.rxpValid = false := by
  cases hb : s.rxpValid with
  | false => rfl
  | true =>
    rw [h.validTerminated hb] at ha
    cases ha

/-- The end of a reception by the deadline or by a rejected header. -/
theorem Inv.ended (h : Inv p s) (ha : s.rxState.active = true) {x : RxState}
    (hx : x = .timedOut ∨ x = .malformedHeader) : Inv p { s with rxState := x } := by
  have hb := h.not_valid_of_active ha
  rcases hx with rfl | rfl <;>
  exact
    { h with
      expectation := by simp
      complete := nofun
      noExpectation := by simp
      idleCount := nofun
      validTerminated := by simp [hb]
      headerShort := nofun
      markerStored := by simp [RxState.active]
      lengthStored := by simp }

/-- With nothing received, only the buffers and the transmit cursor matter. -/
theorem inv_freshReader (hbuf : s.txp.fits p.txpCap ∧ s.rxf.fits p.frameCap ∧ s.rxp.fits p.rxpCap)
    (htx : s.txpCur.toNat ≤ p.txpCap) {x : RxState} (hx : x = .idle ∨ x = .waitingForHeader) :
    Inv p (freshReader x s) where
  buffers := hbuf
  txCursor := htx
  rxCursor := ⟨le_refl _, Nat.zero_le _⟩
  noPayload _ := ⟨rfl, rfl⟩
  countInBuffer := Nat.zero_le _
  expectation := by rcases hx with rfl | rfl <;> simp [freshReader]
  complete := by rcases hx with rfl | rfl <;> simp [freshReader]
  noExpectation _ := ⟨rfl, rfl⟩
  idleCount _ := rfl
  shortOnly _ := rfl
  validTerminated := nofun
  headerShort _ := Nat.zero_le _
  markerStored _ := by simp [freshReader]
  lengthStored := by rcases hx with rfl | rfl <;> simp [freshReader]
  provenance := nofun

/-- A reader still in the header after one more byte: what has to hold of the count, the kind and the marker. -/
theorem Inv.storedInHeader (hv : p.valid = true) (h : Inv p s) (hs : s.rxState = .waitingForHeader) (b : Byte)
    {k : FrameKind} (hk : p.longEn = false → k = .short) (hc : s.rxCount.toNat ≤ k.code.toNat)
    (hm : (s.rxf.write s.rxCount.toNat b).read 0 = k.marker) :
    Inv p { s with rxf := s.rxf.write s.rxCount.toNat b, rxCount := s.rxCount + 1, rxKind := k } := by
  obtain ⟨htxp, hrxf, hrxp⟩ := h.buffers
  have hcap := valid_bounds hv
  have hcode := k.code.isLt
  have hn := toNat_rxCount_succ hv (s := s) (by omega)
  have hb := h.not_valid_of_active (by rw [hs]; rfl)
  exact
    { h with
      buffers := ⟨htxp, Memory.write_fits hrxf (by omega) b, hrxp⟩
      countInBuffer := by
        simp only [hn]
        omega
      expectation := by simp [hs]
      complete := by simp [hs]
      idleCount := by simp [hs]
      shortOnly := hk
      headerShort := fun _ => by
        simp only [hn]
        omega
      markerStored := fun _ _ => hm
      lengthStored := by simp [hs]
      provenance := by simp [hb] }

/-- The last length byte of a header (R164, R165): the declared length and the expected total it sets. -/
theorem Inv.declared (hv : p.valid = true) (h : Inv p s) (hs : s.rxState = .waitingForHeader) {b : Byte}
    {len expect : Nat}
    (hb : s.rxKind = .short ∧ s.rxCount.toNat = 1 ∧ len = b.toNat ∧ expect = len + 5 ∨
      s.rxKind = .long ∧ s.rxCount.toNat = 2 ∧ len = longLength (s.rxf.read 1) b ∧ expect = len + 6)
    (hcap : expect ≤ p.frameCap) :
    Inv p
      { s with
        rxf := s.rxf.write s.rxCount.toNat b
        rxCount := s.rxCount + 1
        rxLen := BitVec.ofNat 16 len
        rxExpect := BitVec.ofNat 17 expect
        rxState := .accumulatingPayload } := by
  obtain ⟨htxp, hrxf, hrxp⟩ := h.buffers
  have hvb := valid_bounds hv
  have hlen : len ≤ 65535 := by
    rcases hb with ⟨-, -, rfl, -⟩ | ⟨-, -, rfl, -⟩
    · exact le_trans (Nat.le_of_lt b.isLt) (by decide)
    · exact longLength_le _ b
  have hhdr : s.rxCount.toNat = 1 + s.rxKind.code.toNat ∧ expect = len + 5 + s.rxKind.code.toNat := by
    rcases hb with ⟨hk, hc, -, he⟩ | ⟨hk, hc, -, he⟩ <;> rw [hk] <;> exact ⟨hc, he⟩
  have hcode := s.rxKind.code.isLt
  have hn := toNat_rxCount_succ hv (s := s) (by omega)
  have hlen' : (BitVec.ofNat 16 len).toNat = len := by rw [BitVec.toNat_ofNat, Nat.mod_eq_of_lt (by omega)]
  have he' : (BitVec.ofNat 17 expect).toNat = expect := by rw [BitVec.toNat_ofNat, Nat.mod_eq_of_lt (by omega)]
  have hwf := Memory.fits_wf hrxf
  have hvalid := h.not_valid_of_active (by rw [hs]; rfl)
  exact
    { h with
      buffers := ⟨htxp, Memory.write_fits hrxf (by omega) b, hrxp⟩
      countInBuffer := by
        simp only [hn]
        omega
      expectation := fun _ => by
        simp only [hn, hlen', he']
        omega
      complete := nofun
      noExpectation := by simp
      idleCount := nofun
      validTerminated := by simp [hvalid]
      headerShort := nofun
      markerStored := fun _ _ => by
        rw [Memory.read_write_below hwf (by omega)]
        exact h.markerStored (.inl (by rw [hs]; rfl)) (by omega)
      lengthStored := fun _ => by
        rcases hb with ⟨hk, hc, rfl, -⟩ | ⟨hk, hc, rfl, -⟩
        · simp only [hk, hlen', hc, Memory.read_write_self hwf]
        · simp only [hk, hlen', hc, Memory.read_write_self hwf,
            Memory.read_write_below hwf (show 1 < 2 by decide)]
      provenance := by simp [hvalid] }

/-- A byte after the header (R167): the last one, when it is the terminator, ends the reception (R168). -/
theorem Inv.accumulated (hv : p.valid = true) (h : Inv p s) (hs : s.rxState = .accumulatingPayload) {b : Byte}
    {x : RxState} (hlt : s.rxCount.toNat < s.rxExpect.toNat)
    (hx : x = .accumulatingPayload ∨ x = .terminated ∧ s.rxCount + 1 = s.rxExpect ∧ b = terminator) :
    Inv p
      { s with
        rxf := s.rxf.write s.rxCount.toNat b
        rxCount := s.rxCount + 1
        rxState := x } := by
  obtain ⟨htxp, hrxf, hrxp⟩ := h.buffers
  obtain ⟨heq, hcap, hhdr, -⟩ := h.expectation (.inl hs)
  have hn := toNat_rxCount_succ hv (s := s) (by omega)
  have hwf := Memory.fits_wf hrxf
  have hvalid := h.not_valid_of_active (by rw [hs]; rfl)
  exact
    { h with
      buffers := ⟨htxp, Memory.write_fits hrxf (by omega) b, hrxp⟩
      countInBuffer := by
        simp only [hn]
        omega
      expectation := fun _ => by
        simp only [hn]
        omega
      complete := by
        rintro rfl
        obtain ⟨-, hlast, rfl⟩ := hx.resolve_left nofun
        have hidx : s.rxExpect.toNat - 1 = s.rxCount.toNat := by rw [← hlast, hn, Nat.add_sub_cancel]
        exact ⟨hlast, by rw [hidx, Memory.read_write_self hwf]; rfl⟩
      noExpectation := by rcases hx with rfl | ⟨rfl, -⟩ <;> simp
      idleCount := by rcases hx with rfl | ⟨rfl, -⟩ <;> simp
      validTerminated := by simp [hvalid]
      headerShort := by rcases hx with rfl | ⟨rfl, -⟩ <;> simp
      markerStored := fun _ _ => by
        rw [Memory.read_write_below hwf (by omega)]
        exact h.markerStored (.inl (by rw [hs]; rfl)) (by omega)
      lengthStored := fun _ => by
        have hl := h.lengthStored (.inl hs)
        cases hk : s.rxKind <;> rw [hk] at hl hhdr
        case short =>
          simpa only [Memory.read_write_below hwf (show 1 < s.rxCount.toNat by omega)] using hl
        case long =>
          have h2 : 3 ≤ s.rxCount.toNat := hhdr
          simpa only [Memory.read_write_below hwf (show 1 < s.rxCount.toNat by omega),
            Memory.read_write_below hwf (show 2 < s.rxCount.toNat by omega)] using hl
      provenance := by simp [hvalid] }

end Rules

/-! ## Each shared operation -/

/-- What `DecodeFrame` returns lies between the header and the last three bytes, and is no longer than a length field
can say. -/
theorem decodeFrame_ok_length {p : Params} {raw payload : List Byte} (h : decodeFrame p raw = .ok payload) :
    payload.length + 5 ≤ raw.length ∧ payload.length ≤ 65535 := by
  have body : ∀ hdr len, 2 ≤ hdr → len ≤ 65535 → decodeBody p raw hdr len = .ok payload →
      payload.length + 5 ≤ raw.length ∧ payload.length ≤ 65535 := by
    intro hdr len hhdr hlen hb
    unfold decodeBody at hb
    dsimp only at hb
    split at hb
    · cases hb
    · split at hb
      · injection hb with hb
        subst hb
        simp only [List.length_take, List.length_drop]
        omega
      · cases hb
  unfold decodeFrame at h
  split at h
  · cases h
  · split at h
    · split at h
      · cases h
      · exact body 2 _ (by decide) (le_trans (Nat.le_of_lt (BitVec.isLt _)) (by decide)) h
    · split at h
      · split at h
        · cases h
        · exact body 3 _ (by decide) (longLength_le _ _) h
      · cases h

section Operations
variable {p : Params} {s t : State}

theorem fail_keeps_inv (h : Inv p s) {e : Status} (hn : fail e s = .next t) : Inv p t := by
  rw [fail_eq_next] at hn
  exact hn ▸ h.respond e 0 0

theorem appendBytes_keeps_inv (h : Inv p s) {bytes : List Byte} (hn : appendBytes p bytes s = .next t) :
    Inv p t := by
  rcases appendBytes_eq_next.1 hn with ⟨-, rfl⟩ | ⟨hcap, rfl⟩
  · exact h.respond ..
  · exact (h.transmit (Memory.writeBytes_fits h.buffers.1 hcap) ((toNat_ofNat_le 16 _).trans hcap)).respond ..

theorem readField_keeps_inv (h : Inv p s) {n : Nat} {v1 : Word} (hn : readField p n v1 s = .next t) : Inv p t := by
  rcases readField_eq_next.1 hn with ⟨-, rfl⟩ | ⟨hlen, -, rfl⟩
  · exact h.respond ..
  · exact (h.moveRxpCur hlen).respond ..

theorem readScaled_keeps_inv (h : Inv p s) {n : Nat} {scale : Word} (hn : readScaled p n scale s = .next t) :
    Inv p t := by
  rcases readScaled_eq_next.1 hn with ⟨-, rfl⟩ | ⟨-, hr⟩
  · exact h.respond ..
  · exact readField_keeps_inv h hr

theorem moveCursor_keeps_inv (h : Inv p s) {k : Nat} (hn : moveCursor k s = .next t) : Inv p t := by
  rcases moveCursor_eq_next.1 hn with ⟨-, rfl⟩ | ⟨hk, rfl⟩
  · exact h.respond ..
  · exact (h.moveRxpCur hk).respond ..

theorem opTxclr_keeps_inv (h : Inv p s) (hn : opTxclr s = .next t) : Inv p t := by
  simp only [opTxclr, Host.Outcome.next.injEq] at hn
  exact hn ▸ (h.transmit h.buffers.1 (Nat.zero_le _)).respond ..

theorem opEnc_keeps_inv (h : Inv p s) (hn : opEnc p s = .next t) : Inv p t := by
  rcases opEnc_eq_next.1 hn with ⟨e, -, rfl⟩ | ⟨k, -, -, rfl⟩
  · exact h.respond ..
  · exact h.of_block rfl

theorem opCrctx_keeps_inv (h : Inv p s) (hn : opCrctx p s = .next t) : Inv p t := by
  obtain ⟨-, rfl⟩ := opCrctx_eq_next.1 hn
  exact h.respond ..

theorem opDec_keeps_inv (h : Inv p s) (hn : opDec p s = .next t) : Inv p t := by
  rcases opDec_eq_next.1 hn with ⟨hs, -, ⟨e, -, rfl⟩ | ⟨payload, hd, ha⟩⟩ | ⟨-, rfl⟩ | ⟨-, rfl⟩ | ⟨-, rfl⟩
  · exact h.respond ..
  · obtain ⟨hcap, rfl⟩ := acceptPayload_eq_next.1 ha
    exact (h.acceptPayload hs hd hcap (decodeFrame_ok_length hd).2).respond ..
  all_goals exact h.respond ..

theorem opRdreg_keeps_inv (h : Inv p s) {r : BitVec 4} (hn : opRdreg r s = .next t) : Inv p t := by
  rcases opRdreg_eq_next.1 hn with ⟨v, -, rfl⟩ | ⟨-, rfl⟩
  · exact h.respond ..
  · exact h.respond ..

theorem opRxstart_keeps_inv (h : Inv p s) (hn : opRxstart s = .next t) : Inv p t := by
  simp only [opRxstart_eq, Host.Outcome.next.injEq] at hn
  exact hn ▸ (inv_freshReader h.buffers h.txCursor (.inr rfl)).respond ..

theorem opReset_keeps_inv (h : Inv p s) (hn : opReset s = .next t) : Inv p t := by
  simp only [opReset_eq, Host.Outcome.next.injEq] at hn
  exact hn ▸ (inv_freshReader h.buffers h.txCursor (.inl rfl)).transmit h.buffers.1 (Nat.zero_le _)

theorem opRxexpire_keeps_inv (h : Inv p s) (hn : opRxexpire s = .next t) : Inv p t := by
  rcases opRxexpire_eq_next.1 hn with ⟨ha, rfl⟩ | ⟨-, rfl⟩
  · exact h.ended ha (.inl rfl)
  · exact h

/-! ### One received byte -/

theorem rxReject_keeps_inv (h : Inv p s) (hs : s.rxState = .waitingForHeader) (hn : rxReject s = .next t) :
    Inv p t := by
  simp only [rxReject, Host.Outcome.next.injEq] at hn
  exact hn ▸ h.ended (by rw [hs]; rfl) (.inr rfl)

theorem rxMarker_keeps_inv (hv : p.valid = true) (h : Inv p s) (hs : s.rxState = .waitingForHeader)
    (hc : s.rxCount = 0) {b : Byte} (hn : rxMarker p b s = .next t) : Inv p t := by
  have stored : ∀ k : FrameKind, b = k.marker → (p.longEn = false → k = .short) →
      Inv p { s with rxf := s.rxf.write s.rxCount.toNat b, rxCount := s.rxCount + 1, rxKind := k } := by
    intro k hb hk
    refine h.storedInHeader hv hs b hk (by simp [hc]) ?_
    rw [hc, hb]
    exact Memory.read_write_self (Memory.fits_wf h.buffers.2.1) 0 k.marker
  unfold rxMarker at hn
  split at hn
  · next hb =>
    obtain ⟨-, rfl⟩ := rxStore_eq_next.1 hn
    exact stored .short hb fun _ => rfl
  · split at hn
    · next hb =>
      obtain ⟨-, rfl⟩ := rxStore_eq_next.1 hn
      exact stored .long hb.1 (by simp [hb.2])
    · exact rxReject_keeps_inv h hs hn

theorem rxDeclare_keeps_inv (hv : p.valid = true) (h : Inv p s) (hs : s.rxState = .waitingForHeader) {b : Byte}
    {len expect : Nat}
    (hb : s.rxKind = .short ∧ s.rxCount.toNat = 1 ∧ len = b.toNat ∧ expect = len + 5 ∨
      s.rxKind = .long ∧ s.rxCount.toNat = 2 ∧ len = longLength (s.rxf.read 1) b ∧ expect = len + 6)
    (hn : rxDeclare p b len expect s = .next t) : Inv p t := by
  rcases rxDeclare_eq_next.1 hn with ⟨-, rfl⟩ | ⟨hcap, -, rfl⟩
  · exact h.ended (by rw [hs]; rfl) (.inr rfl)
  · exact h.declared hv hs hb hcap

/-- A length byte comes second in a Short header, and second or third in a Long one. -/
theorem Inv.count_of_lengthByte (h : Inv p s) (hs : s.rxState = .waitingForHeader) (hc : s.rxCount ≠ 0) :
    s.rxKind = .short ∧ s.rxCount.toNat = 1 ∨ s.rxKind = .long ∧ (s.rxCount.toNat = 1 ∨ s.rxCount.toNat = 2) := by
  have hle := h.headerShort hs
  have hne : s.rxCount.toNat ≠ 0 := fun h0 => hc (BitVec.eq_of_toNat_eq h0)
  cases hk : s.rxKind <;> rw [hk] at hle
  case short =>
    have h1 : s.rxCount.toNat ≤ 1 := hle
    exact .inl ⟨rfl, by omega⟩
  case long =>
    have h2 : s.rxCount.toNat ≤ 2 := hle
    exact .inr ⟨rfl, by omega⟩

theorem rxLongLength_keeps_inv (hv : p.valid = true) (h : Inv p s) (hs : s.rxState = .waitingForHeader)
    (hk : s.rxKind = .long) (hc : s.rxCount.toNat = 1 ∨ s.rxCount.toNat = 2) {b : Byte}
    (hn : rxLongLength p b s = .next t) : Inv p t := by
  unfold rxLongLength at hn
  split at hn
  · next h1 =>
    obtain ⟨-, rfl⟩ := rxStore_eq_next.1 hn
    refine h.storedInHeader hv hs b h.shortOnly (by simp [h1, hk, FrameKind.code]) ?_
    rw [Memory.read_write_below (Memory.fits_wf h.buffers.2.1) (by simp [h1])]
    exact h.markerStored (.inl (by rw [hs]; rfl)) (by simp [h1])
  · next h1 =>
    have h2 : s.rxCount.toNat = 2 := hc.resolve_left fun h' => h1 (BitVec.eq_of_toNat_eq h')
    exact rxDeclare_keeps_inv hv h hs (.inr ⟨hk, h2, rfl, rfl⟩) hn

theorem rxAccumulate_keeps_inv (hv : p.valid = true) (h : Inv p s) (hs : s.rxState = .accumulatingPayload)
    (hlt : s.rxCount < s.rxExpect) {b : Byte} (hn : rxAccumulate p b s = .next t) : Inv p t := by
  obtain ⟨-, rfl⟩ := rxStore_eq_next.1 hn
  split
  · next hlast => exact h.accumulated hv hs hlt (.inr ⟨rfl, hlast⟩)
  · exact h.accumulated hv hs hlt (.inl hs)

theorem opRxbyte_keeps_inv (hv : p.valid = true) {b : Byte} (h : Inv p s) (hn : opRxbyte p b s = .next t) :
    Inv p t := by
  unfold opRxbyte at hn
  cases hs : s.rxState <;> simp only [hs] at hn
  case waitingForHeader =>
    split at hn
    · next hc => exact rxMarker_keeps_inv hv h hs hc hn
    · next hc =>
      rcases h.count_of_lengthByte hs hc with ⟨hk, h1⟩ | ⟨hk, h12⟩
      · rw [if_pos hk] at hn
        exact rxDeclare_keeps_inv hv h hs (.inl ⟨hk, h1, rfl, rfl⟩) hn
      · rw [if_neg (by simp [hk])] at hn
        exact rxLongLength_keeps_inv hv h hs hk h12 hn
  case accumulatingPayload =>
    split at hn
    · next hlt => exact rxAccumulate_keeps_inv hv h hs hlt hn
    · exact Host.Outcome.next.inj hn ▸ h
  all_goals exact Host.Outcome.next.inj hn ▸ h

theorem rxBytes_keeps_inv (hv : p.valid = true) {bytes : List Byte} (h : Inv p s)
    (hn : rxBytes p bytes s = .next t) : Inv p t :=
  rxBytes_induction (motive := Inv p) (fun _ _ _ => opRxbyte_keeps_inv hv) h hn

/-! ## The step -/

/-- Every input keeps the invariants, for every admitted choice of parameters. -/
theorem execWith_keeps_inv (hv : p.valid = true) {i : Instr} (h : Inv p s) (hn : execWith p i s = .next t) :
    Inv p t := by
  cases i with
  | reserved0 | reservedF => exact fail_keeps_inv h hn
  | txclr => exact opTxclr_keeps_inv h hn
  | appu8 b | appi32 v => exact appendBytes_keeps_inv h hn
  | enc => exact opEnc_keeps_inv h hn
  | rxstart => exact opRxstart_keeps_inv h hn
  | dec => exact opDec_keeps_inv h hn
  | curwr k | skip n => exact moveCursor_keeps_inv h hn
  | rdi16 | rdi32 => exact readField_keeps_inv h hn
  | rdf16 scale | rdf32 scale => exact readScaled_keeps_inv h hn
  | crctx => exact opCrctx_keeps_inv h hn
  | rdreg r => exact opRdreg_keeps_inv h hn
  | rxbyte b => exact opRxbyte_keeps_inv hv h hn
  | rxexpire => exact opRxexpire_keeps_inv h hn
  | reset => exact opReset_keeps_inv h hn
  | frameShort payload crcHi crcLo last | frameLong payload crcHi crcLo last => exact rxBytes_keeps_inv hv h hn

theorem Inv.fetched (h : Inv p s) : Inv p (fetch s).2 := h.of_block (fetch_block s).1

theorem stepWith_of_fetch_none (hf : fetch s = (none, t)) : stepWith p s = .next t := by
  simp only [stepWith, hf]

theorem stepWith_of_fetch_some {i : Instr} (hf : fetch s = (some i, t)) : stepWith p s = execWith p i t := by
  simp only [stepWith, hf]

theorem stepWith_keeps_inv (hv : p.valid = true) (h : Inv p s) (hn : stepWith p s = .next t) : Inv p t := by
  have hi := h.fetched
  rcases hf : fetch s with ⟨_ | i, u⟩ <;> rw [hf] at hi
  · rw [stepWith_of_fetch_none hf] at hn
    exact Host.Outcome.next.inj hn ▸ hi
  · rw [stepWith_of_fetch_some hf] at hn
    exact execWith_keeps_inv hv hi hn

end Operations

end Sys2Proof.Machine
end

section
/-! The statements about the invariants (spec/10_state.md R41). -/

namespace Sys2Proof.Machine

/-- Settles O11: every operation keeps the invariants, and taking an input does not touch what they speak of. -/
theorem everyStepKeepsTheInvariants : Obligations.EveryStepKeepsTheInvariants := by
  unfold Obligations.EveryStepKeepsTheInvariants
  refine ⟨fun p hv s t h hn => stepWith_keeps_inv hv h hn, fun s t h hn => ?_⟩
  rw [step_eq_stepWith] at hn
  exact stepWith_keeps_inv hardware_valid h hn

/-- Settles O10: after reset the buffers are empty, every register is 0 and the reader is idle. -/
theorem resetMeetsTheInvariants : Obligations.ResetMeetsTheInvariants := by
  unfold Obligations.ResetMeetsTheInvariants
  intro p
  exact inv_freshReader (s := State.reset) ⟨rfl, rfl, rfl⟩ (Nat.zero_le _) (.inl rfl)

end Sys2Proof.Machine
end

section
/-! SUPPORT. Noninterference (spec/10_state.md R42): from two states that show a host the same, every input leads to
two that do so again. -/

namespace Sys2Proof.Machine

/-! ## The same to a host -/

/-- Both answers are next states, and a host sees no difference between them. -/
def Alike (r r' : Result) : Prop := ∃ s t, r = .next s ∧ r' = .next t ∧ SameVisible s t

section
variable {p : Params} {s t : State}

theorem SameVisible.alike (h : SameVisible s t) : Alike (.next s) (.next t) := ⟨s, t, rfl, rfl, h⟩

theorem Alike.andThen {r r' : Result} {k k' : State → Result} (h : Alike r r')
    (hk : ∀ s t, r = .next s → r' = .next t → SameVisible s t → Alike (k s) (k' t)) :
    Alike (andThen r k) (andThen r' k') := by
  obtain ⟨s, t, rfl, rfl, hv⟩ := h
  exact hk s t rfl rfl hv

/-! ## Answers and the two sides -/

theorem SameVisible.respond (h : SameVisible s t) (status : Status) (v0 v1 : Word) :
    SameVisible (respond status v0 v1 s) (respond status v0 v1 t) :=
  { h with outputs := by simp [h.outputs] }

theorem SameVisible.emit (h : SameVisible s t) (frame : List Byte) : SameVisible (emit frame s) (emit frame t) :=
  { h with outputs := by simp [h.outputs] }

theorem fail_alike (h : SameVisible s t) (e : Status) : Alike (fail e s) (fail e t) := (h.respond e 0 0).alike

/-- Where two buffers read the same up to an index, they still do after the same bytes are put there, and up to the end
of those bytes. -/
theorem Memory.writeBytes_agree {m m' : Memory} (hm : m.wf = true) (hm' : m'.wf = true) {n : Nat}
    (h : ∀ a, a < n → m.read a = m'.read a) (bytes : List Byte) :
    ∀ a, a < n + bytes.length → (m.writeBytes n bytes).read a = (m'.writeBytes n bytes).read a := by
  intro a ha
  rw [read_writeBytes hm, read_writeBytes hm']
  split
  · rfl
  · exact h a (by omega)

theorem staged_eq (h : SameVisible s t) : staged p s = staged p t := by
  unfold staged loadBytes
  rw [← h.txpCur, Memory.readBytes_congr fun x _ hx => h.txp x (by omega)]

theorem received_eq (h : SameVisible s t) : received p s = received p t := by
  unfold received loadBytes
  rw [← h.rxCount, Memory.readBytes_congr fun x _ hx => h.rxf x (by omega)]

theorem Inv.staged_eq_some (hs : Inv p s) : staged p s = some (s.txp.readBytes 0 s.txpCur.toNat) :=
  loadBytes_of_le (by simpa using hs.txCursor)

theorem Inv.received_eq_some (hs : Inv p s) : received p s = some (s.rxf.readBytes 0 s.rxCount.toNat) :=
  loadBytes_of_le (by simpa using hs.countInBuffer)

theorem SameVisible.moveRxpCur (h : SameVisible s t) (c : BitVec 16) :
    SameVisible { s with rxpCur := c } { t with rxpCur := c } :=
  { h with rxpCur := rfl }

/-- With nothing staged no byte of `TXP` is seen. -/
theorem SameVisible.clearTxpCur (h : SameVisible s t) : SameVisible { s with txpCur := 0 } { t with txpCur := 0 } :=
  { h with
    txpCur := rfl
    txp := fun _ ha => absurd ha (Nat.not_lt_zero _) }

/-! ## Each shared operation -/

theorem opTxclr_alike (h : SameVisible s t) : Alike (opTxclr s) (opTxclr t) := (h.clearTxpCur.respond .ok 0 0).alike

theorem appendBytes_alike (hs : Inv p s) (ht : Inv p t) (h : SameVisible s t) (bytes : List Byte) :
    Alike (appendBytes p bytes s) (appendBytes p bytes t) := by
  unfold appendBytes
  rw [← h.txpCur]
  by_cases hc : s.txpCur.toNat + bytes.length ≤ p.txpCap
  · have hm := Memory.writeBytes_agree (Memory.fits_wf hs.buffers.1) (Memory.fits_wf ht.buffers.1) h.txp bytes
    rw [storeBytes_of_le hc, storeBytes_of_le hc]
    refine (SameVisible.respond ?_ ..).alike
    exact
      { h with
        txpCur := rfl
        txp := fun a ha => hm a (Nat.lt_of_lt_of_le ha (toNat_ofNat_le 16 _)) }
  · rw [storeBytes_eq_none.2 (by omega), storeBytes_eq_none.2 (by omega)]
    exact fail_alike h _

theorem readField_alike (hs : Inv p s) (h : SameVisible s t) (n : Nat) (v1 : Word) :
    Alike (readField p n v1 s) (readField p n v1 t) := by
  have hcap := hs.rxCursor.2
  have hcur := h.rxpCur
  have hlen := h.rxpLen
  by_cases hn : s.rxpCur.toNat + n ≤ s.rxpLen.toNat
  · have hread : s.rxp.readBytes s.rxpCur.toNat n = t.rxp.readBytes t.rxpCur.toNat n := by
      rw [← hcur]
      exact Memory.readBytes_congr fun x _ hx => h.rxp x (by omega)
    refine ⟨_, _, readField_eq_next.2 (.inr ⟨hn, by omega, rfl⟩),
      readField_eq_next.2 (.inr ⟨hcur ▸ hlen ▸ hn, by rw [← hcur]; omega, rfl⟩), ?_⟩
    rw [← hread, ← hcur]
    exact (h.moveRxpCur _).respond ..
  · exact ⟨_, _, readField_eq_next.2 (.inl ⟨by omega, rfl⟩),
      readField_eq_next.2 (.inl ⟨by rw [← hcur, ← hlen]; omega, rfl⟩), h.respond ..⟩

theorem readScaled_alike (hs : Inv p s) (h : SameVisible s t) (n : Nat) (scale : Word) :
    Alike (readScaled p n scale s) (readScaled p n scale t) := by
  unfold readScaled
  split
  · exact fail_alike h _
  · exact readField_alike hs h n scale

theorem moveCursor_alike (h : SameVisible s t) (k : Nat) : Alike (moveCursor k s) (moveCursor k t) := by
  have hlen := h.rxpLen
  by_cases hk : k ≤ s.rxpLen.toNat
  · exact ⟨_, _, moveCursor_eq_next.2 (.inr ⟨hk, rfl⟩), moveCursor_eq_next.2 (.inr ⟨hlen ▸ hk, rfl⟩),
      (h.moveRxpCur _).respond ..⟩
  · have hlt : s.rxpLen.toNat < k := by omega
    exact ⟨_, _, moveCursor_eq_next.2 (.inl ⟨hlt, rfl⟩), moveCursor_eq_next.2 (.inl ⟨hlen ▸ hlt, rfl⟩),
      h.respond ..⟩

theorem opCrctx_alike (hs : Inv p s) (h : SameVisible s t) : Alike (opCrctx p s) (opCrctx p t) := by
  unfold opCrctx
  rw [← staged_eq h, hs.staged_eq_some]
  exact (h.respond ..).alike

theorem opEnc_alike (hs : Inv p s) (h : SameVisible s t) : Alike (opEnc p s) (opEnc p t) := by
  unfold opEnc
  rw [← h.txpCur, ← staged_eq h, hs.staged_eq_some]
  split
  · exact fail_alike h _
  · exact ((h.emit _).respond ..).alike

theorem acceptPayload_alike (hs : Inv p s) (ht : Inv p t) (h : SameVisible s t) {payload : List Byte}
    (hcap : payload.length ≤ p.rxpCap) : Alike (acceptPayload p payload s) (acceptPayload p payload t) := by
  obtain ⟨-, -, hrxp⟩ := hs.buffers
  obtain ⟨-, -, hrxp'⟩ := ht.buffers
  have hm := Memory.writeBytes_agree (n := 0) (Memory.fits_wf hrxp) (Memory.fits_wf hrxp') (by simp) payload
  unfold acceptPayload
  rw [storeBytes_of_le (by omega), storeBytes_of_le (by omega)]
  refine (SameVisible.respond ?_ ..).alike
  exact
    { h with
      rxpLen := rfl
      rxpCur := rfl
      rxpValid := rfl
      rxp := fun a ha => hm a (by simpa using Nat.lt_of_lt_of_le ha (toNat_ofNat_le 16 _)) }

/-- A payload `DecodeFrame` finds in the frame held has room in `RXP`. -/
theorem Inv.payload_fits (hs : Inv p s) {payload : List Byte}
    (hd : decodeFrame p (s.rxf.readBytes 0 s.rxCount.toNat) = .ok payload) : payload.length ≤ p.rxpCap := by
  have hlen := (decodeFrame_ok_length hd).1
  have hcount := hs.countInBuffer
  rw [Memory.length_readBytes] at hlen
  unfold Params.rxpCap
  omega

theorem opDec_alike (hs : Inv p s) (ht : Inv p t) (h : SameVisible s t) : Alike (opDec p s) (opDec p t) := by
  unfold opDec
  rw [← h.rxState, ← received_eq h, hs.received_eq_some]
  cases s.rxState with
  | terminated =>
    dsimp only
    split
    · next payload hd => exact acceptPayload_alike hs ht h (hs.payload_fits hd)
    · exact fail_alike h _
  | timedOut | malformedHeader | idle | waitingForHeader | accumulatingPayload => exact fail_alike h _

theorem opRdreg_alike (h : SameVisible s t) (r : BitVec 4) : Alike (opRdreg r s) (opRdreg r t) := by
  have hr : readRegister r s = readRegister r t := by
    simp only [readRegister, statusWord, h.txpCur, h.rxState, h.rxCount, h.rxKind, h.rxLen, h.rxExpect, h.rxpLen,
      h.rxpValid, h.rxpCur]
  unfold opRdreg
  rw [← hr]
  split
  · exact (h.respond ..).alike
  · exact fail_alike h _

theorem SameVisible.freshReader (h : SameVisible s t) (x : RxState) :
    SameVisible (freshReader x s) (freshReader x t) := by
  constructor
  case txpCur => exact h.txpCur
  case txp => exact h.txp
  case pending => exact h.pending
  case outputs => exact h.outputs
  case rxf | rxp => exact fun a ha => absurd ha (Nat.not_lt_zero a)
  all_goals rfl

theorem opRxstart_alike (h : SameVisible s t) : Alike (opRxstart s) (opRxstart t) := by
  rw [opRxstart_eq, opRxstart_eq]
  exact ((h.freshReader _).respond ..).alike

theorem opReset_alike (h : SameVisible s t) : Alike (opReset s) (opReset t) := by
  rw [opReset_eq, opReset_eq]
  exact (h.freshReader .idle).clearTxpCur.alike

theorem SameVisible.ended (h : SameVisible s t) (x : RxState) :
    SameVisible { s with rxState := x } { t with rxState := x } :=
  { h with rxState := rfl }

theorem opRxexpire_alike (h : SameVisible s t) : Alike (opRxexpire s) (opRxexpire t) := by
  unfold opRxexpire
  rw [← h.rxState]
  cases s.rxState with
  | waitingForHeader | accumulatingPayload => exact (h.ended _).alike
  | idle | terminated | timedOut | malformedHeader => exact h.alike

/-! ### One received byte -/

/-- Storing a byte where there is room for it, before anything that treats the two states the same. -/
theorem rxStore_alike (hs : Inv p s) (ht : Inv p t) (h : SameVisible s t) (hc : s.rxCount.toNat + 1 ≤ p.frameCap)
    (b : Byte) {after : State → State} (ha : ∀ u v, SameVisible u v → SameVisible (after u) (after v)) :
    Alike (rxStore p b after s) (rxStore p b after t) := by
  have hm := Memory.writeBytes_agree (Memory.fits_wf hs.buffers.2.1) (Memory.fits_wf ht.buffers.2.1) h.rxf [b]
  unfold rxStore
  rw [← h.rxCount, storeBytes_of_le hc, storeBytes_of_le hc]
  refine (ha _ _ ?_).alike
  exact
    { h with
      rxCount := rfl
      rxf := fun a hlt => hm a (Nat.lt_of_lt_of_le hlt (by
        rw [BitVec.toNat_add]
        exact Nat.mod_le _ _)) }

theorem rxMarker_alike (hs : Inv p s) (ht : Inv p t) (h : SameVisible s t) (hc : s.rxCount.toNat + 1 ≤ p.frameCap)
    (b : Byte) : Alike (rxMarker p b s) (rxMarker p b t) := by
  have stored : ∀ k, Alike (rxStore p b (fun t => { t with rxKind := k }) s)
      (rxStore p b (fun t => { t with rxKind := k }) t) :=
    fun k => rxStore_alike hs ht h hc b fun _ _ hu => { hu with rxKind := rfl }
  unfold rxMarker
  split
  · exact stored .short
  · split
    · exact stored .long
    · exact (h.ended _).alike

theorem rxDeclare_alike (hs : Inv p s) (ht : Inv p t) (h : SameVisible s t) (hc : s.rxCount.toNat + 1 ≤ p.frameCap)
    (b : Byte) (len expect : Nat) : Alike (rxDeclare p b len expect s) (rxDeclare p b len expect t) := by
  unfold rxDeclare
  split
  · exact (h.ended _).alike
  · exact rxStore_alike hs ht h hc b fun _ _ hu => { hu with rxLen := rfl, rxExpect := rfl, rxState := rfl }

theorem rxLongLength_alike (hs : Inv p s) (ht : Inv p t) (h : SameVisible s t) (hne : s.rxCount ≠ 0)
    (hc : s.rxCount.toNat + 1 ≤ p.frameCap) (b : Byte) : Alike (rxLongLength p b s) (rxLongLength p b t) := by
  unfold rxLongLength
  rw [← h.rxCount]
  split
  · exact rxStore_alike hs ht h hc b fun _ _ hu => hu
  · next h1 =>
    have hlt : 1 < s.rxCount.toNat := by bv_omega
    rw [← h.rxf 1 hlt]
    exact rxDeclare_alike hs ht h hc b _ _

theorem rxAccumulate_alike (hs : Inv p s) (ht : Inv p t) (h : SameVisible s t)
    (hc : s.rxCount.toNat + 1 ≤ p.frameCap) (b : Byte) : Alike (rxAccumulate p b s) (rxAccumulate p b t) := by
  refine rxStore_alike hs ht h hc b fun u v hu => ?_
  rw [← hu.rxCount, ← hu.rxExpect]
  split
  · exact { hu with rxState := rfl, rxCount := rfl, rxExpect := rfl }
  · exact hu

theorem opRxbyte_alike (hv : p.valid = true) (hs : Inv p s) (ht : Inv p t) (h : SameVisible s t) (b : Byte) :
    Alike (opRxbyte p b s) (opRxbyte p b t) := by
  have hb := valid_bounds hv
  unfold opRxbyte
  rw [← h.rxState, ← h.rxCount, ← h.rxKind, ← h.rxExpect]
  cases hx : s.rxState with
  | waitingForHeader =>
    have hhdr := hs.headerShort hx
    have hcode := s.rxKind.code.isLt
    have hroom : s.rxCount.toNat + 1 ≤ p.frameCap := by omega
    dsimp only
    split
    · exact rxMarker_alike hs ht h hroom b
    · next hne =>
      split
      · exact rxDeclare_alike hs ht h hroom b _ _
      · exact rxLongLength_alike hs ht h hne hroom b
  | accumulatingPayload =>
    obtain ⟨-, hcap, -, -⟩ := hs.expectation (.inl hx)
    dsimp only
    split
    · next hlt =>
      have hlt' : s.rxCount.toNat < s.rxExpect.toNat := hlt
      exact rxAccumulate_alike hs ht h (by omega) b
    · exact h.alike
  | idle | terminated | timedOut | malformedHeader => exact h.alike

theorem rxBytes_alike (hv : p.valid = true) (hs : Inv p s) (ht : Inv p t) (h : SameVisible s t)
    (bytes : List Byte) : Alike (rxBytes p bytes s) (rxBytes p bytes t) := by
  induction bytes generalizing s t with
  | nil => exact h.alike
  | cons b rest ih =>
    exact (opRxbyte_alike hv hs ht h b).andThen fun u v hu hu' huv =>
      ih (opRxbyte_keeps_inv hv hs hu) (opRxbyte_keeps_inv hv ht hu') huv

/-! ## The step -/

/-- Every input does the same to two states that show the host the same. -/
theorem execWith_alike (hv : p.valid = true) (hs : Inv p s) (ht : Inv p t) (h : SameVisible s t) (i : Instr) :
    Alike (execWith p i s) (execWith p i t) := by
  cases i with
  | reserved0 | reservedF => exact fail_alike h _
  | txclr => exact opTxclr_alike h
  | appu8 b | appi32 v => exact appendBytes_alike hs ht h _
  | enc => exact opEnc_alike hs h
  | rxstart => exact opRxstart_alike h
  | dec => exact opDec_alike hs ht h
  | curwr k => exact moveCursor_alike h _
  | skip n =>
    show Alike (moveCursor (s.rxpCur.toNat + n.toNat) s) (moveCursor (t.rxpCur.toNat + n.toNat) t)
    rw [← h.rxpCur]
    exact moveCursor_alike h _
  | rdi16 | rdi32 => exact readField_alike hs h _ _
  | rdf16 scale | rdf32 scale => exact readScaled_alike hs h _ _
  | crctx => exact opCrctx_alike hs h
  | rdreg r => exact opRdreg_alike h r
  | rxbyte b => exact opRxbyte_alike hv hs ht h b
  | rxexpire => exact opRxexpire_alike h
  | reset => exact opReset_alike h
  | frameShort payload crcHi crcLo last | frameLong payload crcHi crcLo last => exact rxBytes_alike hv hs ht h _

/-- Two such states take the same input, and are left with the same inputs pending. -/
theorem fetch_alike (h : SameVisible s t) : (fetch s).1 = (fetch t).1 ∧ SameVisible (fetch s).2 (fetch t).2 := by
  unfold fetch
  rw [← h.pending]
  split
  · exact ⟨rfl, h⟩
  · split
    · exact ⟨rfl, { h with pending := rfl }⟩
    · exact ⟨rfl, { h with pending := rfl }⟩

theorem stepWith_alike (hv : p.valid = true) (hs : Inv p s) (ht : Inv p t) (h : SameVisible s t) :
    Alike (stepWith p s) (stepWith p t) := by
  obtain ⟨hi, hf⟩ := fetch_alike h
  have hs' := hs.fetched
  have ht' := ht.fetched
  rcases hfs : fetch s with ⟨o, u⟩
  rcases hft : fetch t with ⟨o', v⟩
  rw [hfs] at hi hf hs'
  rw [hft] at hi hf ht'
  obtain rfl : o = o' := hi
  cases o with
  | none =>
    rw [stepWith_of_fetch_none hfs, stepWith_of_fetch_none hft]
    exact hf.alike
  | some i =>
    rw [stepWith_of_fetch_some hfs, stepWith_of_fetch_some hft]
    exact execWith_alike hv hs' ht' hf i

theorem stepsWith_alike (hv : p.valid = true) (hs : Inv p s) (ht : Inv p t) (h : SameVisible s t) (n : Nat) :
    Alike (stepsWith p n s) (stepsWith p n t) := by
  induction n generalizing s t with
  | zero => exact h.alike
  | succ n ih =>
    exact (stepWith_alike hv hs ht h).andThen fun u v hu hu' huv =>
      ih (stepWith_keeps_inv hv hs hu) (stepWith_keeps_inv hv ht hu') huv

end

end Sys2Proof.Machine
end

section
/-! The statement about bytes a host cannot see (spec/10_state.md R42). -/

namespace Sys2Proof.Machine

/-- Settles O13: each step keeps both the invariants and the agreement on what a host sees. -/
theorem bytesOutsideTheValidPrefixesAreNeverSeen : Obligations.BytesOutsideTheValidPrefixesAreNeverSeen :=
  fun _ hv _ _ hs ht h n => stepsWith_alike hv hs ht h n

end Sys2Proof.Machine
end

section
/-! SUPPORT. Commands that answer the same when repeated (spec/20_memory.md R57): each answers from what its first run
leaves as it was, and `DEC` puts back the bytes that already stand in `RXP`. -/

namespace Sys2Proof.Machine

/-- The same bytes put at the same place twice leave what they left the first time. -/
theorem Memory.writeBytes_writeBytes_self {m : Memory} (h : m.wf = true) (i : Nat) (bytes : List Byte) :
    (m.writeBytes i bytes).writeBytes i bytes = m.writeBytes i bytes := by
  have hw := writeBytes_wf h i bytes
  refine ext_of_wf (writeBytes_wf hw i bytes) hw fun x => ?_
  rw [read_writeBytes hw, read_writeBytes h]
  split <;> rfl

/-- `t` being what `op` left of `s`: `op` run on `t` puts out the same again and leaves the block as it stands. -/
def Repeats (op : State → Result) (s t : State) : Prop :=
  ∃ u new, t.outputs = s.outputs ++ new ∧ op t = .next u ∧ u.outputs = t.outputs ++ new ∧ u.toBlock = t.toBlock

section
variable {p : Params} {s t : State} {op : State → Result}

/-- An answer that leaves the block alone is repeated where it is given again. -/
theorem repeats_respond {status : Status} {v0 v1 : Word}
    (h : op (respond status v0 v1 s) = .next (respond status v0 v1 (respond status v0 v1 s))) :
    Repeats op s (respond status v0 v1 s) :=
  ⟨_, [.response ⟨status, v0, v1⟩], rfl, h, rfl, rfl⟩

/-- A frame and its answer, which leave the block alone, are repeated where they are given again. -/
theorem repeats_emit_respond {frame : List Byte} {status : Status} {v0 v1 : Word}
    (h : op (respond status v0 v1 (emit frame s)) =
      .next (respond status v0 v1 (emit frame (respond status v0 v1 (emit frame s))))) :
    Repeats op s (respond status v0 v1 (emit frame s)) :=
  ⟨_, [.frame frame, .response ⟨status, v0, v1⟩], List.append_assoc s.outputs _ _, h,
    List.append_assoc (respond status v0 v1 (emit frame s)).outputs _ _, rfl⟩

theorem opCrctx_repeats (h : opCrctx p s = .next t) : Repeats (opCrctx p) s t := by
  obtain ⟨hcap, rfl⟩ := opCrctx_eq_next.1 h
  exact repeats_respond (opCrctx_eq_next.2 ⟨hcap, rfl⟩)

theorem opEnc_repeats (h : opEnc p s = .next t) : Repeats (opEnc p) s t := by
  rcases opEnc_eq_next.1 h with ⟨e, he, rfl⟩ | ⟨k, hk, hcap, rfl⟩
  · exact repeats_respond (opEnc_eq_next.2 (.inl ⟨e, he, rfl⟩))
  · exact repeats_emit_respond (opEnc_eq_next.2 (.inr ⟨k, hk, hcap, rfl⟩))

theorem opRdreg_repeats {r : BitVec 4} (h : opRdreg r s = .next t) : Repeats (opRdreg r) s t := by
  rcases opRdreg_eq_next.1 h with ⟨v, hv, rfl⟩ | ⟨hr, rfl⟩
  · exact repeats_respond (opRdreg_eq_next.2 (.inl ⟨v, hv, rfl⟩))
  · exact repeats_respond (opRdreg_eq_next.2 (.inr ⟨hr, rfl⟩))

/-- A payload handed over a second time finds its own bytes in `RXP`. -/
theorem acceptPayload_repeats (hs : Inv p s) {payload : List Byte} (h : acceptPayload p payload s = .next t) :
    Repeats (acceptPayload p payload) s t := by
  obtain ⟨hcap, rfl⟩ := acceptPayload_eq_next.1 h
  obtain ⟨-, -, hrxp⟩ := hs.buffers
  refine ⟨_, [.response _], rfl, acceptPayload_eq_next.2 ⟨hcap, rfl⟩, rfl, ?_⟩
  simp only [respond_toBlock, Memory.writeBytes_writeBytes_self (Memory.fits_wf hrxp)]

/-- `DEC` keeps the reader's state and the frame held, so a second one finds the same payload or the same failure. -/
theorem opDec_repeats (hs : Inv p s) (h : opDec p s = .next t) : Repeats (opDec p) s t := by
  rcases opDec_eq_next.1 h with ⟨hx, hc, ⟨e, hd, rfl⟩ | ⟨payload, hd, ha⟩⟩ | ⟨hx, rfl⟩ | ⟨hx, rfl⟩ | ⟨hx, rfl⟩
  · exact repeats_respond (opDec_eq_next.2 (.inl ⟨hx, hc, .inl ⟨e, hd, rfl⟩⟩))
  · obtain ⟨u, new, ht, ha', hu, hb⟩ := acceptPayload_repeats hs ha
    obtain ⟨-, rfl⟩ := acceptPayload_eq_next.1 ha
    exact ⟨u, new, ht, opDec_eq_next.2 (.inl ⟨hx, hc, .inr ⟨payload, hd, ha'⟩⟩), hu, hb⟩
  · exact repeats_respond (opDec_eq_next.2 (.inr (.inl ⟨hx, rfl⟩)))
  · exact repeats_respond (opDec_eq_next.2 (.inr (.inr (.inl ⟨hx, rfl⟩))))
  · exact repeats_respond (opDec_eq_next.2 (.inr (.inr (.inr ⟨hx, rfl⟩))))

end

end Sys2Proof.Machine
end

section
/-! The statement about repeated commands (spec/20_memory.md R57). -/

namespace Sys2Proof.Machine

/-- Settles O36, command by command. -/
theorem repeatedCommandsAnswerTheSame : Obligations.RepeatedCommandsAnswerTheSame := by
  unfold Obligations.RepeatedCommandsAnswerTheSame
  rintro p - s t i hs (rfl | rfl | rfl | ⟨r, rfl⟩) hn
  · exact opEnc_repeats hn
  · exact opCrctx_repeats hn
  · exact opDec_repeats hs hn
  · exact opRdreg_repeats hn

end Sys2Proof.Machine
end

section
/-! SUPPORT. The operand and the response word read from their bit positions (spec/30_encoding.md R81, R82), and the
opcode table on command words, which looks at their operation code alone (R80, R182). -/

namespace Sys2Proof

/-! ## Command words and the opcode table -/

/-- The low `n` bits of an operand are the operand modulo `2 ^ n` (R81). -/
theorem extractLsb'_zero_eq_ofNat (n : Nat) (a : BitVec 32) : a.extractLsb' 0 n = BitVec.ofNat n a.toNat := rfl

/-- Of a command word the mask of the table's command rows leaves the operation code. -/
theorem and_opMask (w : BitVec 36) : w &&& 0xF00000000 = opField w ++ 0#32 := by
  have : (opField w ++ operandField w) &&& (0xF#4 ++ 0#32) = opField w ++ 0#32 := by
    rw [BitVec.and_append]
    congr
    · exact BitVec.and_allOnes
    · exact BitVec.and_zero
  rwa [append_fields] at this

/-- A row that looks, in a command word, at the operation code at most. -/
def RowFormat.readsOpcodeOnly : RowFormat → Bool
  | .cmd _ mask => mask == 0xF00000000
  | .byteEvent | .expireStrobe | .resetStrobe | .frame _ _ => true

theorem opcodeTable_readsOpcodeOnly : ∀ row ∈ opcodeTable, row.2.readsOpcodeOnly = true := by decide

theorem RowFormat.matches_opField {f : RowFormat} (h : f.readsOpcodeOnly = true) (w : BitVec 36) :
    f.matches (.command w) = f.matches (.command (opField w ++ 0#32)) := by
  cases f with
  | cmd value mask =>
    obtain rfl : mask = 0xF00000000 := by simpa [readsOpcodeOnly] using h
    simp only [RowFormat.matches, and_opMask, opField_append]
  | byteEvent | expireStrobe | resetStrobe | frame => rfl

/-- The operand does not choose the operation (R182). -/
theorem mnemonic_decodeCommand_opField (w : BitVec 36) :
    (decodeCommand w).mnemonic = (decodeCommand (opField w ++ 0#32)).mnemonic := by
  simp only [decodeCommand, opField_append]
  split <;> rfl

/-- Each of the sixteen operation codes has one row, its operation's. -/
theorem opcodeTable_filter_opcode : ∀ op : BitVec 4,
    (opcodeTable.filter fun row => row.2.matches (.command (op ++ 0#32))).map Prod.fst =
      [(decodeCommand (op ++ 0#32)).mnemonic] := by
  decide

end Sys2Proof

namespace Sys2Proof.Machine

/-! ## Response words -/

theorem Status.ofCode_code (status : Status) : Status.ofCode status.code = some status := by
  cases status <;> rfl

theorem Response.word_status (r : Response) : r.word.extractLsb' 64 4 = r.status.code :=
  BitVec.extractLsb'_append_eq_left

theorem Response.word_v0 (r : Response) : r.word.extractLsb' 32 32 = r.v0 :=
  (BitVec.extractLsb'_append_eq_of_add_le (by decide)).trans BitVec.extractLsb'_append_eq_left

theorem Response.word_v1 (r : Response) : r.word.extractLsb' 0 32 = r.v1 :=
  (BitVec.extractLsb'_append_eq_of_add_le (by decide)).trans BitVec.extractLsb'_append_eq_right

theorem Response.ofWord_word (r : Response) : Response.ofWord r.word = some r := by
  simp only [ofWord, word_status, word_v0, word_v1, Status.ofCode_code, Option.map_some]

end Sys2Proof.Machine
end

section
/-! SUPPORT. A whole frame arriving at a freshly started reader (spec/43_frame_reader.md R163 to R168, R179): what each
byte of it does to a reader that holds the bytes before it, and the state the last one leaves. -/

namespace Sys2Proof.Machine

/-- One byte more than a run. -/
theorem Memory.writeBytes_concat (m : Memory) (i : Nat) (bytes : List Byte) (b : Byte) :
    m.writeBytes i (bytes ++ [b]) = (m.writeBytes i bytes).write (i + bytes.length) b := by
  induction bytes generalizing m i with
  | nil => rfl
  | cons x rest ih =>
    rw [List.cons_append, writeBytes, writeBytes, ih, List.length_cons, Nat.add_assoc, Nat.add_comm 1]

@[simp] theorem FrameKind.total_short (n : Nat) : FrameKind.short.total n = n + 5 := by
  simp only [FrameKind.total, FrameKind.hdr]
  omega

@[simp] theorem FrameKind.total_long (n : Nat) : FrameKind.long.total n = n + 6 := by
  simp only [FrameKind.total, FrameKind.hdr]
  omega

/-! ## A reader that holds bytes -/

/-- `s` with `bytes` stored in its frame buffer from the start, and counted. -/
def holding (bytes : List Byte) (s : State) : State :=
  { s with rxf := s.rxf.writeBytes 0 bytes, rxCount := BitVec.ofNat 17 bytes.length }

/-- `s` with the registers a header of kind `k` and payload length `n` sets (R163 to R165), in reader state `x`. -/
def expecting (k : FrameKind) (n : Nat) (x : RxState) (s : State) : State :=
  { s with rxKind := k, rxLen := BitVec.ofNat 16 n, rxExpect := BitVec.ofNat 17 (k.total n), rxState := x }

section
variable {p : Params} {s : State} {b : Byte} {bytes held : List Byte}

theorem holding_nil (hc : s.rxCount = 0) : holding [] s = s := by
  obtain ⟨⟨_, _, _, _, count, _, _, _, _, _, _, _⟩, _, _⟩ := s
  obtain rfl : count = 0 := hc
  rfl

theorem rxCount_holding (h : bytes.length ≤ 65541) : (holding bytes s).rxCount.toNat = bytes.length := by
  simp only [holding, BitVec.toNat_ofNat]
  omega

/-- Storing one more byte. -/
theorem rxStore_holding (hv : p.valid = true) (hcap : held.length + 1 ≤ p.frameCap) (after : State → State) :
    rxStore p b after (holding held s) = .next (after (holding (held ++ [b]) s)) := by
  have := valid_bounds hv
  have hcount : (holding held s).rxCount.toNat = held.length := rxCount_holding (by omega)
  refine rxStore_eq_next.2 ⟨by omega, congrArg after ?_⟩
  simp only [hcount]
  simp only [holding, Memory.writeBytes_concat, Nat.zero_add, List.length_append, List.length_singleton,
    BitVec.ofNat_add]
  rfl

/-! ## The header -/

/-- The marker of a kind this block reads (R163). -/
theorem opRxbyte_marker (hv : p.valid = true) (hs : s.rxState = .waitingForHeader) {k : FrameKind}
    (hk : k = .long → p.longEn = true) :
    opRxbyte p k.marker (holding [] s) = .next (holding [k.marker] { s with rxKind := k }) := by
  have hroom : ([] : List Byte).length + 1 ≤ p.frameCap := by
    have := valid_bounds hv
    rw [List.length_nil]
    omega
  have hm : opRxbyte p k.marker (holding [] s) = rxMarker p k.marker (holding [] s) := by
    simp [opRxbyte, holding, hs]
  rw [hm]
  cases k with
  | short =>
    rw [rxMarker, if_pos (by rfl)]
    exact rxStore_holding hv hroom _
  | long =>
    rw [rxMarker, if_neg (by decide), if_pos ⟨rfl, hk rfl⟩]
    exact rxStore_holding hv hroom _

/-- The last length byte, when the declared frame has room (R164, R165). -/
theorem rxDeclare_holding (hv : p.valid = true) {k : FrameKind} (hk : s.rxKind = k) {n : Nat}
    (hheld : held.length + 1 = k.hdr) (hcap : k.total n ≤ p.frameCap) :
    rxDeclare p b n (k.total n) (holding held s) =
      .next (holding (held ++ [b]) (expecting k n .accumulatingPayload s)) := by
  subst hk
  have hroom : held.length + 1 ≤ p.frameCap := by
    simp only [FrameKind.total] at hcap
    omega
  rw [rxDeclare, if_neg (by omega), rxStore_holding hv hroom]
  rfl

/-- The length byte of a Short header (R164). -/
theorem opRxbyte_shortLength (hv : p.valid = true) (hs : s.rxState = .waitingForHeader) (hk : s.rxKind = .short)
    (m : Byte) {n : Nat} (hn : n ≤ 255) (hcap : FrameKind.short.total n ≤ p.frameCap) :
    opRxbyte p (BitVec.ofNat 8 n) (holding [m] s) =
      .next (holding [m, BitVec.ofNat 8 n] (expecting .short n .accumulatingPayload s)) := by
  have hlen : (BitVec.ofNat 8 n).toNat = n := by
    rw [BitVec.toNat_ofNat]
    omega
  have hd : opRxbyte p (BitVec.ofNat 8 n) (holding [m] s) =
      rxDeclare p (BitVec.ofNat 8 n) n (FrameKind.short.total n) (holding [m] s) := by
    simp [opRxbyte, holding, hs, hk, rxShortLength, hlen]
  rw [hd]
  exact rxDeclare_holding hv hk rfl hcap

/-- The first length byte of a Long header (R165). -/
theorem opRxbyte_longLengthHi (hv : p.valid = true) (hs : s.rxState = .waitingForHeader) (hk : s.rxKind = .long)
    (m hi : Byte) : opRxbyte p hi (holding [m] s) = .next (holding [m, hi] s) := by
  have hroom := valid_bounds hv
  have hstore : opRxbyte p hi (holding [m] s) = rxStore p hi (fun t => t) (holding [m] s) := by
    simp [opRxbyte, holding, hs, hk, rxLongLength]
  rw [hstore]
  exact rxStore_holding hv (by rw [List.length_singleton]; omega) _

/-- The second one, which completes the declared length (R165). -/
theorem opRxbyte_longLengthLo (hv : p.valid = true) (hwf : s.rxf.wf = true) (hs : s.rxState = .waitingForHeader)
    (hk : s.rxKind = .long) (m : Byte) {n : Nat} (hn : n ≤ 65535) (hcap : FrameKind.long.total n ≤ p.frameCap) :
    opRxbyte p (BitVec.ofNat 8 n) (holding [m, BitVec.ofNat 8 (n / 256)] s) =
      .next (holding [m, BitVec.ofNat 8 (n / 256), BitVec.ofNat 8 n] (expecting .long n .accumulatingPayload s)) := by
  have hread : (s.rxf.writeBytes 0 [m, BitVec.ofNat 8 (n / 256)]).read 1 = BitVec.ofNat 8 (n / 256) := by
    simp [Memory.read_writeBytes hwf]
  have hd : opRxbyte p (BitVec.ofNat 8 n) (holding [m, BitVec.ofNat 8 (n / 256)] s) =
      rxDeclare p (BitVec.ofNat 8 n) n (FrameKind.long.total n) (holding [m, BitVec.ofNat 8 (n / 256)] s) := by
    simp [opRxbyte, holding, hs, hk, rxLongLength, hread, longLength_bytes n hn]
  rw [hd]
  exact rxDeclare_holding hv hk rfl hcap

/-- A Short header (R163, R164). -/
theorem rxBytes_shortHeader (hv : p.valid = true) (hs : s.rxState = .waitingForHeader) {n : Nat} (hn : n ≤ 255)
    (hcap : FrameKind.short.total n ≤ p.frameCap) :
    rxBytes p (FrameKind.short.marker :: FrameKind.short.lengthBytes n) (holding [] s) =
      .next (holding (FrameKind.short.marker :: FrameKind.short.lengthBytes n)
        (expecting .short n .accumulatingPayload s)) := by
  have hm := opRxbyte_marker hv hs (k := .short) nofun
  have hl := opRxbyte_shortLength hv (s := { s with rxKind := .short }) hs rfl FrameKind.short.marker hn hcap
  simp only [FrameKind.lengthBytes, rxBytes, hm, hl, andThen_next]
  rfl

/-- A Long header (R163, R165). -/
theorem rxBytes_longHeader (hv : p.valid = true) (hlong : p.longEn = true) (hwf : s.rxf.wf = true)
    (hs : s.rxState = .waitingForHeader) {n : Nat} (hn : n ≤ 65535) (hcap : FrameKind.long.total n ≤ p.frameCap) :
    rxBytes p (FrameKind.long.marker :: FrameKind.long.lengthBytes n) (holding [] s) =
      .next (holding (FrameKind.long.marker :: FrameKind.long.lengthBytes n)
        (expecting .long n .accumulatingPayload s)) := by
  have hm := opRxbyte_marker hv hs (k := .long) fun _ => hlong
  have hhi := opRxbyte_longLengthHi hv (s := { s with rxKind := .long }) hs rfl FrameKind.long.marker
  have hlo := opRxbyte_longLengthLo hv (s := { s with rxKind := .long }) hwf hs rfl FrameKind.long.marker hn hcap
  simp only [FrameKind.lengthBytes, rxBytes, hm, hhi, hlo, andThen_next]
  rfl

/-! ## After the header -/

/-- A byte the reader waits for is stored; at the end-of-frame offset it is the terminator test (R167, R168). -/
theorem opRxbyte_accumulate (hv : p.valid = true) (hs : s.rxState = .accumulatingPayload)
    (hlt : held.length < s.rxExpect.toNat) (hcap : s.rxExpect.toNat ≤ p.frameCap) :
    opRxbyte p b (holding held s) =
      .next (holding (held ++ [b])
        { s with
          rxState :=
            if held.length + 1 = s.rxExpect.toNat ∧ b = terminator then .terminated else .accumulatingPayload }) := by
  have hb := valid_bounds hv
  have hcount : (holding held s).rxCount.toNat = held.length := rxCount_holding (by omega)
  have hcount' : (holding (held ++ [b]) s).rxCount.toNat = held.length + 1 := by
    simpa using rxCount_holding (bytes := held ++ [b]) (s := s) (by simp; omega)
  have hacc : opRxbyte p b (holding held s) = rxAccumulate p b (holding held s) := by
    have : (holding held s).rxCount < s.rxExpect := BitVec.lt_def.2 (by omega)
    simp only [opRxbyte, show (holding held s).rxState = .accumulatingPayload from hs]
    exact if_pos this
  have hend : (holding (held ++ [b]) s).rxCount = s.rxExpect ↔ held.length + 1 = s.rxExpect.toNat := by
    rw [← hcount', BitVec.toNat_inj]
  rw [hacc, rxAccumulate, rxStore_holding hv (by omega)]
  simp only [show (holding (held ++ [b]) s).rxExpect = s.rxExpect from rfl, hend]
  split
  · rfl
  · rw [← hs]

/-- Bytes before the end-of-frame offset are stored (R167). -/
theorem rxBytes_accumulate (hv : p.valid = true) (hs : s.rxState = .accumulatingPayload)
    (hlt : held.length + bytes.length < s.rxExpect.toNat) (hcap : s.rxExpect.toNat ≤ p.frameCap) :
    rxBytes p bytes (holding held s) = .next (holding (held ++ bytes) s) := by
  induction bytes generalizing held with
  | nil => rw [List.append_nil, rxBytes]
  | cons b rest ih =>
    rw [List.length_cons] at hlt
    have hb : opRxbyte p b (holding held s) = .next (holding (held ++ [b]) s) := by
      rw [opRxbyte_accumulate hv hs (by omega) hcap, if_neg (by omega), ← hs]
    rw [rxBytes, hb, andThen_next, ih (by simp; omega), List.append_assoc, List.singleton_append]

/-! ## The whole frame -/

/-- Behind a header that was taken, the rest of the frame is stored and its last byte is the terminator test. -/
theorem opFrame_of_header (hv : p.valid = true) {k : FrameKind} {payload : List Byte}
    (hcap : k.total payload.length ≤ p.frameCap)
    (hh : rxBytes p (k.marker :: k.lengthBytes payload.length) (holding [] s) =
      .next (holding (k.marker :: k.lengthBytes payload.length)
        (expecting k payload.length .accumulatingPayload s)))
    (crcHi crcLo last : Byte) :
    opFrame p k payload crcHi crcLo last (holding [] s) =
      .next (holding (frameBytes k payload crcHi crcLo last)
        (expecting k payload.length (if last = terminator then .terminated else .accumulatingPayload) s)) := by
  have hb := valid_bounds hv
  have hexpect : (expecting k payload.length .accumulatingPayload s).rxExpect.toNat = k.total payload.length := by
    simp only [expecting, BitVec.toNat_ofNat]
    omega
  have hsplit : frameBytes k payload crcHi crcLo last =
      (k.marker :: k.lengthBytes payload.length) ++ (payload ++ [crcHi, crcLo]) ++ [last] := by
    simp [frameBytes]
  have hlen : (k.marker :: k.lengthBytes payload.length).length + (payload ++ [crcHi, crcLo]).length + 1 =
      k.total payload.length := by
    rw [← length_frameBytes k payload crcHi crcLo last, hsplit]
    simp only [List.length_append, List.length_cons, List.length_nil]
  rw [opFrame, hsplit, rxBytes_append, rxBytes_append, hh, andThen_next,
    rxBytes_accumulate hv rfl (by omega) (by omega), andThen_next, rxBytes,
    opRxbyte_accumulate hv rfl (by rw [List.length_append]; omega) (by omega)]
  simp only [List.length_append (bs := payload ++ _), hexpect, hlen, true_and]
  rfl

/-- What a reader that holds the whole of `frame` shows (R163 to R168), and that nothing else has changed. -/
theorem holding_frame (hwf : s.rxf.wf = true) (k : FrameKind) {n total : Nat} (x : RxState) {frame : List Byte}
    (htotal : k.total n = total) (hlen : frame.length = total) (hn : n ≤ 65535) :
    let t := holding frame (expecting k n x s)
    t.rxState = x ∧ t.rxCount.toNat = total ∧ t.rxExpect = t.rxCount ∧ t.rxLen.toNat = n ∧ t.rxKind = k ∧
      (∀ a, t.rxf.read a = if a < total then frame.getD a 0 else s.rxf.read a) ∧
      Silent s t ∧ KeepsAllBut [.rxf, .rxState, .rxCount, .rxKind, .rxLen, .rxExpect] s t := by
  have hcap : total ≤ 65541 := by
    cases k with
    | short =>
      rw [FrameKind.total_short] at htotal
      omega
    | long =>
      rw [FrameKind.total_long] at htotal
      omega
  refine ⟨rfl, (rxCount_holding (by omega)).trans hlen, ?_, ?_, rfl, fun a => ?_, rfl, rfl, fun x hx => ?_⟩
  · simp only [holding, expecting, htotal, hlen]
  · simp only [holding, expecting, BitVec.toNat_ofNat]
    omega
  · simp [holding, expecting, Memory.read_writeBytes hwf, hlen]
  · cases x <;> simp [Piece.Same, holding, expecting] at hx ⊢

/-! ## A frame as its bytes, and a Long frame here -/

theorem rxBytes_eq_runWith : rxBytes p bytes s = runWith p (bytes.map .rxbyte) s := by
  induction bytes generalizing s with
  | nil => rfl
  | cons b rest ih =>
    simp only [rxBytes, List.map_cons, runWith, execWith]
    congr
    funext t
    exact ih

/-- Where the reader is not active bytes change nothing (R162, log 5). -/
theorem rxBytes_inactive (h : s.rxState.active = false) : rxBytes p bytes s = .next s := by
  have := arrivals_inactive (p := p) (arrivals := bytes.map .byte) h
  rwa [List.map_map, show Arrival.instr ∘ Arrival.byte = Instr.rxbyte from rfl, ← rxBytes_eq_runWith] at this

/-- Without Long framing the marker of a Long frame ends the reception, and its other bytes are not accepted
(R85, R163). -/
theorem opFrame_long_rejected (hlong : p.longEn = false) (hs : s.rxState = .waitingForHeader) (hc : s.rxCount = 0)
    (payload : List Byte) (crcHi crcLo last : Byte) :
    opFrame p .long payload crcHi crcLo last s = .next { s with rxState := .malformedHeader } := by
  have hm : opRxbyte p FrameKind.long.marker s = .next { s with rxState := .malformedHeader } := by
    simp [opRxbyte, hs, hc, rxMarker, FrameKind.marker, hlong, rxReject]
  rw [opFrame, frameBytes, rxBytes, hm, andThen_next]
  exact rxBytes_inactive rfl

end

end Sys2Proof.Machine
end

section
/-! The statements about the encodings (spec/30_encoding.md) and the frames as inputs (R90). -/

namespace Sys2Proof.Machine

/-- Settles O1: the decoder is a left inverse of the encoder. -/
theorem decodeOfEncodeIsTheInstruction : Obligations.DecodeOfEncodeIsTheInstruction :=
  fun _ hwf => decode_encode hwf

/-- Settles O3: row and decoded operation both depend on the operation code alone, and each code has one row. -/
theorem everyCommandWordMatchesExactlyItsRow : Obligations.EveryCommandWordMatchesExactlyItsRow := by
  unfold Obligations.EveryCommandWordMatchesExactlyItsRow
  intro w
  have hrows : (opcodeTable.filter fun row => row.2.matches (.command w)) =
      opcodeTable.filter fun row => row.2.matches (.command (opField w ++ 0#32)) :=
    List.filter_congr fun row hrow => RowFormat.matches_opField (opcodeTable_readsOpcodeOnly row hrow) w
  rw [hrows, mnemonic_decodeCommand_opField, opcodeTable_filter_opcode]

/-- Settles O47: the header is taken, the other bytes accumulate, the last one is the terminator test. -/
theorem aShortFrameIsReceivedWhole : Obligations.AShortFrameIsReceivedWhole := by
  unfold Obligations.AShortFrameIsReceivedWhole
  refine ⟨fun s payload crcHi crcLo last => rxBytes_eq_runWith, fun s payload crcHi crcLo last hwf hs hc hn => ?_⟩
  have hcap : FrameKind.short.total payload.length ≤ hardware.frameCap := by
    rw [FrameKind.total_short]
    exact Nat.add_le_add_right hn 5
  have hrun := opFrame_of_header hardware_valid hcap (rxBytes_shortHeader hardware_valid hs hn hcap) crcHi crcLo last
  rw [holding_nil hc] at hrun
  exact ⟨_, hrun, holding_frame hwf .short _ (FrameKind.total_short _) (by simp) (by omega)⟩

/-- Settles O48: on this hardware the marker is rejected; with Long framing as for a Short frame. -/
theorem aLongFrameIsRejectedOrReceivedWhole : Obligations.ALongFrameIsRejectedOrReceivedWhole := by
  unfold Obligations.ALongFrameIsRejectedOrReceivedWhole
  refine ⟨fun p s payload crcHi crcLo last => rxBytes_eq_runWith, fun s payload crcHi crcLo last hs hc => ?_,
    fun p hv hlong s payload crcHi crcLo last hwf hs hc hroom => ?_⟩
  · refine ⟨_, opFrame_long_rejected rfl hs hc payload crcHi crcLo last, rfl, rfl, rfl, fun x hx => ?_⟩
    cases x <;> simp [Piece.Same] at hx ⊢
  · have hb := valid_bounds hv
    have hn : payload.length ≤ 65535 := by omega
    have hcap : FrameKind.long.total payload.length ≤ p.frameCap := by rwa [FrameKind.total_long]
    have hrun := opFrame_of_header hv hcap (rxBytes_longHeader hv hlong hwf hs hn hcap) crcHi crcLo last
    rw [holding_nil hc] at hrun
    exact ⟨_, hrun, holding_frame hwf .long _ (FrameKind.total_long _) (by simp) hn⟩

/-- Settles O2: the fields of the word are its two parts, and the decoder takes the low bits of the second. -/
theorem commandWordsDecodeByOpAndOperand : Obligations.CommandWordsDecodeByOpAndOperand := by
  unfold Obligations.CommandWordsDecodeByOpAndOperand
  intro a
  simp [decodeCommand, extractLsb'_zero_eq_ofNat]

/-- Settles O4, word by word. -/
theorem writtenOutWordsDecode : Obligations.WrittenOutWordsDecode := by
  unfold Obligations.WrittenOutWordsDecode
  decide

/-- Settles O5: the word is its three fields one behind the other. -/
theorem responseWordHoldsItsFields : Obligations.ResponseWordHoldsItsFields :=
  fun r => ⟨r.word_status, r.word_v0, r.word_v1, r.ofWord_word⟩

end Sys2Proof.Machine
end

section
/-! SUPPORT. The Fixed-Point Codec (spec/40_fixed_point_codec.md): what each shared operation does inside its bound and
outside it, the field a read takes, and the value it denotes. -/

namespace Sys2Proof.Machine

/-! ## Cursors -/

theorem toNat_ofNat_16 {k : Nat} (h : k < 65536) : (BitVec.ofNat 16 k).toNat = k := by
  rw [BitVec.toNat_ofNat, Nat.mod_eq_of_lt h]

/-- A cursor that does not wrap is answered as it stands. -/
theorem setWidth_ofNat_16 {k : Nat} (h : k < 65536) : (BitVec.ofNat 16 k).setWidth 32 = BitVec.ofNat 32 k := by
  apply BitVec.eq_of_toNat_eq
  rw [BitVec.toNat_setWidth, toNat_ofNat_16 h, BitVec.toNat_ofNat]

/-! ## What moving a cursor, storing and answering keep -/

theorem KeepsAllBut.respond {ws : List Piece} {s t : State} (h : KeepsAllBut ws s t) (status : Status)
    (v0 v1 : Word) : KeepsAllBut ws s (respond status v0 v1 t) :=
  h.trans (.of_block rfl rfl)

theorem keepsAllBut_rxpCur (s : State) (c : BitVec 16) : KeepsAllBut [.rxpCur] s { s with rxpCur := c } :=
  ⟨rfl, fun x hx => by cases x <;> simp [Piece.Same] at hx ⊢⟩

theorem keepsAllBut_txpCur (s : State) (c : BitVec 16) : KeepsAllBut [.txpCur] s { s with txpCur := c } :=
  ⟨rfl, fun x hx => by cases x <;> simp [Piece.Same] at hx ⊢⟩

theorem keepsAllBut_txp_txpCur (s : State) (m : Memory) (c : BitVec 16) :
    KeepsAllBut [.txp, .txpCur] s { s with txp := m, txpCur := c } :=
  ⟨rfl, fun x hx => by cases x <;> simp [Piece.Same] at hx ⊢⟩

/-! ## Bytes of a field -/

/-- Of a run of bytes put in a buffer, the first is read at its start, and elsewhere the rest decides. -/
theorem Memory.read_writeBytes_cons {m : Memory} (h : m.wf = true) (i : Nat) (b : Byte) (rest : List Byte) (x : Nat) :
    (m.writeBytes i (b :: rest)).read x = if x = i then b else (m.writeBytes (i + 1) rest).read x := by
  rw [writeBytes, read_writeBytes (write_wf h i b), read_writeBytes h, read_write h]
  by_cases hx : x = i
  · rw [if_neg (by omega), if_pos hx, if_pos hx]
  · simp only [if_neg hx]

theorem fieldWord_readBytes_two (m : Memory) (i : Nat) :
    fieldWord 2 (beNat (m.readBytes i 2)) = (m.read i ++ m.read (i + 1)).signExtend 32 :=
  fieldWord_two _ _

theorem fieldWord_readBytes_four (m : Memory) (i : Nat) :
    fieldWord 4 (beNat (m.readBytes i 4)) = m.read i ++ m.read (i + 1) ++ m.read (i + 2) ++ m.read (i + 3) :=
  fieldWord_four _ _ _ _

/-- A run of bytes denotes less than the power of 256 its length gives. -/
theorem beNat_lt (bytes : List Byte) : beNat bytes < 2 ^ (8 * bytes.length) := by
  induction bytes using List.reverseRecOn with
  | nil => simp [beNat]
  | append_singleton bytes b ih =>
    rw [beNat_append_single, List.length_append, List.length_singleton, Nat.mul_add, pow_add]
    omega

/-- Sign extension keeps the integer of a field (R117 (c)). -/
theorem toInt_fieldWord_readBytes (m : Memory) (i : Nat) {n : Nat} (h0 : 0 < n) (h4 : n ≤ 4) :
    (fieldWord n (beNat (m.readBytes i n))).toInt = signed (8 * n) (beNat (m.readBytes i n)) := by
  have hlt : beNat (m.readBytes i n) < 2 ^ (8 * n) := by
    simpa using beNat_lt (m.readBytes i n)
  rw [fieldWord, BitVec.toInt_signExtend_of_le (by omega), ← signed_eq_toInt _ (by omega), BitVec.toNat_ofNat,
    Nat.mod_eq_of_lt hlt]

/-- Sign extension keeps the integer of a 16-bit field, so the answer denotes the field over the scale (R106). -/
theorem denoted_signExtend (x : BitVec 16) (v1 : Word) :
    denoted (x.signExtend 32) v1 = (x.toInt : Rat) / (v1.toNat : Rat) := by
  rw [denoted, BitVec.toInt_signExtend_of_le (by omega)]

theorem denoted_one (v0 : Word) : denoted v0 1 = (v0.toInt : Rat) := by
  simp [denoted]

/-! ## The pure reads -/

theorem readInt16_eq_none {m : Memory} {len c : Nat} : readInt16 m len c = none ↔ len < c + 2 := by
  simp [readInt16]

theorem readInt32_eq_none {m : Memory} {len c : Nat} : readInt32 m len c = none ↔ len < c + 4 := by
  simp [readInt32]

theorem readInt16_eq_some {m : Memory} {len c : Nat} {r : Int × Nat} :
    readInt16 m len c = some r ↔
      c + 2 ≤ len ∧ ((fieldWord 2 (beNat (m.readBytes c 2))).toInt, c + 2) = r := by
  rw [toInt_fieldWord_readBytes m c (by omega) (by omega)]
  simp [readInt16]

theorem readInt32_eq_some {m : Memory} {len c : Nat} {r : Int × Nat} :
    readInt32 m len c = some r ↔
      c + 4 ≤ len ∧ ((fieldWord 4 (beNat (m.readBytes c 4))).toInt, c + 4) = r := by
  rw [toInt_fieldWord_readBytes m c (by omega) (by omega)]
  simp [readInt32]

theorem readFloat16_eq_none {m : Memory} {len scale c : Nat} :
    readFloat16 m len scale c = none ↔ readInt16 m len c = none := Option.map_eq_none_iff

theorem readFloat32_eq_none {m : Memory} {len scale c : Nat} :
    readFloat32 m len scale c = none ↔ readInt32 m len c = none := Option.map_eq_none_iff

/-- A scaled function gives what the field denotes with the scale beside it (R106). -/
theorem readFloat16_eq_some {m : Memory} {len c : Nat} {scale : Word} {r : Rat × Nat} :
    readFloat16 m len scale.toNat c = some r ↔
      c + 2 ≤ len ∧ (denoted (fieldWord 2 (beNat (m.readBytes c 2))) scale, c + 2) = r := by
  simp [readFloat16, readInt16_eq_some, denoted]

theorem readFloat32_eq_some {m : Memory} {len c : Nat} {scale : Word} {r : Rat × Nat} :
    readFloat32 m len scale.toNat c = some r ↔
      c + 4 ≤ len ∧ (denoted (fieldWord 4 (beNat (m.readBytes c 4))) scale, c + 4) = r := by
  simp [readFloat32, readInt32_eq_some, denoted]

/-- A pattern appended is the field read back (R117 (g)). -/
theorem fieldWord_readBytes_writeBytes_four {m : Memory} (h : m.wf = true) (i : Nat) (v : Word) :
    fieldWord 4 (beNat ((m.writeBytes i (beBytes 4 v.toNat)).readBytes i 4)) = v := by
  have hback := Memory.readBytes_writeBytes h i (beBytes 4 v.toNat)
  rw [length_beBytes] at hback
  rw [hback, beNat_beBytes, Nat.mod_eq_of_lt v.isLt]
  simp [fieldWord]

/-! ## The shared operations, inside their bound and outside it -/

section
variable {p : Params} {s : State}

theorem appendBytes_of_le (hv : p.valid = true) {bytes : List Byte} (h : s.txpCur.toNat + bytes.length ≤ p.txpCap) :
    ∃ t, appendBytes p bytes s = .next t ∧ t.txpCur.toNat = s.txpCur.toNat + bytes.length ∧
      t.txp = s.txp.writeBytes s.txpCur.toNat bytes ∧
      Answers s t .ok (BitVec.ofNat 32 (s.txpCur.toNat + bytes.length)) 0 ∧ KeepsAllBut [.txp, .txpCur] s t := by
  have hlt : s.txpCur.toNat + bytes.length < 65536 := by
    have := valid_bounds hv
    omega
  refine ⟨_, appendBytes_eq_next.2 (.inr ⟨h, rfl⟩), toNat_ofNat_16 hlt, rfl, ?_, ?_⟩
  · rw [Answers, respond_outputs, setWidth_ofNat_16 hlt]
  · exact (keepsAllBut_txp_txpCur ..).respond ..

theorem appendBytes_past {bytes : List Byte} (h : p.txpCap < s.txpCur.toNat + bytes.length) :
    Fails (appendBytes p bytes s) .boundsError s := by
  rw [appendBytes_eq_next.2 (.inl ⟨h, rfl⟩)]
  exact fails_fail _ s

theorem readField_of_le (hcap : s.rxpLen.toNat ≤ p.rxpCap) {n : Nat} (h : s.rxpCur.toNat + n ≤ s.rxpLen.toNat)
    (v1 : Word) :
    ∃ t, readField p n v1 s = .next t ∧ t.rxpCur.toNat = s.rxpCur.toNat + n ∧
      Answers s t .ok (fieldWord n (beNat (s.rxp.readBytes s.rxpCur.toNat n))) v1 ∧ KeepsAllBut [.rxpCur] s t :=
  ⟨_, readField_eq_next.2 (.inr ⟨h, h.trans hcap, rfl⟩), toNat_ofNat_16 (h.trans_lt s.rxpLen.isLt), rfl,
    (keepsAllBut_rxpCur ..).respond ..⟩

theorem readField_past {n : Nat} (h : s.rxpLen.toNat < s.rxpCur.toNat + n) (v1 : Word) :
    Fails (readField p n v1 s) .boundsError s := by
  rw [readField_eq_next.2 (.inl ⟨h, rfl⟩)]
  exact fails_fail _ s

theorem readScaled_zero (n : Nat) : Fails (readScaled p n 0 s) .scaleZero s := by
  rw [readScaled_eq_next.2 (.inl ⟨rfl, rfl⟩)]
  exact fails_fail _ s

theorem readScaled_of_ne {scale : Word} (h : scale ≠ 0) (n : Nat) :
    readScaled p n scale s = readField p n scale s := if_neg h

theorem moveCursor_of_le {k : Nat} (h : k ≤ s.rxpLen.toNat) :
    ∃ t, moveCursor k s = .next t ∧ t.rxpCur = BitVec.ofNat 16 k ∧ Answers s t .ok (BitVec.ofNat 32 k) 0 ∧
      KeepsAllBut [.rxpCur] s t := by
  refine ⟨_, moveCursor_eq_next.2 (.inr ⟨h, rfl⟩), rfl, ?_, (keepsAllBut_rxpCur ..).respond ..⟩
  rw [Answers, respond_outputs, setWidth_ofNat_16 (h.trans_lt s.rxpLen.isLt)]

theorem moveCursor_past {k : Nat} (h : s.rxpLen.toNat < k) : Fails (moveCursor k s) .boundsError s := by
  rw [moveCursor_eq_next.2 (.inl ⟨h, rfl⟩)]
  exact fails_fail _ s

/-! ## What a read denotes -/

/-- From `s` the result answers `OK` with a field and a scale that denote `x` (R106), and leaves the receive cursor at
`c`. -/
def Denotes (r : Result) (s : State) (x : Rat) (c : Nat) : Prop :=
  ∃ t v0 v1, r = .next t ∧ Answers s t .ok v0 v1 ∧ denoted v0 v1 = x ∧ t.rxpCur.toNat = c

theorem Inv.readField_denotes (hs : Inv p s) {n : Nat} (h : s.rxpCur.toNat + n ≤ s.rxpLen.toNat) (v1 : Word) :
    Denotes (readField p n v1 s) s (denoted (fieldWord n (beNat (s.rxp.readBytes s.rxpCur.toNat n))) v1)
      (s.rxpCur.toNat + n) := by
  obtain ⟨t, ht, hcur, hans, -⟩ := readField_of_le hs.rxCursor.2 h v1
  exact ⟨t, _, _, ht, hans, rfl, hcur⟩

end

end Sys2Proof.Machine
end

section
/-! The statements about the Fixed-Point Codec (spec/40_fixed_point_codec.md). -/

namespace Sys2Proof.Machine

/-- Settles O17: the run of bytes appended is the one byte. -/
theorem appu8AppendsOneByteOrFails : Obligations.Appu8AppendsOneByteOrFails := by
  unfold Obligations.Appu8AppendsOneByteOrFails
  refine fun s b hwf => ⟨fun hroom => ?_, fun hfull => appendBytes_past hfull⟩
  obtain ⟨t, ht, hcur, htxp, hans, hkeep⟩ := appendBytes_of_le hardware_valid (bytes := [b]) hroom
  refine ⟨t, ht, hcur, fun a => ?_, hans, hkeep⟩
  rw [htxp, Memory.read_writeBytes_cons hwf, Memory.writeBytes]

/-- Settles O18: the run of bytes appended is the four big-endian bytes of the operand. -/
theorem appi32AppendsFourBigEndianBytesOrFails : Obligations.Appi32AppendsFourBigEndianBytesOrFails := by
  unfold Obligations.Appi32AppendsFourBigEndianBytesOrFails
  refine fun s v hwf => ⟨fun hroom => ?_, fun hfull => appendBytes_past hfull⟩
  obtain ⟨t, ht, hcur, htxp, hans, hkeep⟩ := appendBytes_of_le hardware_valid (bytes := beBytes 4 v.toNat) hroom
  refine ⟨t, ht, hcur, fun a => ?_, hans, hkeep⟩
  rw [htxp, beBytes_four]
  simp only [Memory.read_writeBytes_cons hwf]
  rfl

/-- Settles O19: both are the read of a field, of 2 and of 4 bytes, with `v1 = 1`. -/
theorem integerReadsAnswerTheFieldAtTheCursor : Obligations.IntegerReadsAnswerTheFieldAtTheCursor := by
  unfold Obligations.IntegerReadsAnswerTheFieldAtTheCursor
  refine fun s hcap => ⟨fun h => ?_, fun h => readField_past h 1, fun h => ?_, fun h => readField_past h 1⟩
  · rw [← fieldWord_readBytes_two]
    exact readField_of_le hcap h 1
  · rw [← fieldWord_readBytes_four]
    exact readField_of_le hcap h 1

/-- Settles O20: scale 0 is tested first; any other scale gives the read of a field with the scale as `v1`. -/
theorem scaledReadsAnswerTheFieldAndTheScale : Obligations.ScaledReadsAnswerTheFieldAndTheScale := by
  unfold Obligations.ScaledReadsAnswerTheFieldAndTheScale
  refine fun s scale hcap => ⟨?_, fun h0 => ?_⟩
  · rintro rfl
    exact ⟨readScaled_zero (p := hardware) 2, readScaled_zero (p := hardware) 4⟩
  have h16 : exec (.rdf16 scale) s = readField hardware 2 scale s := readScaled_of_ne h0 2
  have h32 : exec (.rdf32 scale) s = readField hardware 4 scale s := readScaled_of_ne h0 4
  rw [h16, h32]
  refine ⟨fun h => ?_, fun h => readField_past h scale, fun h => ?_, fun h => readField_past h scale⟩
  · obtain ⟨t, ht, hcur, hans, hkeep⟩ := readField_of_le hcap h scale
    rw [fieldWord_readBytes_two] at hans
    exact ⟨t, ht, hcur, hans, denoted_signExtend _ scale, hkeep⟩
  · obtain ⟨t, ht, hcur, hans, hkeep⟩ := readField_of_le hcap h scale
    rw [fieldWord_readBytes_four] at hans
    exact ⟨t, ht, hcur, hans, rfl, hkeep⟩

/-- Settles O21: each function has a value exactly where its operation is inside the bound. -/
theorem readsDenoteTheCodecFunctions : Obligations.ReadsDenoteTheCodecFunctions := by
  unfold Obligations.ReadsDenoteTheCodecFunctions
  intro p _ s scale hs h0
  have h16 : execWith p (.rdf16 scale) s = readField p 2 scale s := readScaled_of_ne h0 2
  have h32 : execWith p (.rdf32 scale) s = readField p 4 scale s := readScaled_of_ne h0 4
  rw [h16, h32]
  refine ⟨fun x c h => ?_, fun x c h => ?_, fun x c h => ?_, fun x c h => ?_,
    fun h => readField_past (readInt16_eq_none.1 h) 1, fun h => readField_past (readInt32_eq_none.1 h) 1,
    fun h => readField_past (readInt16_eq_none.1 (readFloat16_eq_none.1 h)) scale,
    fun h => readField_past (readInt32_eq_none.1 (readFloat32_eq_none.1 h)) scale⟩
  · obtain ⟨hle, ⟨⟩⟩ := readInt16_eq_some.1 h
    exact denoted_one _ ▸ hs.readField_denotes hle 1
  · obtain ⟨hle, ⟨⟩⟩ := readInt32_eq_some.1 h
    exact denoted_one _ ▸ hs.readField_denotes hle 1
  · obtain ⟨hle, ⟨⟩⟩ := readFloat16_eq_some.1 h
    exact hs.readField_denotes hle scale
  · obtain ⟨hle, ⟨⟩⟩ := readFloat32_eq_some.1 h
    exact hs.readField_denotes hle scale

/-- Settles O24: the four bytes put down are the field read back. -/
theorem appendThenReadGivesTheSameValue : Obligations.AppendThenReadGivesTheSameValue := by
  unfold Obligations.AppendThenReadGivesTheSameValue
  intro m m' cap len c c' v scale hwf hlen happ
  obtain ⟨m₁, hstore, hpair⟩ := Option.map_eq_some_iff.1 happ
  obtain ⟨rfl, rfl⟩ := Prod.mk.inj hpair
  obtain ⟨-, rfl⟩ := storeBytes_eq_some.1 hstore
  have hread : readInt32 (m.writeBytes c (beBytes 4 v.toNat)) len c = some (v.toInt, c + 4) :=
    readInt32_eq_some.2 ⟨hlen, by rw [fieldWord_readBytes_writeBytes_four hwf]⟩
  exact ⟨rfl, hread, by rw [readFloat32, hread, Option.map_some]⟩

/-- Settles O16: the cursor is written and answered for, nothing else. -/
theorem txclrSetsTheTransmitCursorToZero : Obligations.TxclrSetsTheTransmitCursorToZero :=
  fun s => ⟨_, rfl, rfl, rfl, (keepsAllBut_txpCur s 0).respond .ok 0 0⟩

/-- Settles O22: the index is the place the cursor is moved to. -/
theorem curwrSetsTheReceiveCursorOrFails : Obligations.CurwrSetsTheReceiveCursorOrFails := by
  unfold Obligations.CurwrSetsTheReceiveCursorOrFails
  refine fun s k => ⟨fun h => ?_, fun h => moveCursor_past h⟩
  obtain ⟨t, ht, hcur, hans, hkeep⟩ := moveCursor_of_le h
  exact ⟨t, ht, by rw [hcur, BitVec.ofNat_toNat, BitVec.setWidth_eq], hans, hkeep⟩

/-- Settles O23: the sum, which does not wrap, is the place the cursor is moved to. -/
theorem skipAdvancesTheReceiveCursorOrFails : Obligations.SkipAdvancesTheReceiveCursorOrFails := by
  unfold Obligations.SkipAdvancesTheReceiveCursorOrFails
  refine fun s n => ⟨fun h => ?_, fun h => moveCursor_past h⟩
  obtain ⟨t, ht, hcur, hans, hkeep⟩ := moveCursor_of_le h
  refine ⟨t, ht, ?_, hans, hkeep⟩
  rw [hcur, toNat_ofNat_16 (h.trans_lt s.rxpLen.isLt)]

end Sys2Proof.Machine
end

section
/-! SUPPORT. The CRC16 Validator (spec/41_crc16.md): one byte of the recommended checksum is linear in the running
value and the byte together, is injective in each of them alone, and is what the table gives. The two CRC bytes of a
frame are the checksum of its payload. -/

namespace Sys2Proof.Machine

/-! ## The shift is linear and injective -/

/-- The polynomial is taken in for one operand, for the other, or for both, where it cancels (R124). -/
theorem crcShift_xor (c d : BitVec 16) : crcShift (c ^^^ d) = crcShift c ^^^ crcShift d := by
  simp only [crcShift, BitVec.msb_xor, BitVec.shiftLeft_xor_distrib]
  cases c.msb <;> cases d.msb
  · simp
  · simp [BitVec.xor_assoc]
  · simp [BitVec.xor_assoc, BitVec.xor_comm (d <<< 1)]
  · simp [BitVec.xor_assoc, BitVec.xor_comm (d <<< 1), ← BitVec.xor_assoc 0x1021#16]

/-- The bit shifted out comes back as bit 0 of the polynomial, so nothing is lost. -/
theorem eq_zero_of_crcShift_eq_zero {c : BitVec 16} (h : crcShift c = 0) : c = 0 := by
  unfold crcShift at h
  split at h
  · have h0 := congrArg (BitVec.getLsbD · 0) h
    simp at h0
  · next hm =>
    have hlt : 2 * c.toNat < 2 ^ 16 := BitVec.msb_eq_false_iff_two_mul_lt.1 (by simpa using hm)
    bv_omega

theorem crcShift_injective : Function.Injective crcShift := fun c d h => by
  rw [← BitVec.xor_eq_zero_iff] at h ⊢
  exact eq_zero_of_crcShift_eq_zero (crcShift_xor c d ▸ h)

theorem crcShift8_xor (c d : BitVec 16) : crcShift8 (c ^^^ d) = crcShift8 c ^^^ crcShift8 d := by
  simp only [crcShift8, crcShift_xor]

theorem crcShift8_injective : Function.Injective crcShift8 := by
  intro c d h
  iterate 8 replace h := crcShift_injective h
  exact h

/-! ## One byte -/

theorem crcByte_xor (c d : BitVec 16) (a b : Byte) : crcByte (c ^^^ d) (a ^^^ b) = crcByte c a ^^^ crcByte d b := by
  rw [crcByte, crcByte, crcByte, ← crcShift8_xor, BitVec.setWidth_xor, BitVec.shiftLeft_xor_distrib]
  congr 1
  ac_rfl

@[simp] theorem crcByte_zero : crcByte 0 0 = 0 := rfl

theorem crcByte_left_injective (b : Byte) : Function.Injective (crcByte · b) :=
  fun _ _ h => (BitVec.xor_left_inj _).1 (crcShift8_injective h)

theorem crcByte_right_injective (c : BitVec 16) : Function.Injective (crcByte c) := by
  intro a b h
  have hcol := (BitVec.xor_right_inj _).1 (crcShift8_injective h)
  apply BitVec.eq_of_getLsbD_eq
  intro i hi
  have hbit := congrArg (BitVec.getLsbD · (8 + i)) hcol
  simpa [hi, Nat.add_lt_add_left hi 8] using hbit

/-! ## The table -/

/-- The table holds what eight shifts make of each upper byte (R125). -/
theorem crcTable_getD (b : Byte) : crcTable.getD b.toNat 0 = crcShift8 (b.setWidth 16 <<< 8) := by
  revert b
  decide

/-- No polynomial is taken in while a lower byte moves up. -/
theorem crcShift8_lower (b : Byte) : crcShift8 (b.setWidth 16) = b.setWidth 16 <<< 8 := by
  revert b
  decide

/-- The upper half is shifted out, so it may be cleared first. -/
theorem clearUpper_shiftLeft (c : BitVec 16) : (c.setWidth 8).setWidth 16 <<< 8 = c <<< 8 := by
  grind

/-- A running value is its upper byte and its lower byte. -/
theorem upper_xor_lower (c : BitVec 16) : c >>> 8 <<< 8 ^^^ (c.setWidth 8).setWidth 16 = c := by
  grind

/-- The table gives the shifts of the upper byte, which takes the byte in; those of the lower byte are `c << 8`. -/
theorem crcTableByte_eq_crcByte (c : BitVec 16) (b : Byte) : crcTableByte c b = crcByte c b := by
  calc crcTableByte c b
      = crcShift8 (c >>> 8 <<< 8 ^^^ b.setWidth 16 <<< 8) ^^^ crcShift8 ((c.setWidth 8).setWidth 16) := by
        rw [crcTableByte, crcTable_getD, BitVec.setWidth_xor, BitVec.shiftLeft_xor_distrib, clearUpper_shiftLeft,
          crcShift8_lower, clearUpper_shiftLeft]
    _ = crcShift8 (c >>> 8 <<< 8 ^^^ (c.setWidth 8).setWidth 16 ^^^ b.setWidth 16 <<< 8) := by
        rw [← crcShift8_xor, BitVec.xor_assoc, BitVec.xor_assoc, BitVec.xor_comm (b.setWidth 16 <<< 8)]
    _ = crcByte c b := by rw [upper_xor_lower, crcByte]

/-! ## A run of bytes -/

theorem foldl_crcByte_zipWith_xor {a b : List Byte} (h : a.length = b.length) (c d : BitVec 16) :
    (List.zipWith (· ^^^ ·) a b).foldl crcByte (c ^^^ d) = a.foldl crcByte c ^^^ b.foldl crcByte d := by
  induction a generalizing b c d with
  | nil => simp [List.eq_nil_of_length_eq_zero h.symm]
  | cons x a ih =>
    cases b with
    | nil => cases h
    | cons y b =>
      rw [List.zipWith_cons_cons, List.foldl_cons, List.foldl_cons, List.foldl_cons, crcByte_xor, ih (Nat.succ.inj h)]

theorem foldl_crcByte_replicate_zero (n : Nat) : (List.replicate n 0).foldl crcByte 0 = 0 := by
  induction n with
  | zero => rfl
  | succ n ih => rw [List.replicate_succ, List.foldl_cons, crcByte_zero, ih]

theorem foldl_crcByte_injective (bytes : List Byte) : Function.Injective (bytes.foldl crcByte) := by
  induction bytes with
  | nil => exact Function.injective_id
  | cons b bytes ih => exact ih.comp (crcByte_left_injective b)

/-- Changing one byte changes the running value there, and no later byte brings it back. -/
theorem foldl_crcByte_modify_ne {g : Byte → Byte} (hg : ∀ b, g b ≠ b) {bytes : List Byte} {i : Nat}
    (hi : i < bytes.length) (c : BitVec 16) : (bytes.modify i g).foldl crcByte c ≠ bytes.foldl crcByte c := by
  induction bytes generalizing i c with
  | nil => exact absurd hi (Nat.not_lt_zero i)
  | cons b bytes ih =>
    cases i with
    | zero =>
      rw [List.modify_zero_cons]
      exact fun h => hg b (crcByte_right_injective c (foldl_crcByte_injective bytes h))
    | succ i =>
      rw [List.modify_succ_cons]
      exact ih (Nat.lt_of_succ_lt_succ hi) _

theorem xor_oneBit_ne (b : Byte) {j : Nat} (hj : j < 8) : b ^^^ (1#8 <<< j) ≠ b := by
  intro h
  have hbit := congrArg (BitVec.getLsbD · j) h
  simp [hj] at hbit

/-! ## The CRC bytes of a frame -/

theorem hiByte_append_loByte (c : BitVec 16) : hiByte c ++ loByte c = c :=
  (BitVec.extractLsb'_append_extractLsb'_eq_extractLsb' (start₁ := 0) (len₁ := 8) rfl).trans BitVec.extractLsb'_eq_self

theorem getD_of_three_last (pre : List Byte) (x y z : Byte) :
    (pre ++ [x, y, z]).getD ((pre ++ [x, y, z]).length - 3) 0 = x ∧
      (pre ++ [x, y, z]).getD ((pre ++ [x, y, z]).length - 2) 0 = y := by
  rw [List.length_append, List.getD_append_right _ _ _ _ (by simp), List.getD_append_right _ _ _ _ (by simp)]
  simp

/-- The two bytes before the terminator are the checksum, high byte first (R75). -/
theorem buildFrame_crcBytes (p : Params) (k : FrameKind) (payload : List Byte) :
    (buildFrame p k payload).getD ((buildFrame p k payload).length - 3) 0 ++
      (buildFrame p k payload).getD ((buildFrame p k payload).length - 2) 0 = p.crc16 payload := by
  have hsplit : buildFrame p k payload = (k.marker :: (k.lengthBytes payload.length ++ payload)) ++
      [hiByte (p.crc16 payload), loByte (p.crc16 payload), terminator] := by
    simp [buildFrame, frameBytes]
  obtain ⟨hhi, hlo⟩ := getD_of_three_last (k.marker :: (k.lengthBytes payload.length ++ payload))
    (hiByte (p.crc16 payload)) (loByte (p.crc16 payload)) terminator
  rw [hsplit, hhi, hlo, hiByte_append_loByte]

theorem encodeFrame_eq_ok {p : Params} {payload frame : List Byte} :
    encodeFrame p payload = .ok frame ↔
      ∃ k, encodeKind p payload.length = .ok k ∧ frame = buildFrame p k payload := by
  unfold encodeFrame
  cases encodeKind p payload.length <;> simp [@eq_comm _ frame]

end Sys2Proof.Machine
end

section
/-! The statements about the CRC16 Validator (spec/41_crc16.md). -/

namespace Sys2Proof.Machine

/-- Settles O26: the two forms are equal byte by byte. -/
theorem tableDrivenCrcEqualsBitwiseCrc : Obligations.TableDrivenCrcEqualsBitwiseCrc := by
  unfold Obligations.TableDrivenCrcEqualsBitwiseCrc
  intro bytes
  have h : crcTableByte = crcByte := funext₂ crcTableByte_eq_crcByte
  rw [crc16Table, crc16Xmodem, h]

/-- Settles O27: a flipped bit changes its byte. -/
theorem recommendedCrcIsSingleBitSensitive : Obligations.RecommendedCrcIsSingleBitSensitive :=
  fun _ _ _ hi hj => foldl_crcByte_modify_ne (fun b => xor_oneBit_ne b hj) hi 0

/-- Settles O28: the checksum starts from the running value 0, which is `0 ^^^ 0` and which zero bytes keep. -/
theorem recommendedCrcIsLinear : Obligations.RecommendedCrcIsLinear := by
  unfold Obligations.RecommendedCrcIsLinear
  refine ⟨fun a b h => foldl_crcByte_zipWith_xor h 0 0, fun n a => ?_⟩
  rw [crc16Xmodem, List.foldl_append, foldl_crcByte_replicate_zero, crc16Xmodem]

/-- Settles O25: inside `TXP` the one response is put out; the CRC bytes are the two before the terminator. -/
theorem crctxAnswersTheCrcOfTheStagedPayload : Obligations.CrctxAnswersTheCrcOfTheStagedPayload := by
  unfold Obligations.CrctxAnswersTheCrcOfTheStagedPayload
  refine fun s hcap => ⟨⟨_, opCrctx_eq_next.2 ⟨hcap, rfl⟩, ?_, .of_block rfl rfl⟩, fun frame hframe => ?_⟩
  · rw [Answers, respond_outputs, BitVec.ofNat_toNat]
  · obtain ⟨k, -, rfl⟩ := encodeFrame_eq_ok.1 hframe
    exact buildFrame_crcBytes hardware k _

end Sys2Proof.Machine
end

section
/-! SUPPORT. The Frame Codec (spec/42_frame_codec.md): what `DecodeFrame` makes of any bytes laid out as a frame, that
the frame held in `Terminated` is so laid out, and what `ENC` and `DEC` put out and keep. -/

namespace Sys2Proof.Machine

/-! ## The layout -/

/-- The marker and the length bytes of a frame of kind `k` for a payload of `n` bytes (R70 to R72). -/
def headerBytes (k : FrameKind) (n : Nat) : List Byte := k.marker :: k.lengthBytes n

theorem frameBytes_eq_header_append (k : FrameKind) (payload : List Byte) (crcHi crcLo last : Byte) :
    frameBytes k payload crcHi crcLo last = headerBytes k payload.length ++ (payload ++ [crcHi, crcLo, last]) := rfl

@[simp] theorem length_headerBytes (k : FrameKind) (n : Nat) : (headerBytes k n).length = k.hdr := by
  cases k <;> rfl

theorem loByte_eq_ofNat (c : BitVec 16) : loByte c = BitVec.ofNat 8 c.toNat := by
  rw [loByte, BitVec.extractLsb', Nat.shiftRight_zero]

theorem hiByte_eq_ofNat (c : BitVec 16) : hiByte c = BitVec.ofNat 8 (c.toNat / 256) := by
  rw [hiByte, BitVec.extractLsb', Nat.shiftRight_eq_div_pow]

/-- A frame with its CRC bytes written as numbers. -/
theorem buildFrame_eq (p : Params) (k : FrameKind) (payload : List Byte) :
    buildFrame p k payload = headerBytes k payload.length ++ payload ++
      [BitVec.ofNat 8 ((p.crc16 payload).toNat / 256), BitVec.ofNat 8 (p.crc16 payload).toNat, 0x03] := by
  rw [buildFrame, frameBytes_eq_header_append, ← List.append_assoc, hiByte_eq_ofNat, loByte_eq_ofNat, terminator]

@[simp] theorem length_buildFrame (p : Params) (k : FrameKind) (payload : List Byte) :
    (buildFrame p k payload).length = k.total payload.length := length_frameBytes ..

theorem encodeFrame_eq_error {p : Params} {payload : List Byte} {e : Status} :
    encodeFrame p payload = .error e ↔ encodeKind p payload.length = .error e := by
  unfold encodeFrame
  cases encodeKind p payload.length <;> simp

/-! ## `DecodeFrame` on a frame -/

/-- A frame of kind `k` with a payload of `n` bytes is one `DecodeFrame` reads: the length bytes can say `n`, and a Long
marker needs Long framing (R71, R72, R144). -/
def Readable (p : Params) : FrameKind → Nat → Prop
  | .short, n => n ≤ 255
  | .long, n => p.longEn = true ∧ n ≤ 65535

theorem readable_of_encodeKind {p : Params} {n : Nat} {k : FrameKind} (h : encodeKind p n = .ok k) :
    Readable p k n := by
  rcases encodeKind_eq_ok.1 h with ⟨hn, rfl⟩ | ⟨-, hn, hlong, rfl⟩
  · exact hn
  · exact ⟨hlong, hn⟩

theorem hdr_of_encodeKind {p : Params} {n : Nat} {k : FrameKind} (h : encodeKind p n = .ok k) :
    k.hdr = if n ≤ 255 then 2 else 3 := by
  rcases encodeKind_eq_ok.1 h with ⟨hn, rfl⟩ | ⟨hn, -, -, rfl⟩
  · rw [if_pos hn, FrameKind.hdr]
  · rw [if_neg (by omega), FrameKind.hdr]

/-- Behind a header the payload is taken, and its checksum held against the two bytes after it (R144, R145). -/
theorem decodeBody_append (p : Params) (header payload : List Byte) (crcHi crcLo last : Byte) :
    decodeBody p (header ++ (payload ++ [crcHi, crcLo, last])) header.length payload.length =
      if p.crc16 payload = crcHi ++ crcLo then .ok payload else .error .integrityError := by
  have hwhole : ¬ header.length + payload.length + 3 > (header ++ (payload ++ [crcHi, crcLo, last])).length := by
    simp only [List.length_append, List.length_cons, List.length_nil]
    omega
  have hafter : ∀ i, (header ++ (payload ++ [crcHi, crcLo, last])).getD (header.length + payload.length + i) 0 =
      [crcHi, crcLo, last].getD i 0 := by
    intro i
    rw [← List.append_assoc, List.getD_append_right _ _ _ _ (by rw [List.length_append]; omega), List.length_append,
      Nat.add_sub_cancel_left]
  have hhi := hafter 0
  rw [Nat.add_zero] at hhi
  rw [decodeBody, if_neg hwhole, hhi, hafter 1, List.drop_left, List.take_left]
  rfl

theorem decodeFrame_short (p : Params) (len : Byte) (body : List Byte) :
    decodeFrame p (0x02 :: len :: body) = decodeBody p (0x02 :: len :: body) 2 len.toNat := by
  simp [decodeFrame]

theorem decodeFrame_long {p : Params} (hlong : p.longEn = true) (lenHi lenLo : Byte) (body : List Byte) :
    decodeFrame p (0x03 :: lenHi :: lenLo :: body) =
      decodeBody p (0x03 :: lenHi :: lenLo :: body) 3 (longLength lenHi lenLo) := by
  simp [decodeFrame, hlong]

/-- The header is read back, whatever the CRC bytes and the last byte are (R144 to R146). -/
theorem decodeFrame_frameBytes {p : Params} {k : FrameKind} {payload : List Byte} (h : Readable p k payload.length)
    (crcHi crcLo last : Byte) :
    decodeFrame p (frameBytes k payload crcHi crcLo last) =
      if p.crc16 payload = crcHi ++ crcLo then .ok payload else .error .integrityError := by
  rw [← decodeBody_append p (headerBytes k payload.length) payload crcHi crcLo last, length_headerBytes,
    frameBytes_eq_header_append]
  cases k with
  | short =>
    have hlen : (BitVec.ofNat 8 payload.length).toNat = payload.length := by
      rw [BitVec.toNat_ofNat, Nat.mod_eq_of_lt (Nat.lt_succ_of_le h)]
    exact (decodeFrame_short ..).trans (by rw [hlen]; rfl)
  | long =>
    obtain ⟨hlong, hn⟩ := h
    exact (decodeFrame_long hlong ..).trans (by rw [longLength_bytes _ hn]; rfl)

/-- What is laid out as a frame decodes to its payload or fails the CRC (R145). -/
theorem decodeFrame_frameBytes_error {p : Params} {k : FrameKind} {payload : List Byte}
    (h : Readable p k payload.length) {crcHi crcLo last : Byte} {e : Status}
    (he : decodeFrame p (frameBytes k payload crcHi crcLo last) = .error e) : e = .integrityError := by
  rw [decodeFrame_frameBytes h] at he
  split at he
  · cases he
  · injection he with he
    exact he.symm

theorem decodeFrame_buildFrame {p : Params} {k : FrameKind} {payload : List Byte} (h : Readable p k payload.length) :
    decodeFrame p (buildFrame p k payload) = .ok payload := by
  rw [buildFrame, decodeFrame_frameBytes h, if_pos (hiByte_append_loByte _).symm]

/-! ## A flipped bit of a frame -/

theorem flipBit_append_left {bytes : List Byte} {i : Nat} (hi : i < bytes.length) (rest : List Byte) (j : Nat) :
    flipBit (bytes ++ rest) i j = flipBit bytes i j ++ rest := by
  induction bytes generalizing i with
  | nil => exact absurd hi (Nat.not_lt_zero i)
  | cons b bytes ih =>
    cases i with
    | zero => rfl
    | succ i =>
      simp only [flipBit, List.cons_append, List.modify_succ_cons] at ih ⊢
      rw [ih (Nat.lt_of_succ_lt_succ hi)]

theorem flipBit_append_right (bytes rest : List Byte) (i j : Nat) :
    flipBit (bytes ++ rest) (bytes.length + i) j = bytes ++ flipBit rest i j :=
  List.modifyTailIdx_add ..

@[simp] theorem length_flipBit (bytes : List Byte) (i j : Nat) : (flipBit bytes i j).length = bytes.length :=
  List.length_modify ..

section
variable (k : FrameKind) {payload : List Byte} (crcHi crcLo last : Byte)

theorem flipBit_frameBytes (i j : Nat) :
    flipBit (frameBytes k payload crcHi crcLo last) (k.hdr + i) j =
      headerBytes k payload.length ++ flipBit (payload ++ [crcHi, crcLo, last]) i j := by
  rw [frameBytes_eq_header_append, ← length_headerBytes k payload.length, flipBit_append_right]

theorem flipBit_frameBytes_payload {i : Nat} (hi : i < payload.length) (j : Nat) :
    flipBit (frameBytes k payload crcHi crcLo last) (k.hdr + i) j =
      frameBytes k (flipBit payload i j) crcHi crcLo last := by
  rw [flipBit_frameBytes, flipBit_append_left hi, frameBytes_eq_header_append, length_flipBit]

theorem flipBit_frameBytes_crcHi (j : Nat) :
    flipBit (frameBytes k payload crcHi crcLo last) (k.hdr + payload.length) j =
      frameBytes k payload (crcHi ^^^ 1#8 <<< j) crcLo last := by
  rw [flipBit_frameBytes, ← Nat.add_zero payload.length, flipBit_append_right]
  rfl

theorem flipBit_frameBytes_crcLo (j : Nat) :
    flipBit (frameBytes k payload crcHi crcLo last) (k.hdr + (payload.length + 1)) j =
      frameBytes k payload crcHi (crcLo ^^^ 1#8 <<< j) last := by
  rw [flipBit_frameBytes, flipBit_append_right]
  rfl

theorem flipBit_frameBytes_last (j : Nat) :
    flipBit (frameBytes k payload crcHi crcLo last) (k.hdr + (payload.length + 2)) j =
      frameBytes k payload crcHi crcLo (last ^^^ 1#8 <<< j) := by
  rw [flipBit_frameBytes, flipBit_append_right]
  rfl

end

/-! ## The frame held -/

theorem FrameKind.total_eq_code (k : FrameKind) (n : Nat) : k.total n = n + 5 + k.code.toNat := by
  cases k <;> simp [FrameKind.code]

theorem lengthBytes_longLength (lenHi lenLo : Byte) :
    FrameKind.long.lengthBytes (longLength lenHi lenLo) = [lenHi, lenLo] := by
  have hlo := lenLo.isLt
  have hdiv : longLength lenHi lenLo / 256 = lenHi.toNat := by
    simp only [longLength]
    omega
  have hmod : BitVec.ofNat 8 (longLength lenHi lenLo) = lenLo := by
    apply BitVec.eq_of_toNat_eq
    simp only [longLength, BitVec.toNat_ofNat]
    omega
  rw [FrameKind.lengthBytes, hdiv, hmod, BitVec.ofNat_toNat, BitVec.setWidth_eq]

section
variable {p : Params} {s : State}

/-- The header bytes stored are those of the kind and the declared length. -/
theorem Inv.readBytes_header (h : Inv p s) (hs : s.rxState = .terminated) :
    s.rxf.readBytes 0 s.rxKind.hdr = headerBytes s.rxKind s.rxLen.toNat := by
  obtain ⟨-, -, hcount, -⟩ := h.expectation (.inr hs)
  have hmarker := h.markerStored (.inr hs) (by omega)
  have hlength := h.lengthStored (.inr hs)
  cases hk : s.rxKind with
  | short =>
    rw [hk] at hmarker hlength
    simp only [headerBytes, FrameKind.lengthBytes, ← hlength, ← hmarker, BitVec.ofNat_toNat, BitVec.setWidth_eq]
    rfl
  | long =>
    rw [hk] at hmarker hlength
    simp only [headerBytes, ← hlength, ← hmarker, lengthBytes_longLength]
    rfl

/-- In `Terminated` the bytes held are laid out as a frame of the kind and length the registers say. -/
theorem Inv.received_eq_frameBytes (h : Inv p s) (hs : s.rxState = .terminated) :
    s.rxf.readBytes 0 s.rxCount.toNat =
      frameBytes s.rxKind (s.rxf.readBytes s.rxKind.hdr s.rxLen.toNat)
        (s.rxf.read (s.rxKind.hdr + s.rxLen.toNat)) (s.rxf.read (s.rxKind.hdr + s.rxLen.toNat + 1))
        (s.rxf.read (s.rxKind.hdr + s.rxLen.toNat + 2)) := by
  obtain ⟨htotal, -⟩ := h.expectation (.inr hs)
  have hcount : s.rxCount.toNat = s.rxKind.hdr + s.rxLen.toNat + 3 := by
    rw [(h.complete hs).1, htotal, ← FrameKind.total_eq_code, FrameKind.total]
  rw [hcount, Memory.readBytes_append, Memory.readBytes_append, Nat.zero_add, Nat.zero_add, h.readBytes_header hs,
    frameBytes_eq_header_append, Memory.length_readBytes, List.append_assoc]
  rfl

theorem Inv.readable (h : Inv p s) (hs : s.rxState = .terminated) : Readable p s.rxKind s.rxLen.toNat := by
  have hlength := h.lengthStored (.inr hs)
  cases hk : s.rxKind with
  | short =>
    rw [hk] at hlength
    exact hlength ▸ Nat.le_of_lt_succ (BitVec.isLt _)
  | long =>
    refine ⟨?_, Nat.le_of_lt_succ s.rxLen.isLt⟩
    cases hlong : p.longEn with
    | true => rfl
    | false => cases hk.symm.trans (h.shortOnly hlong)

/-- In `Terminated` every bound check of `DecodeFrame` passes, and the CRC alone decides (R150). -/
theorem Inv.decodeFrame_received (h : Inv p s) (hs : s.rxState = .terminated) :
    decodeFrame p (s.rxf.readBytes 0 s.rxCount.toNat) =
      if p.crc16 (s.rxf.readBytes s.rxKind.hdr s.rxLen.toNat) =
          s.rxf.read (s.rxKind.hdr + s.rxLen.toNat) ++ s.rxf.read (s.rxKind.hdr + s.rxLen.toNat + 1)
      then .ok (s.rxf.readBytes s.rxKind.hdr s.rxLen.toNat) else .error .integrityError := by
  rw [h.received_eq_frameBytes hs, decodeFrame_frameBytes]
  rw [Memory.length_readBytes]
  exact h.readable hs

/-! ## `ENC` -/

/-- A payload of a length `EncodeFrame` supports is framed and answered for. -/
theorem opEnc_of_kind {k : FrameKind} (hk : encodeKind p s.txpCur.toNat = .ok k) (hcap : s.txpCur.toNat ≤ p.txpCap) :
    ∃ t, opEnc p s = .next t ∧
      t.outputs = s.outputs ++
        [.frame (buildFrame p k (s.txp.readBytes 0 s.txpCur.toNat)),
          .response ⟨.ok, BitVec.ofNat 32 (k.total s.txpCur.toNat), 0⟩] ∧
      KeepsAllBut [] s t := by
  refine ⟨_, opEnc_eq_next.2 (.inr ⟨k, hk, hcap, rfl⟩), ?_, .of_block rfl rfl⟩
  rw [respond_outputs, emit_outputs, List.append_assoc, length_buildFrame, Memory.length_readBytes]
  rfl

theorem opEnc_unsupported {e : Status} (he : encodeKind p s.txpCur.toNat = .error e) : Fails (opEnc p s) e s := by
  rw [opEnc_eq_next.2 (.inl ⟨e, he, rfl⟩)]
  exact fails_fail e s

/-! ## `DEC` -/

theorem opDec_notTerminated :
    (s.rxState = .idle ∨ s.rxState = .waitingForHeader ∨ s.rxState = .accumulatingPayload →
      Fails (opDec p s) .notReady s) ∧
    (s.rxState = .timedOut → Fails (opDec p s) .timeout s) ∧
    (s.rxState = .malformedHeader → Fails (opDec p s) .malformedHeader s) := by
  refine ⟨fun h => ?_, fun h => ?_, fun h => ?_⟩
  · rw [opDec_eq_next.2 (.inr (.inr (.inr ⟨h, rfl⟩)))]
    exact fails_fail _ s
  · rw [opDec_eq_next.2 (.inr (.inl ⟨h, rfl⟩))]
    exact fails_fail _ s
  · rw [opDec_eq_next.2 (.inr (.inr (.inl ⟨h, rfl⟩)))]
    exact fails_fail _ s

theorem keepsAllBut_rxPayload (s : State) (m : Memory) (len cur : BitVec 16) (valid : Bool) :
    KeepsAllBut [.rxp, .rxpLen, .rxpCur, .rxpValid] s
      { s with rxp := m, rxpLen := len, rxpCur := cur, rxpValid := valid } :=
  ⟨rfl, fun x hx => by cases x <;> simp [Piece.Same] at hx ⊢⟩

/-- A payload `DecodeFrame` finds in the frame held is handed over (R150, R153). -/
theorem Inv.opDec_ok (h : Inv p s) (hs : s.rxState = .terminated) {payload : List Byte}
    (hd : decodeFrame p (s.rxf.readBytes 0 s.rxCount.toNat) = .ok payload) :
    ∃ t, opDec p s = .next t ∧ t.rxp = s.rxp.writeBytes 0 payload ∧ t.rxpLen = BitVec.ofNat 16 payload.length ∧
      t.rxpCur = 0 ∧ t.rxpValid = true ∧ Answers s t .ok (BitVec.ofNat 32 payload.length) 0 ∧
      KeepsAllBut [.rxp, .rxpLen, .rxpCur, .rxpValid] s t := by
  have haccept := acceptPayload_eq_next (s := s).2 ⟨h.payload_fits hd, rfl⟩
  refine ⟨_, opDec_eq_next.2 (.inl ⟨hs, h.countInBuffer, .inr ⟨payload, hd, haccept⟩⟩), rfl, rfl, rfl, rfl, ?_,
    (keepsAllBut_rxPayload ..).respond ..⟩
  rw [Answers, respond_outputs, setWidth_ofNat_16 (Nat.lt_succ_of_le (decodeFrame_ok_length hd).2)]

theorem Inv.opDec_error (h : Inv p s) (hs : s.rxState = .terminated) {e : Status}
    (hd : decodeFrame p (s.rxf.readBytes 0 s.rxCount.toNat) = .error e) : Fails (opDec p s) e s := by
  rw [opDec_eq_next.2 (.inl ⟨hs, h.countInBuffer, .inl ⟨e, hd, rfl⟩⟩)]
  exact fails_fail e s

/-! ## A frame through the reader -/

/-- A frame `EncodeFrame` builds, arriving at a waiting reader that has room for it, is held whole (R163 to R168). -/
theorem rxBytes_buildFrame (hv : p.valid = true) (hwf : s.rxf.wf = true) (hs : s.rxState = .waitingForHeader)
    (hc : s.rxCount = 0) {k : FrameKind} {payload : List Byte} (hk : Readable p k payload.length)
    (hcap : k.total payload.length ≤ p.frameCap) :
    rxBytes p (buildFrame p k payload) s =
      .next (holding (buildFrame p k payload) (expecting k payload.length .terminated s)) := by
  have hheader : rxBytes p (k.marker :: k.lengthBytes payload.length) (holding [] s) =
      .next (holding (k.marker :: k.lengthBytes payload.length)
        (expecting k payload.length .accumulatingPayload s)) := by
    cases k with
    | short => exact rxBytes_shortHeader hv hs hk hcap
    | long => exact rxBytes_longHeader hv hk.1 hwf hs hk.2 hcap
  have hframe := opFrame_of_header hv hcap hheader (hiByte (p.crc16 payload)) (loByte (p.crc16 payload)) terminator
  rwa [holding_nil hc, if_pos rfl] at hframe

/-- The bytes held are the bytes that stand at the start of the frame buffer. -/
theorem readBytes_holding (hwf : s.rxf.wf = true) {bytes : List Byte} (h : bytes.length ≤ 65541) :
    (holding bytes s).rxf.readBytes 0 (holding bytes s).rxCount.toNat = bytes := by
  rw [rxCount_holding h]
  exact Memory.readBytes_writeBytes hwf 0 bytes

end

end Sys2Proof.Machine
end

section
/-! The statements about the Frame Codec (spec/42_frame_codec.md). -/

namespace Sys2Proof.Machine

/-- Settles O32: the frame is held whole by the reader `RXSTART` leaves, so `DEC` finds its payload. -/
theorem everyPayloadComesBackThroughTheReader : Obligations.EveryPayloadComesBackThroughTheReader := by
  unfold Obligations.EveryPayloadComesBackThroughTheReader
  intro p hv s payload frame hs hframe hroom
  obtain ⟨k, hk, rfl⟩ := encodeFrame_eq_ok.1 hframe
  have hread := readable_of_encodeKind hk
  have hdecode := decodeFrame_buildFrame hread
  have hb := valid_bounds hv
  obtain ⟨-, hrxf, -⟩ := hs.buffers
  have hstart := opRxstart_keeps_inv hs (opRxstart_eq s)
  have hrun := rxBytes_buildFrame hv (Memory.fits_wf hrxf) (s := respond .ok 0 0 (freshReader .waitingForHeader s))
    rfl rfl hread (length_buildFrame p k payload ▸ hroom)
  have ht := rxBytes_keeps_inv hv hstart hrun
  obtain ⟨u, hu, hrxp, hlen, -, -, hans, -⟩ :=
    ht.opDec_ok rfl ((congrArg _ (readBytes_holding (Memory.fits_wf hrxf) (by omega))).trans hdecode)
  refine ⟨hdecode, _, u, rxBytes_eq_runWith.symm.trans hrun, rfl, rxCount_holding (by omega), hu, hans, ?_, ?_⟩
  · rw [hlen, toNat_ofNat_16 (Nat.lt_succ_of_le (decodeFrame_ok_length hdecode).2)]
  · rw [hrxp, Memory.readBytes_writeBytes (Memory.fits_wf ht.buffers.2.2)]

/-- Settles O29: at most 255 bytes fit `TXP` and select a Short frame; more is refused without `LONG_EN`. -/
theorem encEmitsTheFrameOfTheStagedPayload : Obligations.EncEmitsTheFrameOfTheStagedPayload := by
  unfold Obligations.EncEmitsTheFrameOfTheStagedPayload
  refine fun s => ⟨fun hle => ?_, fun hgt => opEnc_unsupported (encodeKind_eq_error.2 ⟨rfl, hgt, .inl rfl⟩)⟩
  obtain ⟨t, ht, hout, hkeep⟩ := opEnc_of_kind (p := hardware) (encodeKind_eq_ok.2 (.inl ⟨hle, rfl⟩)) hle
  refine ⟨t, ht, ?_, hkeep⟩
  rw [hout, FrameKind.total_short, buildFrame_eq, Memory.length_readBytes]
  rfl

/-- Settles O30: the cursor is inside `TXP`, so the length alone decides. -/
theorem encAppliesEncodeFrame : Obligations.EncAppliesEncodeFrame := by
  unfold Obligations.EncAppliesEncodeFrame
  intro p _ s hs
  refine ⟨fun frame hframe => ?_, fun e he => ?_,
    fun hlong hgt => opEnc_unsupported (encodeKind_eq_error.2 ⟨rfl, hgt, .inl hlong⟩), fun hlong hgt => ?_⟩
  · obtain ⟨k, hk, rfl⟩ := encodeFrame_eq_ok.1 hframe
    rw [length_buildFrame]
    rw [Memory.length_readBytes] at hk ⊢
    exact opEnc_of_kind hk hs.txCursor
  · rw [encodeFrame_eq_error, Memory.length_readBytes] at he
    obtain ⟨rfl, hgt, hlong⟩ := encodeKind_eq_error.1 he
    exact ⟨rfl, hlong.resolve_right (by have := s.txpCur.isLt; omega), hgt, opEnc_unsupported he⟩
  · have hlen := Memory.length_readBytes s.txp 0 s.txpCur.toNat
    refine encodeFrame_eq_ok.2 ⟨.long, encodeKind_eq_ok.2 (.inr ⟨?_, ?_, hlong, rfl⟩), ?_⟩
    · omega
    · exact hlen.trans_le (Nat.le_of_lt_succ s.txpCur.isLt)
    · rw [buildFrame_eq, hlen]
      rfl

/-- Settles O31: the kind is by length alone, and a frame's CRC bytes are the checksum of its payload. -/
theorem decodeFrameOfEncodeFrameIsThePayload : Obligations.DecodeFrameOfEncodeFrameIsThePayload := by
  unfold Obligations.DecodeFrameOfEncodeFrameIsThePayload
  intro p payload frame hframe
  obtain ⟨k, hk, rfl⟩ := encodeFrame_eq_ok.1 hframe
  refine ⟨decodeFrame_buildFrame (readable_of_encodeKind hk), ?_⟩
  rw [length_buildFrame]
  rcases encodeKind_eq_ok.1 hk with ⟨hle, rfl⟩ | ⟨hge, -, -, rfl⟩
  · exact ⟨fun _ => ⟨FrameKind.total_short _, rfl⟩, fun hge => absurd hge (by omega)⟩
  · exact ⟨fun hle => absurd hle (by omega), fun _ => ⟨FrameKind.total_long _, rfl⟩⟩

/-- Settles O33: the frame with a flipped bit is a frame still, with another payload, CRC or last byte. -/
theorem aFlippedPayloadBitIsAnIntegrityError : Obligations.AFlippedPayloadBitIsAnIntegrityError := by
  unfold Obligations.AFlippedPayloadBitIsAnIntegrityError
  intro p hsens payload frame hdr i j hframe hhdr hj
  obtain ⟨k, hk, rfl⟩ := encodeFrame_eq_ok.1 hframe
  have hread := readable_of_encodeKind hk
  have hcrc := hiByte_append_loByte (p.crc16 payload)
  obtain rfl : hdr = k.hdr := hhdr.trans (hdr_of_encodeKind hk).symm
  unfold buildFrame
  refine ⟨fun hi => ?_, ?_, ?_⟩
  · rw [flipBit_frameBytes_payload k _ _ _ hi, decodeFrame_frameBytes (by rwa [length_flipBit]), hcrc,
      if_neg (hsens payload i j hi hj)]
  · rintro (rfl | rfl)
    · rw [flipBit_frameBytes_crcHi, decodeFrame_frameBytes hread, if_neg]
      exact fun h => xor_oneBit_ne _ hj ((BitVec.append_left_inj _).1 (h.symm.trans hcrc.symm))
    · rw [flipBit_frameBytes_crcLo, decodeFrame_frameBytes hread, if_neg]
      exact fun h => xor_oneBit_ne _ hj ((BitVec.append_right_inj _).1 (h.symm.trans hcrc.symm))
  · rintro rfl
    rw [flipBit_frameBytes_last, decodeFrame_frameBytes hread, if_pos hcrc.symm]

/-- Settles O34: this hardware reads Short frames only, so the payload stands behind a header of 2 bytes. -/
theorem decValidatesTheReceivedFrame : Obligations.DecValidatesTheReceivedFrame := by
  unfold Obligations.DecValidatesTheReceivedFrame
  intro s hs
  obtain ⟨hidle, htimeout, hmalformed⟩ := opDec_notTerminated (p := hardware) (s := s)
  have hdecode := hs.decodeFrame_received
  rw [hs.shortOnly rfl, show FrameKind.short.hdr + s.rxLen.toNat + 1 = 3 + s.rxLen.toNat from Nat.add_right_comm 2 _ 1]
    at hdecode
  refine ⟨hidle, htimeout, hmalformed, fun hterm hcrc => ?_, fun hterm hcrc => ?_⟩
  · obtain ⟨t, ht, hrxp, hlen, hcur, hvalid, hans, hkeep⟩ := hs.opDec_ok hterm ((hdecode hterm).trans (if_pos hcrc))
    rw [Memory.length_readBytes] at hlen hans
    refine ⟨t, ht, by rw [hlen, BitVec.ofNat_toNat, BitVec.setWidth_eq], hcur, hvalid, fun a => ?_, hans, hkeep⟩
    rw [hrxp, Memory.read_writeBytes (Memory.fits_wf hs.buffers.2.2), Memory.length_readBytes]
    by_cases ha : a < s.rxLen.toNat
    · rw [if_pos (by omega), if_pos ha, Memory.getD_readBytes _ _ _ _ _ (by omega)]
      rfl
    · rw [if_neg (by omega), if_neg ha]
  · exact hs.opDec_error hterm ((hdecode hterm).trans (if_neg hcrc))

/-- Settles O35: what the reader holds in `Terminated` is laid out as a frame, so only the CRC can fail. -/
theorem decAppliesDecodeFrame : Obligations.DecAppliesDecodeFrame := by
  unfold Obligations.DecAppliesDecodeFrame
  intro p _ s hs
  obtain ⟨hidle, htimeout, hmalformed⟩ := opDec_notTerminated (p := p) (s := s)
  refine ⟨hidle, htimeout, hmalformed, fun hterm =>
    ⟨fun payload hd => ⟨hs.payload_fits hd, ?_⟩, fun e he => ⟨?_, hs.opDec_error hterm he⟩⟩⟩
  · obtain ⟨t, ht, hrxp, hlen, hcur, hvalid, hans, hkeep⟩ := hs.opDec_ok hterm hd
    have hwf := Memory.fits_wf hs.buffers.2.2
    refine ⟨t, ht, by rw [hrxp, Memory.readBytes_writeBytes hwf], fun a ha => ?_, ?_, hcur, hvalid, hans, hkeep⟩
    · rw [hrxp, Memory.read_writeBytes hwf, if_neg (by omega)]
    · rw [hlen, toNat_ofNat_16 (Nat.lt_succ_of_le (decodeFrame_ok_length hd).2)]
  · rw [hs.received_eq_frameBytes hterm] at he
    exact decodeFrame_frameBytes_error (by rw [Memory.length_readBytes]; exact hs.readable hterm) he

end Sys2Proof.Machine
end

section
/-! SUPPORT. The Frame Reader (spec/43_frame_reader.md): what each input may write (R183), what one received byte does
in each place of a frame, that runs of inputs go on from every state that meets the invariants, and that received bytes
do not look at what is pending. -/

namespace Sys2Proof.Machine

section
variable {p : Params} {s t : State} {b : Byte}

/-! ## What single updates keep -/

theorem KeepsAllBut.trans_of_subset {ws ws' all : List Piece} {u : State} (h : KeepsAllBut ws s t)
    (h' : KeepsAllBut ws' t u) (hs : ws ++ ws' ⊆ all) : KeepsAllBut all s u :=
  (h.mono (List.append_subset.1 hs).1).trans (h'.mono (List.append_subset.1 hs).2)

theorem keepsAllBut_rxState (s : State) (x : RxState) : KeepsAllBut [.rxState] s { s with rxState := x } :=
  ⟨rfl, fun y hy => by cases y <;> simp [Piece.Same] at hy ⊢⟩

theorem keepsAllBut_rxKind (s : State) (k : FrameKind) : KeepsAllBut [.rxKind] s { s with rxKind := k } :=
  ⟨rfl, fun y hy => by cases y <;> simp [Piece.Same] at hy ⊢⟩

theorem keepsAllBut_header (s : State) (len : BitVec 16) (expect : BitVec 17) (x : RxState) :
    KeepsAllBut [.rxLen, .rxExpect, .rxState] s { s with rxLen := len, rxExpect := expect, rxState := x } :=
  ⟨rfl, fun y hy => by cases y <;> simp [Piece.Same] at hy ⊢⟩

theorem keepsAllBut_reader (s : State) (m : Memory) (count : BitVec 17) (x : RxState) (k : FrameKind)
    (len : BitVec 16) (expect : BitVec 17) :
    KeepsAllBut [.rxf, .rxState, .rxCount, .rxKind, .rxLen, .rxExpect] s
      { s with rxf := m, rxCount := count, rxState := x, rxKind := k, rxLen := len, rxExpect := expect } :=
  ⟨rfl, fun y hy => by cases y <;> simp [Piece.Same] at hy ⊢⟩

theorem keepsAllBut_freshReader (s : State) (x : RxState) :
    KeepsAllBut [.rxState, .rxCount, .rxKind, .rxLen, .rxExpect, .rxpLen, .rxpValid, .rxpCur] s (freshReader x s) :=
  ⟨rfl, fun y hy => by cases y <;> simp [Piece.Same, freshReader] at hy ⊢⟩

/-! ## What each input may write -/

theorem fail_keeps {e : Status} (h : fail e s = .next t) : KeepsAllBut [] s t := by
  rw [fail_eq_next] at h
  exact h ▸ .of_block rfl rfl

theorem appendBytes_keeps {bytes : List Byte} (h : appendBytes p bytes s = .next t) :
    KeepsAllBut [.txp, .txpCur] s t := by
  rcases appendBytes_eq_next.1 h with ⟨-, rfl⟩ | ⟨-, rfl⟩
  · exact .of_block rfl rfl
  · exact (keepsAllBut_txp_txpCur ..).respond ..

theorem readField_keeps {n : Nat} {v1 : Word} (h : readField p n v1 s = .next t) : KeepsAllBut [.rxpCur] s t := by
  rcases readField_eq_next.1 h with ⟨-, rfl⟩ | ⟨-, -, rfl⟩
  · exact .of_block rfl rfl
  · exact (keepsAllBut_rxpCur ..).respond ..

theorem readScaled_keeps {n : Nat} {scale : Word} (h : readScaled p n scale s = .next t) :
    KeepsAllBut [.rxpCur] s t := by
  rcases readScaled_eq_next.1 h with ⟨-, rfl⟩ | ⟨-, h⟩
  · exact .of_block rfl rfl
  · exact readField_keeps h

theorem moveCursor_keeps {k : Nat} (h : moveCursor k s = .next t) : KeepsAllBut [.rxpCur] s t := by
  rcases moveCursor_eq_next.1 h with ⟨-, rfl⟩ | ⟨-, rfl⟩
  · exact .of_block rfl rfl
  · exact (keepsAllBut_rxpCur ..).respond ..

theorem opTxclr_keeps (h : opTxclr s = .next t) : KeepsAllBut [.txpCur] s t := by
  simp only [opTxclr, Host.Outcome.next.injEq] at h
  exact h ▸ (keepsAllBut_txpCur s 0).respond ..

theorem opEnc_keeps (h : opEnc p s = .next t) : KeepsAllBut [] s t := by
  rcases opEnc_eq_next.1 h with ⟨e, -, rfl⟩ | ⟨k, -, -, rfl⟩ <;> exact .of_block rfl rfl

theorem opCrctx_keeps (h : opCrctx p s = .next t) : KeepsAllBut [] s t := by
  obtain ⟨-, rfl⟩ := opCrctx_eq_next.1 h
  exact .of_block rfl rfl

theorem opRdreg_keeps {r : BitVec 4} (h : opRdreg r s = .next t) : KeepsAllBut [] s t := by
  rcases opRdreg_eq_next.1 h with ⟨v, -, rfl⟩ | ⟨-, rfl⟩ <;> exact .of_block rfl rfl

theorem opDec_keeps (h : opDec p s = .next t) : KeepsAllBut [.rxp, .rxpLen, .rxpValid, .rxpCur] s t := by
  rcases opDec_eq_next.1 h with ⟨-, -, ⟨e, -, rfl⟩ | ⟨payload, -, ha⟩⟩ | ⟨-, rfl⟩ | ⟨-, rfl⟩ | ⟨-, rfl⟩
  · exact .of_block rfl rfl
  · obtain ⟨-, rfl⟩ := acceptPayload_eq_next.1 ha
    exact ((keepsAllBut_rxPayload ..).mono (by simp)).respond ..
  all_goals exact .of_block rfl rfl

theorem opRxstart_keeps (h : opRxstart s = .next t) :
    KeepsAllBut [.rxState, .rxCount, .rxKind, .rxLen, .rxExpect, .rxpLen, .rxpValid, .rxpCur] s t := by
  simp only [opRxstart_eq, Host.Outcome.next.injEq] at h
  exact h ▸ (keepsAllBut_freshReader ..).respond ..

theorem opReset_keeps (h : opReset s = .next t) :
    KeepsAllBut [.txpCur, .rxState, .rxCount, .rxKind, .rxLen, .rxExpect, .rxpLen, .rxpValid, .rxpCur] s t := by
  simp only [opReset_eq, Host.Outcome.next.injEq] at h
  exact h ▸ (keepsAllBut_freshReader ..).trans_of_subset (keepsAllBut_txpCur ..) (by simp)

theorem opRxexpire_keeps (h : opRxexpire s = .next t) : KeepsAllBut [.rxState] s t := by
  rcases opRxexpire_eq_next.1 h with ⟨-, rfl⟩ | ⟨-, rfl⟩
  · exact keepsAllBut_rxState ..
  · exact .refl _ _

theorem opRxbyte_keeps (h : opRxbyte p b s = .next t) :
    KeepsAllBut [.rxf, .rxState, .rxCount, .rxKind, .rxLen, .rxExpect] s t := by
  rcases opRxbyte_cases h with rfl | ⟨-, rfl⟩ | ⟨-, -, x, k, len, expect, rfl⟩
  · exact .refl _ _
  · exact (keepsAllBut_rxState ..).mono (by simp)
  · exact keepsAllBut_reader ..

theorem rxBytes_keeps {bytes : List Byte} (h : rxBytes p bytes s = .next t) :
    KeepsAllBut [.rxf, .rxState, .rxCount, .rxKind, .rxLen, .rxExpect] s t :=
  rxBytes_induction (motive := KeepsAllBut _ s) (fun _ _ _ hk hu => hk.trans (opRxbyte_keeps hu)) (.refl _ _) h

/-- Every input writes at most the pieces R183 names for it. -/
theorem execWith_keeps {i : Instr} (h : execWith p i s = .next t) : KeepsAllBut (mayWrite i) s t := by
  cases i with
  | reserved0 | reservedF => exact fail_keeps h
  | txclr => exact opTxclr_keeps h
  | appu8 b | appi32 v => exact appendBytes_keeps h
  | enc => exact opEnc_keeps h
  | rxstart => exact opRxstart_keeps h
  | dec => exact opDec_keeps h
  | curwr k | skip n => exact moveCursor_keeps h
  | rdi16 | rdi32 => exact readField_keeps h
  | rdf16 scale | rdf32 scale => exact readScaled_keeps h
  | crctx => exact opCrctx_keeps h
  | rdreg r => exact opRdreg_keeps h
  | rxbyte b => exact opRxbyte_keeps h
  | rxexpire => exact opRxexpire_keeps h
  | reset => exact opReset_keeps h
  | frameShort payload crcHi crcLo last | frameLong payload crcHi crcLo last => exact rxBytes_keeps h

/-- Host commands other than `RXSTART` write the transmit side and the decoded payload only (R176, R183). -/
theorem mayWrite_command {i : Instr} (hc : i.isCommand = true) (hi : i ≠ .rxstart) :
    mayWrite i ⊆ [.txp, .txpCur, .rxp, .rxpLen, .rxpValid, .rxpCur] := by
  cases i with
  | rxstart => exact absurd rfl hi
  | rxbyte | rxexpire | reset | frameShort | frameLong => cases hc
  | reserved0 | txclr | appu8 | appi32 | enc | dec | curwr | rdi16 | rdi32 | rdf16 | rdf32 | crctx | rdreg | skip
  | reservedF => simp [mayWrite]

/-- Events and frames change nothing where the reader is not active; `RESET` apart (R162, R170). -/
theorem execWith_event_inactive {i : Instr} (hc : i.isCommand = false) (hi : i ≠ .reset)
    (hs : s.rxState.active = false) : execWith p i s = .next s := by
  cases i with
  | rxbyte b => exact opRxbyte_inactive hs
  | rxexpire => exact opRxexpire_eq_next.2 (.inr ⟨hs, rfl⟩)
  | reset => exact absurd rfl hi
  | frameShort | frameLong => exact rxBytes_inactive hs
  | reserved0 | txclr | appu8 | appi32 | enc | rxstart | dec | curwr | rdi16 | rdi32 | rdf16 | rdf32 | crctx | rdreg
  | skip | reservedF => cases hc

/-- While the reader is not active only `RXSTART` and `RESET` touch it (R171). -/
theorem execWith_keeps_inactive {i : Instr} (hs : s.rxState.active = false) (hstart : i ≠ .rxstart)
    (hreset : i ≠ .reset) (h : execWith p i s = .next t) :
    KeepsAllBut [.txp, .txpCur, .rxp, .rxpLen, .rxpValid, .rxpCur] s t := by
  cases hc : i.isCommand with
  | true => exact (execWith_keeps h).mono (mayWrite_command hc hstart)
  | false =>
    rw [execWith_event_inactive hc hreset hs, Host.Outcome.next.injEq] at h
    exact h ▸ .refl _ _

/-! ## One received byte -/

/-- `s` with one more byte in its frame buffer, counted (file 43, section 3). -/
def stored (b : Byte) (s : State) : State :=
  { s with rxf := s.rxf.write s.rxCount.toNat b, rxCount := s.rxCount + 1 }

theorem rxStore_eq_stored (hroom : s.rxCount.toNat + 1 ≤ p.frameCap) (after : State → State) :
    rxStore p b after s = .next (after (stored b s)) := rxStore_eq_next.2 ⟨hroom, rfl⟩

theorem keepsAllBut_stored (b : Byte) (s : State) : KeepsAllBut [.rxf, .rxCount] s (stored b s) :=
  ⟨rfl, fun y hy => by cases y <;> simp [Piece.Same, stored] at hy ⊢⟩

theorem read_stored (hwf : s.rxf.wf = true) {n : Nat} (hn : s.rxCount.toNat = n) (a : Nat) :
    (stored b s).rxf.read a = if a = n then b else s.rxf.read a := by
  rw [stored, Memory.read_write hwf, hn]

theorem keepsAllBut_holding (bytes : List Byte) (s : State) : KeepsAllBut [.rxf, .rxCount] s (holding bytes s) :=
  ⟨rfl, fun y hy => by cases y <;> simp [Piece.Same, holding] at hy ⊢⟩

/-- A marker of a kind this block reads, where nothing is stored yet (R163). -/
theorem opRxbyte_marker_selects (hv : p.valid = true) (hwf : s.rxf.wf = true) (hs : s.rxState = .waitingForHeader)
    (hc : s.rxCount = 0) {k : FrameKind} (hk : k = .long → p.longEn = true) :
    ∃ t, opRxbyte p k.marker s = .next t ∧ t.rxCount = 1 ∧ t.rxKind = k ∧
      (∀ a, t.rxf.read a = if a = 0 then k.marker else s.rxf.read a) ∧ Silent s t ∧
      KeepsAllBut [.rxf, .rxCount, .rxKind] s t := by
  have hrun := opRxbyte_marker hv hs hk
  rw [holding_nil hc] at hrun
  exact ⟨_, hrun, rfl, rfl, Memory.read_write hwf 0 k.marker, rfl,
    (keepsAllBut_rxKind s k).trans_of_subset (keepsAllBut_holding ..) (by simp)⟩

/-- A rejected byte (R163, R166). -/
theorem rxReject_ends (s : State) :
    ∃ t, rxReject s = .next t ∧ t.rxState = .malformedHeader ∧ Silent s t ∧ KeepsAllBut [.rxState] s t :=
  ⟨_, rfl, rfl, rfl, keepsAllBut_rxState ..⟩

/-- The last length byte, when the declared frame has room (R164, R165). -/
theorem rxDeclare_of_le (hv : p.valid = true) (hwf : s.rxf.wf = true) {count : BitVec 17} (hc : s.rxCount = count)
    {len expect : Nat} (hlen : len ≤ 65535) (hcap : expect ≤ p.frameCap) (hroom : count.toNat < expect) :
    ∃ t, rxDeclare p b len expect s = .next t ∧ t.rxState = .accumulatingPayload ∧ t.rxCount = count + 1 ∧
      t.rxLen.toNat = len ∧ t.rxExpect.toNat = expect ∧
      (∀ a, t.rxf.read a = if a = count.toNat then b else s.rxf.read a) ∧ Silent s t ∧
      KeepsAllBut [.rxf, .rxState, .rxCount, .rxLen, .rxExpect] s t := by
  subst hc
  have hb := valid_bounds hv
  have hexpect : (BitVec.ofNat 17 expect).toNat = expect := by
    rw [BitVec.toNat_ofNat, Nat.mod_eq_of_lt (by omega)]
  rw [rxDeclare, if_neg (by omega), rxStore_eq_stored (by omega)]
  exact ⟨_, rfl, rfl, rfl, toNat_ofNat_16 (by omega), hexpect, read_stored hwf rfl, rfl,
    (keepsAllBut_stored b s).trans_of_subset (keepsAllBut_header ..) (by simp)⟩

theorem rxDeclare_past {len expect : Nat} (h : p.frameCap < expect) : rxDeclare p b len expect s = rxReject s :=
  if_pos h

/-- A byte short of the expected total (R167, R168). -/
theorem rxAccumulate_stores (hv : p.valid = true) (hwf : s.rxf.wf = true) (hs : s.rxState = .accumulatingPayload)
    (hlt : s.rxCount.toNat < s.rxExpect.toNat) (hcap : s.rxExpect.toNat ≤ p.frameCap) :
    ∃ t, rxAccumulate p b s = .next t ∧ t.rxCount.toNat = s.rxCount.toNat + 1 ∧
      (∀ a, t.rxf.read a = if a = s.rxCount.toNat then b else s.rxf.read a) ∧
      t.rxState =
        (if s.rxCount.toNat + 1 = s.rxExpect.toNat ∧ b = terminator then .terminated else .accumulatingPayload) ∧
      Silent s t ∧ KeepsAllBut [.rxf, .rxState, .rxCount] s t := by
  have hcount : (stored b s).rxCount.toNat = s.rxCount.toNat + 1 := toNat_rxCount_succ hv (by omega)
  have hend : (stored b s).rxCount = (stored b s).rxExpect ↔ s.rxCount.toNat + 1 = s.rxExpect.toNat := by
    rw [← hcount, BitVec.toNat_inj]
    rfl
  have hkeep : KeepsAllBut [.rxf, .rxState, .rxCount] s (stored b s) := (keepsAllBut_stored b s).mono (by simp)
  rw [rxAccumulate, rxStore_eq_stored (by omega)]
  simp only [hend]
  split
  · exact ⟨_, rfl, hcount, read_stored hwf rfl, rfl, rfl,
      hkeep.trans_of_subset (keepsAllBut_rxState ..) (by simp)⟩
  · exact ⟨_, rfl, hcount, read_stored hwf rfl, hs, rfl, hkeep⟩

/-! ## Runs of inputs -/

theorem runWith_append (p : Params) (a b : List Instr) (s : State) :
    runWith p (a ++ b) s = andThen (runWith p a s) (runWith p b) := by
  induction a generalizing s with
  | nil => rfl
  | cons i a ih =>
    simp only [List.cons_append, runWith, andThen_assoc]
    congr
    funext u
    exact ih u

/-- A run goes on, and keeps what each of its inputs keeps and goes on from. -/
theorem runWith_induction {motive : State → Prop} {inputs : List Instr}
    (hstep : ∀ i ∈ inputs, ∀ s, motive s → ∃ t, execWith p i s = .next t ∧ motive t) (hs : motive s) :
    ∃ t, runWith p inputs s = .next t ∧ motive t := by
  induction inputs generalizing s with
  | nil => exact ⟨s, rfl, hs⟩
  | cons i rest ih =>
    obtain ⟨u, hu, hmu⟩ := hstep i (by simp) s hs
    obtain ⟨t, ht, hmt⟩ := ih (fun j hj => hstep j (by simp [hj])) hmu
    exact ⟨t, by rw [runWith, hu, andThen_next, ht], hmt⟩

theorem SameVisible.refl (s : State) : SameVisible s s := by
  constructor <;> intros <;> rfl

/-- From a state that meets the invariants every input leads on (R253): it does the same to a state and itself. -/
theorem Inv.execWith_next (hv : p.valid = true) (h : Inv p s) (i : Instr) : ∃ t, execWith p i s = .next t := by
  obtain ⟨t, -, ht, -, -⟩ := execWith_alike hv h h (.refl s) i
  exact ⟨t, ht⟩

theorem runWith_alike (hv : p.valid = true) (hs : Inv p s) (ht : Inv p t) (h : SameVisible s t)
    (inputs : List Instr) : Alike (runWith p inputs s) (runWith p inputs t) := by
  induction inputs generalizing s t with
  | nil => exact h.alike
  | cons i rest ih =>
    exact (execWith_alike hv hs ht h i).andThen fun u v hu hu' huv =>
      ih (execWith_keeps_inv hv hs hu) (execWith_keeps_inv hv ht hu') huv

/-- A fresh reader holds nothing of an earlier reception, so only the transmit side and the ports are seen (R174). -/
theorem sameVisible_freshReader_of_transmitSide (hcur : s.txpCur = t.txpCur)
    (htxp : ∀ a, a < s.txpCur.toNat → s.txp.read a = t.txp.read a) (hp : s.pending = t.pending)
    (ho : s.outputs = t.outputs) (x : RxState) : SameVisible (freshReader x s) (freshReader x t) := by
  constructor
  case txpCur => exact hcur
  case txp => exact htxp
  case pending => exact hp
  case outputs => exact ho
  case rxf | rxp => exact fun a ha => absurd ha (Nat.not_lt_zero a)
  all_goals rfl

/-! ## After a timeout -/

/-- In `TimedOut` no payload is valid (R41 (c), (j)). -/
theorem Inv.no_payload_of_timedOut (h : Inv p s) (hs : s.rxState = .timedOut) :
    s.rxpValid = false ∧ s.rxpLen = 0 ∧ s.rxpCur = 0 := by
  cases hb : s.rxpValid with
  | false => exact ⟨rfl, h.noPayload hb⟩
  | true => cases hs.symm.trans (h.validTerminated hb)

/-- Inputs other than `RXSTART` and `RESET` leave a reader that has timed out as it is (R171). -/
theorem runWith_timedOut (hv : p.valid = true) {inputs : List Instr}
    (hin : ∀ i ∈ inputs, i ≠ .rxstart ∧ i ≠ .reset) (h : Inv p s) (hs : s.rxState = .timedOut) :
    ∃ t, runWith p inputs s = .next t ∧ Inv p t ∧ t.rxState = .timedOut := by
  refine runWith_induction (motive := fun u => Inv p u ∧ u.rxState = .timedOut) ?_ ⟨h, hs⟩
  rintro i hi u ⟨hu, hut⟩
  obtain ⟨v, hnext⟩ := hu.execWith_next hv i
  obtain ⟨hstart, hreset⟩ := hin i hi
  have hkeep := execWith_keeps_inactive (by rw [hut]; rfl) hstart hreset hnext
  exact ⟨v, hnext, execWith_keeps_inv hv hu hnext, (hkeep.2 .rxState (by simp)).trans hut⟩

/-- A read fails where the payload is empty, whatever its width (R173). -/
theorem readField_of_empty (hlen : s.rxpLen = 0) {n : Nat} (hn : 0 < n) (v1 : Word) :
    Fails (readField p n v1 s) .boundsError s :=
  readField_past (by rw [hlen]; exact Nat.lt_add_left _ hn) v1

/-- The host that reads the reply in `TimedOut` fails with `Timeout` (R198). -/
theorem readTelemetry_timedOut (hs : s.rxState = .timedOut) :
    readTelemetry p s = some (respond .timeout 0 0 s, .error .timeout) := by
  have hdec : ask p .dec s = some (respond .timeout 0 0 s, ⟨.timeout, 0, 0⟩) :=
    ask_of_respond (opDec_eq_next.2 (.inr (.inl ⟨hs, rfl⟩)))
  simp [readTelemetry, hdec, useReply]

end

/-! ## Received bytes and what is pending -/

/-- `s` with other inputs pending. -/
def withPending (q : List Input) (s : State) : State := { s with pending := q }

/-- `op` does the same whatever is pending, and leaves it. -/
def IgnoresPending (op : State → Result) : Prop :=
  ∀ s q, op (withPending q s) = andThen (op s) fun t => .next (withPending q t)

section
variable {p : Params} {s : State} {b : Byte}

theorem IgnoresPending.andThen {f g : State → Result} (hf : IgnoresPending f) (hg : IgnoresPending g) :
    IgnoresPending fun s => andThen (f s) g := by
  intro s q
  show Machine.andThen (f (withPending q s)) g = _
  rw [hf, andThen_assoc, andThen_assoc]
  congr
  funext t
  exact hg t q

theorem rxStore_ignoresPending {after : State → State}
    (ha : ∀ t q, after (withPending q t) = withPending q (after t)) : IgnoresPending (rxStore p b after) := by
  intro s q
  unfold withPending
  simp only [rxStore]
  split
  · rfl
  · exact congrArg Host.Outcome.next (ha { s with rxf := _, rxCount := s.rxCount + 1 } q)

theorem rxMarker_ignoresPending (p : Params) (b : Byte) : IgnoresPending (rxMarker p b) := by
  intro s q
  simp only [rxMarker]
  split
  · exact rxStore_ignoresPending (fun _ _ => rfl) s q
  · split
    · exact rxStore_ignoresPending (fun _ _ => rfl) s q
    · rfl

theorem rxDeclare_ignoresPending (p : Params) (b : Byte) (len expect : Nat) :
    IgnoresPending (rxDeclare p b len expect) := by
  intro s q
  simp only [rxDeclare]
  split
  · rfl
  · exact rxStore_ignoresPending (fun _ _ => rfl) s q

theorem rxLongLength_ignoresPending (p : Params) (b : Byte) : IgnoresPending (rxLongLength p b) := by
  intro s q
  unfold withPending
  simp only [rxLongLength]
  split
  · exact rxStore_ignoresPending (after := fun t => t) (fun _ _ => rfl) s q
  · exact rxDeclare_ignoresPending p b _ _ s q

theorem rxAccumulate_ignoresPending (p : Params) (b : Byte) : IgnoresPending (rxAccumulate p b) :=
  rxStore_ignoresPending fun t q => by
    unfold withPending
    dsimp only
    split <;> rfl

theorem opRxbyte_ignoresPending (p : Params) (b : Byte) : IgnoresPending (opRxbyte p b) := by
  intro s q
  unfold withPending
  simp only [opRxbyte]
  split
  · split
    · exact rxMarker_ignoresPending p b s q
    · split
      · exact rxDeclare_ignoresPending p b _ _ s q
      · exact rxLongLength_ignoresPending p b s q
  · split
    · exact rxAccumulate_ignoresPending p b s q
    · rfl
  all_goals rfl

theorem rxBytes_ignoresPending (p : Params) (bytes : List Byte) : IgnoresPending (rxBytes p bytes) := by
  induction bytes with
  | nil => exact fun _ _ => rfl
  | cons b rest ih => exact (opRxbyte_ignoresPending p b).andThen ih

/-! ## Bytes offered in chunks -/

theorem andThen_next_right (r : Result) : andThen r .next = r := by
  cases r <;> rfl

/-- What the serial port takes from an offer that is not empty, a frame or one byte, does what the bytes taken do, and
the other bytes are left over. -/
theorem decodeSerial_cons (p : Params) (b : Byte) (rest : List Byte) :
    ∃ i taken left, decodeSerial (b :: rest) = .ok (i, left) ∧ taken ≠ [] ∧ b :: rest = taken ++ left ∧
      ∀ s, execWith p i s = rxBytes p taken s := by
  cases hf : splitFrame (b :: rest) with
  | none =>
    exact ⟨.rxbyte b, [b], rest, by simp only [decodeSerial, hf], by simp, rfl,
      fun s => (andThen_next_right (opRxbyte p b s)).symm⟩
  | some r =>
    obtain ⟨i, left⟩ := r
    have hd := decodeSerial_of_splitFrame hf
    obtain ⟨payload, crcHi, crcLo, last, ⟨rfl, -, hb⟩ | ⟨rfl, -, hb⟩⟩ := splitFrame_sound hf
    · exact ⟨_, _, left, hd, List.cons_ne_nil _ _, hb, fun _ => rfl⟩
    · exact ⟨_, _, left, hd, List.cons_ne_nil _ _, hb, fun _ => rfl⟩

theorem stepsWith_add (p : Params) (n m : Nat) (s : State) :
    stepsWith p (n + m) s = andThen (stepsWith p n s) (stepsWith p m) := by
  induction n generalizing s with
  | zero => rw [Nat.zero_add]; rfl
  | succ n ih =>
    rw [Nat.add_right_comm]
    simp only [stepsWith, andThen_assoc]
    congr
    funext t
    exact ih t

/-- Some number of steps from `s` ends in `r`. -/
def Reaches (p : Params) (s : State) (r : Result) : Prop := ∃ n, stepsWith p n s = r

theorem reaches_of_stepWith {r : Result} (h : stepWith p s = r) : Reaches p s r :=
  ⟨1, (andThen_next_right _).trans h⟩

/-- Steps that do what the bytes `a` do, then steps that do what the bytes `b` do. -/
theorem Reaches.rxBytes_append {u : State} {a b : List Byte} {q rest : List Input}
    (ha : Reaches p u (rxBytes p a (withPending q s)))
    (hb : ∀ t, Reaches p (withPending q t) (rxBytes p b (withPending rest t))) :
    Reaches p u (rxBytes p (a ++ b) (withPending rest s)) := by
  obtain ⟨n, hn⟩ := ha
  rw [rxBytes_ignoresPending] at hn
  rw [rxBytes_ignoresPending, Machine.rxBytes_append, andThen_assoc]
  cases hr : rxBytes p a s with
  | next t =>
    obtain ⟨m, hm⟩ := hb t
    rw [rxBytes_ignoresPending] at hm
    refine ⟨n + m, ?_⟩
    rw [stepsWith_add, hn, hr]
    exact hm
  | fault f => exact ⟨n, by rw [hn, hr]; rfl⟩
  | refused f => exact ⟨n, by rw [hn, hr]; rfl⟩

/-- Bytes still offered lead to what they do: each step takes one byte or more of them. -/
theorem reaches_putBack (p : Params) (bytes : List Byte) (s : State) (rest : List Input) :
    Reaches p (withPending (putBack bytes rest) s) (rxBytes p bytes (withPending rest s)) := by
  induction hn : bytes.length using Nat.strong_induction_on generalizing bytes s with
  | _ n ih =>
    cases bytes with
    | nil => exact ⟨0, rfl⟩
    | cons b tail =>
      obtain ⟨i, taken, left, hd, hne, hsplit, hexec⟩ := decodeSerial_cons p b tail
      have hfetch := fetch_ok (s := withPending (putBack (b :: tail) rest) s) rfl hd
      have hlt : left.length < n := by
        have htaken := List.length_pos_of_ne_nil hne
        rw [← hn, hsplit, List.length_append]
        omega
      have hstep := reaches_of_stepWith ((stepWith_of_fetch_some hfetch).trans (hexec _))
      have hrun := hstep.rxBytes_append (s := s) (q := putBack left rest) fun t => ih left.length hlt left t rfl
      rwa [← hsplit] at hrun

/-- An offered chunk leads to what its bytes do; an offer of no bytes is dropped (log 7). -/
theorem reaches_chunk (p : Params) (chunk : List Byte) (s : State) (rest : List Input) :
    Reaches p (withPending (.serial chunk :: rest) s) (rxBytes p chunk (withPending rest s)) := by
  cases chunk with
  | nil => exact reaches_of_stepWith (stepWith_of_fetch_none (fetch_error rfl rfl))
  | cons b tail => exact reaches_putBack p (b :: tail) s rest

theorem reaches_chunks (p : Params) (chunks : List (List Byte)) (s : State) (rest : List Input) :
    Reaches p (withPending (chunks.map .serial ++ rest) s) (rxBytes p chunks.flatten (withPending rest s)) := by
  induction chunks generalizing s with
  | nil => exact ⟨0, rfl⟩
  | cons chunk chunks ih => exact (reaches_chunk p chunk s _).rxBytes_append ih

end

end Sys2Proof.Machine
end

section
/-! The statements about the Frame Reader (spec/43_frame_reader.md). -/

namespace Sys2Proof.Machine

/-- Settles O14: after `RXSTART` a host sees the two states the same, and every input keeps that. -/
theorem receptionDependsOnlyOnWhatFollowsRxstart : Obligations.ReceptionDependsOnlyOnWhatFollowsRxstart := by
  unfold Obligations.ReceptionDependsOnlyOnWhatFollowsRxstart
  intro p hv s t hs ht hcur htxp hp ho inputs
  have hseen := (sameVisible_freshReader_of_transmitSide hcur htxp hp ho .waitingForHeader).respond .ok 0 0
  exact runWith_alike hv (opRxstart_keeps_inv hs (opRxstart_eq s)) (opRxstart_keeps_inv ht (opRxstart_eq t)) hseen
    inputs

/-- Settles O45: the reader stays in `TimedOut`, where no payload is held. -/
theorem afterATimeoutNothingIsReturned : Obligations.AfterATimeoutNothingIsReturned := by
  unfold Obligations.AfterATimeoutNothingIsReturned
  refine ⟨fun p hv s inputs hs ha hin => ?_, fun p hv s u how bytes more cached hs hu ha => ?_⟩
  · have hexpire : opRxexpire s = .next { s with rxState := .timedOut } := opRxexpire_eq_next.2 (.inl ⟨ha, rfl⟩)
    obtain ⟨t, ht, hinv, htimed⟩ := runWith_timedOut hv hin (opRxexpire_keeps_inv hs hexpire) rfl
    obtain ⟨hvalid, hlen, -⟩ := hinv.no_payload_of_timedOut htimed
    obtain ⟨-, hdec, -⟩ := opDec_notTerminated (p := p) (s := t)
    refine ⟨t, ?_, htimed, hvalid, hlen, hdec htimed, readField_of_empty hlen (by decide) 1,
      readField_of_empty hlen (by decide) 1, fun scale h0 => ?_⟩
    · rw [runWith, execWith, hexpire, andThen_next, ht]
    · have hread := fun n hn => readScaled_of_ne (p := p) (s := t) h0 n ▸ readField_of_empty hlen hn scale
      exact ⟨hread 2 (by decide), hread 4 (by decide)⟩
  · have hrun : runWith p (.rxstart :: (bytes.map Arrival.byte ++ [Arrival.expire]).map Arrival.instr) s =
        .next { u with rxState := .timedOut } := by
      rw [List.map_append, List.map_map, ← List.cons_append, runWith_append,
        show Arrival.instr ∘ Arrival.byte = Instr.rxbyte from rfl, hu]
      exact (andThen_next_right _).trans (opRxexpire_eq_next.2 (.inl ⟨ha, rfl⟩))
    obtain ⟨x, c, outs, -, -, hrequest⟩ :=
      requestTelemetry_of_run hv (how := how) (more := more) hs.buffers.1 hrun rfl nofun
    rw [List.append_assoc, List.singleton_append, readTelemetry_timedOut (by rfl), Option.map_some] at hrequest
    exact ⟨_, _, hrequest, rfl, rfl, rfl⟩

/-- Settles O46: the serial port takes the bytes in order, a frame or one byte at a time. -/
theorem groupingOfBytesHasNoEffect : Obligations.GroupingOfBytesHasNoEffect := by
  unfold Obligations.GroupingOfBytesHasNoEffect
  intro p s chunks rest
  obtain ⟨n, hn⟩ := reaches_chunks p chunks s rest
  exact ⟨n, hn.trans rxBytes_eq_runWith⟩

/-- Settles O38: a marker this block reads is stored, any other first byte is rejected. -/
theorem theFirstByteSelectsTheKind : Obligations.TheFirstByteSelectsTheKind := by
  unfold Obligations.TheFirstByteSelectsTheKind
  refine fun p hv s b hwf hs hc => ⟨?_, ?_, fun hshort hlong => ?_⟩
  · rintro rfl
    exact opRxbyte_marker_selects hv hwf hs hc (k := .short) nofun
  · rintro rfl hlong
    exact opRxbyte_marker_selects hv hwf hs hc (k := .long) fun _ => hlong
  · have hreject : execWith p (.rxbyte b) s = rxReject s := by
      simp only [execWith, opRxbyte, hs, hc, if_true, rxMarker, if_neg hshort, if_neg hlong]
    rw [hreject]
    exact rxReject_ends s

/-- Settles O39: the byte is the one length byte of a Short header. -/
theorem theShortLengthByteSetsTheExpectedTotal : Obligations.TheShortLengthByteSetsTheExpectedTotal := by
  unfold Obligations.TheShortLengthByteSetsTheExpectedTotal
  intro p hv s b hwf hs hc hk
  have hdeclare : execWith p (.rxbyte b) s = rxDeclare p b b.toNat (b.toNat + 5) s := by
    simp [execWith, opRxbyte, hs, hc, hk, rxShortLength]
  rw [hdeclare]
  refine ⟨fun hcap => rxDeclare_of_le hv hwf hc (by omega) hcap ?_, fun hcap => ?_⟩
  · exact Nat.lt_add_left _ (by decide)
  · rw [rxDeclare_past hcap]
    exact rxReject_ends s

/-- Settles O40: the first length byte is stored, and with the second the header is complete. -/
theorem longHeadersAreReadWhenEnabled : Obligations.LongHeadersAreReadWhenEnabled := by
  unfold Obligations.LongHeadersAreReadWhenEnabled
  intro p hv _ s b hwf hs
  obtain ⟨-, -, hcap, -⟩ := valid_bounds hv
  have hdeclare : s.rxCount = 2 → s.rxKind = .long → execWith p (.rxbyte b) s =
      rxDeclare p b (longLength (s.rxf.read 1) b) (longLength (s.rxf.read 1) b + 6) s := by
    intro hc hk
    simp [execWith, opRxbyte, hs, hc, hk, rxLongLength]
  refine ⟨fun hc hk => ?_, fun hc hk hfits => ?_, fun hc hk hpast => ?_⟩
  · have hroom : s.rxCount.toNat + 1 ≤ p.frameCap := by
      rw [hc]
      exact hcap.trans' (by decide)
    have hstore : execWith p (.rxbyte b) s = .next (stored b s) := by
      rw [← rxStore_eq_stored hroom fun t => t]
      simp [execWith, opRxbyte, hs, hc, hk, rxLongLength]
    exact ⟨_, hstore, by rw [stored, hc]; rfl, read_stored hwf (by rw [hc]; rfl), rfl, keepsAllBut_stored b s⟩
  · rw [hdeclare hc hk]
    exact rxDeclare_of_le hv hwf hc (longLength_le _ b) hfits (Nat.lt_add_left _ (by decide))
  · rw [hdeclare hc hk, rxDeclare_past (by exact hpast)]
    exact rxReject_ends s

/-- Settles O41: the byte is stored; the terminator test is the last thing it does. -/
theorem bytesAccumulateUntilTheTerminator : Obligations.BytesAccumulateUntilTheTerminator := by
  unfold Obligations.BytesAccumulateUntilTheTerminator
  intro s b hwf hs hlt hcap
  have haccumulate : exec (.rxbyte b) s = rxAccumulate hardware b s := by
    simp only [exec, execRxbyte, opRxbyte, hs]
    exact if_pos (BitVec.lt_def.2 hlt)
  rw [haccumulate]
  exact rxAccumulate_stores hardware_valid hwf hs hlt hcap

/-- Settles O44: events need an active reader, and no host command but `RXSTART` may write the reader. -/
theorem terminalStatesAreLeftOnlyByRxstartAndReset : Obligations.TerminalStatesAreLeftOnlyByRxstartAndReset := by
  unfold Obligations.TerminalStatesAreLeftOnlyByRxstartAndReset
  refine fun p i s t h => ⟨fun hs hstart hreset => execWith_keeps_inactive ?_ hstart hreset h, fun hc hstart => ?_⟩
  · rcases hs with hs | hs | hs <;> rw [hs] <;> rfl
  · exact ((execWith_keeps h).mono (mayWrite_command hc hstart)).2 .rxState (by simp)

/-- Settles O37: the fresh reader waits, and the rest is untouched. -/
theorem rxstartStartsAFreshReader : Obligations.RxstartStartsAFreshReader := by
  unfold Obligations.RxstartStartsAFreshReader
  intro s
  exact ⟨_, opRxstart_eq s, rfl, rfl, rfl, rfl, rfl, rfl, rfl, rfl, rfl,
    ((keepsAllBut_freshReader ..).mono (by simp)).respond ..⟩

/-- Settles O42: a full frame buffer waits for no byte, and an inactive reader takes none. -/
theorem droppedAndUnacceptedBytesChangeNothing : Obligations.DroppedAndUnacceptedBytesChangeNothing := by
  unfold Obligations.DroppedAndUnacceptedBytesChangeNothing
  rintro s b (⟨hs, hc⟩ | hready)
  · simp only [exec, execRxbyte, opRxbyte, hs, hc]
    exact if_neg (BitVec.lt_irrefl _)
  · exact opRxbyte_inactive hready

/-- Settles O43: the two states in which the deadline counts are the active ones. -/
theorem rxexpireTimesOutAnActiveReader : Obligations.RxexpireTimesOutAnActiveReader := by
  unfold Obligations.RxexpireTimesOutAnActiveReader
  refine fun s => ⟨fun hs => ?_, fun hs => opRxexpire_eq_next.2 (.inr ⟨?_, rfl⟩)⟩
  · have ha : s.rxState.active = true := by rcases hs with hs | hs <;> rw [hs] <;> rfl
    exact ⟨_, opRxexpire_eq_next.2 (.inl ⟨ha, rfl⟩), rfl, rfl, keepsAllBut_rxState ..⟩
  · cases hx : s.rxState <;> simp_all [RxState.active]

end Sys2Proof.Machine
end

section
/-! SUPPORT. Control operations (spec/44_control_ops.md): what each input puts out (R82, R183), which commands answer
`IllegalOp` (R181), what `RDREG` answers (R180), and that the transmit side and the receive side do not look at each
other (R183). -/

namespace Sys2Proof

/-- The two ends of the operation codes are reserved, and one code reads a register (R80). -/
theorem mnemonic_control_opcode : ∀ op : BitVec 4,
    ((decodeCommand (op ++ 0#32)).mnemonic = "RESERVED0" → op = 0x0) ∧
    ((decodeCommand (op ++ 0#32)).mnemonic = "RESERVEDF" → op = 0xF) ∧
    ((decodeCommand (op ++ 0#32)).mnemonic = "RDREG" → op = 0xD) := by
  decide

/-- A command word holds an operation of that name only under its operation code (R182). -/
theorem opField_of_decodeCommand (w : BitVec 36) :
    (decodeCommand w = .reserved0 → opField w = 0x0) ∧ (decodeCommand w = .reservedF → opField w = 0xF) ∧
    ∀ r, decodeCommand w = .rdreg r → opField w = 0xD := by
  obtain ⟨h0, hF, hD⟩ := mnemonic_control_opcode (opField w)
  rw [← mnemonic_decodeCommand_opField] at h0 hF hD
  exact ⟨fun h => h0 (by rw [h]; rfl), fun h => hF (by rw [h]; rfl), fun r h => hD (by rw [h]; rfl)⟩

/-- `RDREG` takes the low four bits of its operand (R81). -/
theorem decodeCommand_rdreg (a : BitVec 32) : decodeCommand (0xD#4 ++ a) = .rdreg (BitVec.ofNat 4 a.toNat) := by
  simp [decodeCommand, extractLsb'_zero_eq_ofNat]

/-- Every command word is a host command: no event comes from the command port (R79, R86). -/
theorem isCommand_decodeCommand (w : BitVec 36) : (decodeCommand w).isCommand = true := by
  simp only [decodeCommand]
  split <;> rfl

end Sys2Proof

namespace Sys2Proof.Machine

section
variable {p : Params} {s t : State} {statuses : List Status}

/-! ## One response to a command -/

/-- From `s` to `t` one response is put out and nothing else, with one of the named statuses. -/
def AnswersOneOf (statuses : List Status) (s t : State) : Prop :=
  ∃ r : Response, r.status ∈ statuses ∧ t.outputs = s.outputs ++ [.response r]

theorem answersOneOf_respond {status : Status} (h : status ∈ statuses) {u : State} (hu : u.outputs = s.outputs)
    (v0 v1 : Word) : AnswersOneOf statuses s (respond status v0 v1 u) :=
  ⟨_, h, by rw [respond_outputs, hu]⟩

theorem fail_answers {e : Status} (h : fail e s = .next t) (he : e ∈ statuses) : AnswersOneOf statuses s t := by
  rw [fail_eq_next] at h
  exact h ▸ answersOneOf_respond he rfl 0 0

theorem appendBytes_answers {bytes : List Byte} (h : appendBytes p bytes s = .next t) :
    AnswersOneOf [.ok, .boundsError] s t := by
  rcases appendBytes_eq_next.1 h with ⟨-, rfl⟩ | ⟨-, rfl⟩ <;> exact answersOneOf_respond (by simp) rfl _ _

theorem readField_answers {n : Nat} {v1 : Word} (h : readField p n v1 s = .next t) (hok : .ok ∈ statuses)
    (hbound : .boundsError ∈ statuses) : AnswersOneOf statuses s t := by
  rcases readField_eq_next.1 h with ⟨-, rfl⟩ | ⟨-, -, rfl⟩
  · exact answersOneOf_respond hbound rfl _ _
  · exact answersOneOf_respond hok rfl _ _

theorem readScaled_answers {n : Nat} {scale : Word} (h : readScaled p n scale s = .next t) :
    AnswersOneOf [.ok, .scaleZero, .boundsError] s t := by
  rcases readScaled_eq_next.1 h with ⟨-, rfl⟩ | ⟨-, h⟩
  · exact answersOneOf_respond (by simp) rfl _ _
  · exact readField_answers h (by simp) (by simp)

theorem moveCursor_answers {k : Nat} (h : moveCursor k s = .next t) : AnswersOneOf [.ok, .boundsError] s t := by
  rcases moveCursor_eq_next.1 h with ⟨-, rfl⟩ | ⟨-, rfl⟩ <;> exact answersOneOf_respond (by simp) rfl _ _

theorem opTxclr_answers (h : opTxclr s = .next t) : AnswersOneOf [.ok] s t := by
  simp only [opTxclr, Host.Outcome.next.injEq] at h
  exact h ▸ answersOneOf_respond (by simp) rfl _ _

theorem opRxstart_answers (h : opRxstart s = .next t) : AnswersOneOf [.ok] s t := by
  simp only [opRxstart_eq, Host.Outcome.next.injEq] at h
  exact h ▸ answersOneOf_respond (by simp) rfl _ _

theorem opCrctx_answers (h : opCrctx p s = .next t) : AnswersOneOf [.ok] s t := by
  obtain ⟨-, rfl⟩ := opCrctx_eq_next.1 h
  exact answersOneOf_respond (by simp) rfl _ _

theorem opRdreg_answers {r : BitVec 4} (h : opRdreg r s = .next t) : AnswersOneOf [.ok, .illegalOp] s t := by
  rcases opRdreg_eq_next.1 h with ⟨v, -, rfl⟩ | ⟨-, rfl⟩ <;> exact answersOneOf_respond (by simp) rfl _ _

theorem opDec_answers (h : opDec p s = .next t) :
    AnswersOneOf [.ok, .timeout, .integrityError, .malformedHeader, .notReady] s t := by
  rcases opDec_eq_next.1 h with ⟨-, -, ⟨e, hd, rfl⟩ | ⟨payload, -, ha⟩⟩ | ⟨-, rfl⟩ | ⟨-, rfl⟩ | ⟨-, rfl⟩
  · refine answersOneOf_respond ?_ rfl _ _
    rcases decodeFrame_error hd with rfl | rfl <;> simp
  · obtain ⟨-, rfl⟩ := acceptPayload_eq_next.1 ha
    exact answersOneOf_respond (by simp) rfl _ _
  all_goals exact answersOneOf_respond (by simp) rfl _ _

/-- `ENC` answers `LengthUnsupported` alone, or `OK` after one frame (R149). -/
theorem opEnc_puts_out (h : opEnc p s = .next t) :
    AnswersOneOf (mayAnswer p .enc) s t ∨
      ∃ frame r, t.outputs = s.outputs ++ [.frame frame, .response r] ∧ r.status = .ok := by
  rcases opEnc_eq_next.1 h with ⟨e, he, rfl⟩ | ⟨k, -, -, rfl⟩
  · obtain ⟨rfl, -, hlong | hpast⟩ := encodeKind_eq_error.1 he
    · exact .inl (answersOneOf_respond (by simp [mayAnswer, hlong]) rfl _ _)
    · exact absurd s.txpCur.isLt (by omega)
  · exact .inr ⟨_, _, List.append_assoc s.outputs _ _, rfl⟩

theorem ok_mem_mayAnswer_enc (p : Params) : Status.ok ∈ mayAnswer p .enc := by
  simp only [mayAnswer]
  split <;> simp

/-- Every host command but `ENC` puts out one response and nothing else, with a status R221 lists for it. -/
theorem execWith_answersOneOf {i : Instr} (hc : i.isCommand = true) (henc : i ≠ .enc)
    (h : execWith p i s = .next t) : AnswersOneOf (mayAnswer p i) s t := by
  cases i with
  | enc => exact absurd rfl henc
  | reserved0 | reservedF => exact fail_answers h (by simp [mayAnswer])
  | txclr => exact opTxclr_answers h
  | appu8 b | appi32 v => exact appendBytes_answers h
  | rxstart => exact opRxstart_answers h
  | dec => exact opDec_answers h
  | curwr k | skip n => exact moveCursor_answers h
  | rdi16 | rdi32 => exact readField_answers h (by simp [mayAnswer]) (by simp [mayAnswer])
  | rdf16 scale | rdf32 scale => exact readScaled_answers h
  | crctx => exact opCrctx_answers h
  | rdreg r => exact opRdreg_answers h
  | rxbyte | rxexpire | reset | frameShort | frameLong => cases hc

/-- A host command puts out one response, with a status R221 lists for it, and only `ENC` a frame before it. -/
theorem execWith_answers {i : Instr} (hc : i.isCommand = true) (h : execWith p i s = .next t) :
    ∃ r : Response, r.status ∈ mayAnswer p i ∧
      (t.outputs = s.outputs ++ [.response r] ∨
        i = .enc ∧ ∃ frame, t.outputs = s.outputs ++ [.frame frame, .response r]) := by
  by_cases henc : i = .enc
  · subst henc
    rcases opEnc_puts_out h with ⟨r, hr, ho⟩ | ⟨frame, r, ho, hr⟩
    · exact ⟨r, hr, .inl ho⟩
    · exact ⟨r, hr ▸ ok_mem_mayAnswer_enc p, .inr ⟨rfl, frame, ho⟩⟩
  · obtain ⟨r, hr, ho⟩ := execWith_answersOneOf hc henc h
    exact ⟨r, hr, .inl ho⟩

/-- What a host command answered is the last thing put out. -/
theorem execWith_last_output {i : Instr} (hc : i.isCommand = true) (h : execWith p i s = .next t) :
    ∃ r : Response, r.status ∈ mayAnswer p i ∧ t.outputs.getLast? = some (.response r) := by
  obtain ⟨r, hr, ho | ⟨-, frame, ho⟩⟩ := execWith_answers hc h <;> exact ⟨r, hr, by simp [ho]⟩

/-! ## Nothing put out by an event -/

theorem opRxbyte_silent {b : Byte} (h : opRxbyte p b s = .next t) : Silent s t := by
  rcases opRxbyte_cases h with rfl | ⟨-, rfl⟩ | ⟨-, -, x, k, len, expect, rfl⟩ <;> rfl

theorem rxBytes_silent {bytes : List Byte} (h : rxBytes p bytes s = .next t) : Silent s t :=
  rxBytes_induction (motive := Silent s) (fun _ _ _ hs hu => (opRxbyte_silent hu).trans hs) rfl h

theorem opRxexpire_silent (h : opRxexpire s = .next t) : Silent s t := by
  rcases opRxexpire_eq_next.1 h with ⟨-, rfl⟩ | ⟨-, rfl⟩ <;> rfl

theorem opReset_silent (h : opReset s = .next t) : Silent s t := by
  simp only [opReset_eq, Host.Outcome.next.injEq] at h
  exact h ▸ rfl

/-- An event is not answered (R82). -/
theorem execWith_silent {i : Instr} (hc : i.isCommand = false) (h : execWith p i s = .next t) : Silent s t := by
  cases i with
  | rxbyte b => exact opRxbyte_silent h
  | rxexpire => exact opRxexpire_silent h
  | reset => exact opReset_silent h
  | frameShort | frameLong => exact rxBytes_silent h
  | reserved0 | txclr | appu8 | appi32 | enc | rxstart | dec | curwr | rdi16 | rdi32 | rdf16 | rdf32 | crctx | rdreg
  | skip | reservedF => cases hc

/-! ## Registers, `STATUS` and `IllegalOp` -/

theorem toNat_statusWord (s : State) :
    (statusWord s).toNat = s.rxState.code.toNat + 8 * (if s.rxpValid then 1 else 0) + 16 * s.rxKind.code.toNat := by
  have hvalid : (BitVec.ofBool s.rxpValid).toNat = if s.rxpValid then 1 else 0 := by cases s.rxpValid <;> rfl
  rw [statusWord, BitVec.toNat_setWidth_of_le (by decide), append_toNat, append_toNat, hvalid]
  omega

/-- The registers are numbered 0 to 6 (R180). -/
theorem readRegister_eq_none {r : BitVec 4} : readRegister r s = none ↔ 7 ≤ r.toNat := by
  unfold readRegister
  split
  case h_8 =>
    simp only [imp_false, true_iff] at *
    omega
  all_goals exact iff_of_false nofun (by omega)

theorem exec_rdreg_of_some {r : BitVec 4} {v : Word} (h : readRegister r s = some v) :
    ∃ t, exec (.rdreg r) s = .next t ∧ Answers s t .ok v 0 ∧ KeepsAllBut [] s t :=
  ⟨_, opRdreg_eq_next.2 (.inl ⟨v, h, rfl⟩), rfl, .of_block rfl rfl⟩

theorem opRdreg_reserved {r : BitVec 4} (h : 7 ≤ r.toNat) : Fails (opRdreg r s) .illegalOp s := by
  rw [opRdreg_eq_next.2 (.inr ⟨readRegister_eq_none.2 h, rfl⟩)]
  exact fails_fail _ s

/-- The commands that may answer `IllegalOp` (R221). -/
theorem illegalOp_mem_mayAnswer {i : Instr} (h : .illegalOp ∈ mayAnswer p i) :
    i = .reserved0 ∨ i = .reservedF ∨ ∃ r, i = .rdreg r := by
  cases i with
  | reserved0 => exact .inl rfl
  | reservedF => exact .inr (.inl rfl)
  | rdreg r => exact .inr (.inr ⟨r, rfl⟩)
  | enc =>
    simp only [mayAnswer] at h
    split at h <;> simp at h
  | txclr | appu8 | appi32 | rxstart | dec | curwr | rdi16 | rdi32 | rdf16 | rdf32 | crctx | skip | rxbyte | rxexpire
  | reset | frameShort | frameLong => simp [mayAnswer] at h

/-- The commands that do answer it (R181). -/
theorem execWith_illegalOp {i : Instr} {r : Response} (hc : i.isCommand = true) (h : execWith p i s = .next t)
    (hr : t.outputs.getLast? = some (.response r)) (hill : r.status = .illegalOp) :
    i = .reserved0 ∨ i = .reservedF ∨ ∃ q, i = .rdreg q ∧ 7 ≤ q.toNat := by
  obtain ⟨r', hmay, hr'⟩ := execWith_last_output hc h
  obtain rfl : r = r' := by simpa [hr] using hr'
  obtain rfl | rfl | ⟨q, rfl⟩ := illegalOp_mem_mayAnswer (hill ▸ hmay)
  · exact .inl rfl
  · exact .inr (.inl rfl)
  · refine .inr (.inr ⟨q, rfl, ?_⟩)
    rcases opRdreg_eq_next.1 h with ⟨v, -, rfl⟩ | ⟨hnone, -⟩
    · obtain rfl : (⟨.ok, v, 0⟩ : Response) = r := by simpa using hr
      cases hill
    · exact readRegister_eq_none.1 hnone

end

/-! ## The two sides -/

/-- `op` does on `g s` what it does on `s`, and leaves there what `g` makes of what it leaves on `s`. -/
def CommutesWith (g : State → State) (op : State → Result) : Prop :=
  ∀ s, op (g s) = andThen (op s) fun t => .next (g t)

/-- `s` with the receive side of `r`. -/
def withReceive (r s : State) : State :=
  { r with txp := s.txp, txpCur := s.txpCur, pending := s.pending, outputs := s.outputs }

/-- `s` with the transmit side of `r`. -/
def withTransmit (r s : State) : State := { s with txp := r.txp, txpCur := r.txpCur }

section
variable (p : Params) (r : State)

theorem appendBytes_withReceive (bytes : List Byte) : CommutesWith (withReceive r) (appendBytes p bytes) := by
  intro s
  simp only [appendBytes, withReceive]
  split <;> rfl

theorem opEnc_withReceive : CommutesWith (withReceive r) (opEnc p) := by
  intro s
  simp only [opEnc, staged, withReceive]
  split
  · rfl
  · split <;> rfl

theorem opCrctx_withReceive : CommutesWith (withReceive r) (opCrctx p) := by
  intro s
  simp only [opCrctx, staged, withReceive]
  split <;> rfl

theorem readField_withTransmit (n : Nat) (v1 : Word) : CommutesWith (withTransmit r) (readField p n v1) := by
  intro s
  unfold readField
  by_cases h : s.rxpCur.toNat + n > s.rxpLen.toNat
  · rw [if_pos h]
    exact if_pos h
  · rw [if_neg h]
    refine (if_neg h).trans ?_
    simp only [withTransmit]
    split <;> rfl

theorem readScaled_withTransmit (n : Nat) (scale : Word) : CommutesWith (withTransmit r) (readScaled p n scale) := by
  intro s
  simp only [readScaled]
  split
  · rfl
  · exact readField_withTransmit p r n scale s

theorem moveCursor_withTransmit (k : Nat) : CommutesWith (withTransmit r) (moveCursor k) := by
  intro s
  unfold moveCursor
  by_cases h : k > s.rxpLen.toNat
  · rw [if_pos h]
    exact if_pos h
  · rw [if_neg h]
    exact if_neg h

theorem acceptPayload_withTransmit (payload : List Byte) :
    CommutesWith (withTransmit r) (acceptPayload p payload) := by
  intro s
  simp only [acceptPayload, withTransmit]
  split <;> rfl

theorem opDec_withTransmit : CommutesWith (withTransmit r) (opDec p) := by
  intro s
  simp only [opDec, received, withTransmit]
  split
  · split
    · rfl
    · split
      · exact acceptPayload_withTransmit p r _ s
      · rfl
  all_goals rfl

theorem opRxexpire_withTransmit : CommutesWith (withTransmit r) opRxexpire := by
  intro s
  simp only [opRxexpire, withTransmit]
  split <;> rfl

/-- A received byte puts nothing out, so exchanging the transmit side alone is a case of `opRxbyte_other`. -/
theorem opRxbyte_withTransmit (b : Byte) : CommutesWith (withTransmit r) (opRxbyte p b) := by
  intro s
  have hother := opRxbyte_other p b s r.txp r.txpCur s.outputs
  cases h : opRxbyte p b s with
  | next t =>
    have hsilent : t.outputs = s.outputs := opRxbyte_silent h
    rw [h] at hother
    rw [andThen_next, withTransmit, withTransmit, hsilent]
    exact hother
  | fault f | refused f =>
    rw [h] at hother
    exact hother

theorem rxBytes_withTransmit (bytes : List Byte) : CommutesWith (withTransmit r) (rxBytes p bytes) := by
  induction bytes with
  | nil => exact fun _ => rfl
  | cons b rest ih =>
    intro s
    rw [rxBytes, rxBytes, opRxbyte_withTransmit, andThen_assoc, andThen_assoc]
    congr
    funext t
    exact ih t

end

end Sys2Proof.Machine
end

section
/-! The statements about control operations and about which input may touch what (spec/44_control_ops.md). -/

namespace Sys2Proof.Machine

/-- Settles O15, operation by operation on each side. -/
theorem transmitAndReceiveShareNoState : Obligations.TransmitAndReceiveShareNoState := by
  unfold Obligations.TransmitAndReceiveShareNoState
  intro p i s r
  constructor
  · rintro (rfl | rfl | rfl | ⟨b, rfl⟩ | ⟨v, rfl⟩)
    · rfl
    · exact opEnc_withReceive p r s
    · exact opCrctx_withReceive p r s
    · exact appendBytes_withReceive p r [b] s
    · exact appendBytes_withReceive p r _ s
  · rintro (rfl | rfl | rfl | rfl | rfl | ⟨k, rfl⟩ | ⟨n, rfl⟩ | ⟨c, rfl⟩ | ⟨c, rfl⟩ | ⟨b, rfl⟩ | ⟨l, h, c, e, rfl⟩ |
      ⟨l, h, c, e, rfl⟩)
    · rfl
    · exact opDec_withTransmit p r s
    · exact readField_withTransmit p r 2 1 s
    · exact readField_withTransmit p r 4 1 s
    · exact opRxexpire_withTransmit r s
    · exact moveCursor_withTransmit r _ s
    · exact moveCursor_withTransmit r _ s
    · exact readScaled_withTransmit p r 2 c s
    · exact readScaled_withTransmit p r 4 c s
    · exact opRxbyte_withTransmit p r b s
    · exact rxBytes_withTransmit p r _ s
    · exact rxBytes_withTransmit p r _ s

/-- Settles O50: only the reserved operations and `RDREG` of a reserved register answer so, and a command word holds
one only under its own operation code. -/
theorem reservedCodesAnswerIllegalOp : Obligations.ReservedCodesAnswerIllegalOp := by
  unfold Obligations.ReservedCodesAnswerIllegalOp
  refine fun s => ⟨fails_fail _ s, fails_fail _ s, fun a => ?_, fun a ha => ?_,
    fun op a t r h0 hF hD h hr hill => ?_⟩
  · simp [decodeCommand]
  · rw [decodeCommand_rdreg]
    exact opRdreg_reserved ha
  · obtain ⟨hop0, hopF, hopD⟩ := opField_of_decodeCommand (op ++ a)
    rw [opField_append] at hop0 hopF hopD
    rw [exec_eq_execWith] at h
    obtain hi | hi | ⟨q, hi, hq⟩ := execWith_illegalOp (isCommand_decodeCommand _) h hr hill
    · exact h0 (hop0 hi)
    · exact hF (hopF hi)
    · obtain rfl := hopD q hi
      obtain rfl := Instr.rdreg.inj (hi.symm.trans (decodeCommand_rdreg a))
      exact hD ⟨rfl, hq⟩

/-- Settles O54: what each input keeps, and what it puts out. -/
theorem eachInputWritesOnlyWhatItMay : Obligations.EachInputWritesOnlyWhatItMay := by
  unfold Obligations.EachInputWritesOnlyWhatItMay
  refine fun p i s t h => ⟨execWith_keeps h, fun hc => ?_, fun hc => execWith_silent hc h⟩
  obtain ⟨r, -, ho⟩ := execWith_answers hc h
  exact ⟨r, ho⟩

/-- Settles O49, register by register. -/
theorem rdregAnswersTheNamedRegister : Obligations.RdregAnswersTheNamedRegister := by
  unfold Obligations.RdregAnswersTheNamedRegister
  intro s
  simp only [BitVec.ofNat_toNat]
  obtain ⟨t, ht, hans, hkeep⟩ := exec_rdreg_of_some (r := 0) (s := s) rfl
  exact ⟨⟨t, _, ht, hans, hkeep, toNat_statusWord s⟩, exec_rdreg_of_some rfl, exec_rdreg_of_some rfl,
    exec_rdreg_of_some rfl, exec_rdreg_of_some rfl, exec_rdreg_of_some rfl, exec_rdreg_of_some rfl,
    fun r hr => opRdreg_reserved hr⟩

/-- Settles O51: the fresh reader is idle, and the transmit cursor is put to 0. -/
theorem resetPutsTheRegistersToZero : Obligations.ResetPutsTheRegistersToZero := by
  unfold Obligations.ResetPutsTheRegistersToZero
  intro s
  refine ⟨_, opReset_eq s, rfl, rfl, rfl, rfl, rfl, rfl, rfl, rfl, rfl, BitVec.eq_of_toNat_eq ?_, rfl, rfl⟩
  rw [toNat_statusWord]
  rfl

end Sys2Proof.Machine
end

section
/-! SUPPORT. Staging a command and sending it (spec/45_client_profile.md R191, R200 to R204). -/

namespace Sys2Proof.Machine

/-- A run put at the end of a run of bytes that starts at 0. -/
theorem Memory.readBytes_writeBytes_end {m : Memory} (h : m.wf = true) (n : Nat) (bytes : List Byte) :
    (m.writeBytes n bytes).readBytes 0 (n + bytes.length) = m.readBytes 0 n ++ bytes := by
  have hbelow : (m.writeBytes n bytes).readBytes 0 n = m.readBytes 0 n :=
    readBytes_congr fun x _ hx => by rw [read_writeBytes h, if_neg (by omega)]
  rw [readBytes_append, hbelow, Nat.zero_add, readBytes_writeBytes h]

/-- `t` holds `payload` staged for sending, and differs from `s` on the transmit side and in the outputs alone. -/
structure Staged (payload : List Byte) (s t : State) : Prop where
  canonical : t.txp.wf = true
  cursor : t.txpCur.toNat = payload.length
  bytes : t.txp.readBytes 0 payload.length = payload
  keeps : KeepsAllBut [.txp, .txpCur] s t

/-- From `s` the inputs put out nothing but responses `OK`, and leave `payload` staged. -/
def Stages (p : Params) (inputs : List Instr) (payload : List Byte) (s : State) : Prop :=
  ∃ t answers, runWith p inputs s = .next t ∧ t.outputs = s.outputs ++ answers ∧
    (∀ o ∈ answers, ∃ n, o = .response ⟨.ok, n, 0⟩) ∧ Staged payload s t

section
variable {p : Params} {s t u : State} {inputs : List Instr} {payload : List Byte}

theorem Staged.of_block (h : Staged payload s t) (hb : u.toBlock = t.toBlock) (hp : u.pending = t.pending) :
    Staged payload s u where
  canonical := hb ▸ h.canonical
  cursor := hb ▸ h.cursor
  bytes := hb ▸ h.bytes
  keeps := h.keeps.trans (.of_block hb hp)

/-- `TXCLR` leaves the empty payload staged (R107). -/
theorem stages_txclr (hwf : s.txp.wf = true) : Stages p [.txclr] [] s :=
  ⟨_, [.response ⟨.ok, 0, 0⟩], rfl, rfl, by simp,
    { canonical := hwf
      cursor := rfl
      bytes := rfl
      keeps := ((keepsAllBut_txpCur s 0).mono (by simp)).respond .ok 0 0 }⟩

/-- An append that fits puts its bytes behind those staged (R108, R109). -/
theorem Stages.append (hv : p.valid = true) (h : Stages p inputs payload s) {i : Instr} {bytes : List Byte}
    (hi : execWith p i = appendBytes p bytes) (hroom : payload.length + bytes.length ≤ p.txpCap) :
    Stages p (inputs ++ [i]) (payload ++ bytes) s := by
  obtain ⟨t, answers, hrun, hout, hok, ht⟩ := h
  obtain ⟨u, hu, hcur, htxp, hans, hkeep⟩ := appendBytes_of_le hv (s := t) (bytes := bytes) (ht.cursor ▸ hroom)
  rw [ht.cursor] at hcur htxp
  refine ⟨u, answers ++ [.response ⟨.ok, _, 0⟩], ?_, by rw [hans, hout, List.append_assoc], ?_, ?_⟩
  · rw [runWith_append, hrun, andThen_next, runWith, hi, hu]
    rfl
  · simpa [or_imp, forall_and] using hok
  · exact
      { canonical := htxp ▸ Memory.writeBytes_wf ht.canonical ..
        cursor := by rw [hcur, List.length_append]
        bytes := by rw [htxp, List.length_append, Memory.readBytes_writeBytes_end ht.canonical, ht.bytes]
        keeps := ht.keeps.trans hkeep }

/-- `ENC` sends what is staged, up to 255 bytes, as a Short frame (R141, R149). -/
theorem Stages.enc (h : Stages p inputs payload s) (hshort : payload.length ≤ 255)
    (hcap : payload.length ≤ p.txpCap) :
    ∃ t answers, runWith p (inputs ++ [.enc]) s = .next t ∧
      t.outputs = s.outputs ++ answers ++
        [.frame (buildFrame p .short payload), .response ⟨.ok, BitVec.ofNat 32 (payload.length + 5), 0⟩] ∧
      (∀ o ∈ answers, ∃ n, o = .response ⟨.ok, n, 0⟩) ∧ Staged payload s t := by
  obtain ⟨t, answers, hrun, hout, hok, ht⟩ := h
  have henc := (opEnc_eq_next (p := p) (s := t)).2
    (.inr ⟨.short, encodeKind_eq_ok.2 (.inl ⟨ht.cursor ▸ hshort, rfl⟩), ht.cursor ▸ hcap, rfl⟩)
  rw [ht.cursor, ht.bytes, length_buildFrame, FrameKind.total_short] at henc
  refine ⟨respond .ok (BitVec.ofNat 32 (payload.length + 5)) 0 (emit (buildFrame p .short payload) t), answers, ?_, ?_,
    hok, ht.of_block rfl rfl⟩
  · rw [runWith_append, hrun, andThen_next, runWith, execWith, henc, andThen_next, runWith]
  · rw [respond_outputs, emit_outputs, hout, List.append_assoc, List.append_assoc, List.append_assoc]
    rfl

/-- A pseudo-operation is the staging of its command's payload, then `ENC` (R200 to R204). -/
theorem HostCommand.expand_stages (hv : p.valid = true) (hcap : 5 ≤ p.txpCap) (hwf : s.txp.wf = true)
    (c : HostCommand) :
    ∃ inputs, c.expand p.ids = inputs ++ [.enc] ∧ Stages p inputs (c.payload p.ids) s := by
  have hid : Stages p [.txclr, .appu8 (c.id p.ids)] [c.id p.ids] s :=
    (stages_txclr hwf).append hv (i := .appu8 (c.id p.ids)) rfl (by simp; omega)
  refine ⟨_, rfl, ?_⟩
  unfold HostCommand.payload
  cases c.param with
  | none => exact hid
  | some v => exact hid.append hv (i := .appi32 v) rfl (by simp; omega)

theorem HostCommand.length_payload_le (ids : PacketIds) (c : HostCommand) : (c.payload ids).length ≤ 5 := by
  unfold HostCommand.payload
  cases c.param <;> simp

end

end Sys2Proof.Machine
end

section
/-! The statement about the pseudo-operations (spec/45_client_profile.md R200 to R204). -/

namespace Sys2Proof.Machine

/-- Settles O56: the payload is staged by the appends, and has at most 5 bytes. -/
theorem pseudoOperationsEmitTheirFrame : Obligations.PseudoOperationsEmitTheirFrame := by
  unfold Obligations.PseudoOperationsEmitTheirFrame
  intro p hv hcap s c payload hs hpayload
  obtain rfl : payload = c.payload p.ids := by
    rw [hpayload, HostCommand.payload]
    cases c.param with
    | none => rfl
    | some v => simp only [beBytes_four]
  obtain ⟨inputs, hexpand, hstages⟩ := c.expand_stages hv hcap (Memory.fits_wf hs.buffers.1)
  have hlen := c.length_payload_le p.ids
  obtain ⟨t, answers, hrun, hout, hok, ht⟩ := hstages.enc (by omega) (by omega)
  refine ⟨t, answers, hexpand ▸ hrun, ?_, hok, ht.cursor, ht.bytes, ht.keeps⟩
  rw [hout, buildFrame_eq]
  rfl

end Sys2Proof.Machine
end

section
/-! SUPPORT. The telemetry walk (spec/45_client_profile.md R195): each read and skip of it moves the receive cursor by
its own length, which inside the payload never fails. -/

namespace Sys2Proof.Machine

/-- How far a read or a skip moves the receive cursor (R110 to R115); a scaled read needs a scale. -/
def stride : Instr → Option Nat
  | .rdi16 => some 2
  | .rdi32 => some 4
  | .rdf16 scale => if scale = 0 then none else some 2
  | .rdf32 scale => if scale = 0 then none else some 4
  | .skip n => some n.toNat
  | _ => none

/-- The strides of the walk, 52 bytes together (G4). -/
theorem stride_telemetryWalk : telemetryWalk.map stride = [2, 2, 4, 4, 8, 2, 4, 2, 4, 4, 8, 4, 4].map some := by
  decide

/-- Asked in `s`, the command is answered `OK` and leaves the receive cursor at `c`, nothing else changed. -/
def MovesTo (p : Params) (i : Instr) (s : State) (c : Nat) : Prop :=
  ∃ t r, ask p i s = some (t, r) ∧ r.status = .ok ∧ t.rxpCur.toNat = c ∧ KeepsAllBut [.rxpCur] s t

section
variable {p : Params} {s t : State} {i : Instr}

theorem ask_of_answers {status : Status} {v0 v1 : Word} (h : execWith p i s = .next t)
    (hans : Answers s t status v0 v1) : ask p i s = some (t, ⟨status, v0, v1⟩) :=
  ask_eq_some.2 ⟨h, by rw [hans, List.getLast?_concat]⟩

theorem rxpLen_of_keeps (h : KeepsAllBut [.rxpCur] s t) : t.rxpLen = s.rxpLen := h.2 .rxpLen (by simp)

theorem movesTo_of_moveCursor {k : Nat} (hi : execWith p i s = moveCursor k s) (h : k ≤ s.rxpLen.toNat) :
    MovesTo p i s k := by
  obtain ⟨t, ht, hcur, hans, hkeep⟩ := moveCursor_of_le h
  exact ⟨t, _, ask_of_answers (hi.trans ht) hans, rfl, by rw [hcur, toNat_ofNat_16 (h.trans_lt s.rxpLen.isLt)], hkeep⟩

theorem movesTo_of_readField {n : Nat} {v1 : Word} (hi : execWith p i s = readField p n v1 s)
    (hcap : s.rxpLen.toNat ≤ p.rxpCap) (h : s.rxpCur.toNat + n ≤ s.rxpLen.toNat) :
    MovesTo p i s (s.rxpCur.toNat + n) := by
  obtain ⟨t, ht, hcur, hans, hkeep⟩ := readField_of_le hcap h v1
  exact ⟨t, _, ask_of_answers (hi.trans ht) hans, rfl, hcur, hkeep⟩

/-- A read or a skip that stays inside the payload moves the cursor by its stride. -/
theorem movesTo_of_stride (hcap : s.rxpLen.toNat ≤ p.rxpCap) {n : Nat} (hi : stride i = some n)
    (h : s.rxpCur.toNat + n ≤ s.rxpLen.toNat) : MovesTo p i s (s.rxpCur.toNat + n) := by
  cases i with
  | rdi16 | rdi32 =>
    obtain rfl := Option.some.inj hi
    exact movesTo_of_readField rfl hcap h
  | rdf16 scale | rdf32 scale =>
    obtain ⟨h0, hn⟩ := Option.ite_none_left_eq_some.1 hi
    obtain rfl := Option.some.inj hn
    exact movesTo_of_readField (readScaled_of_ne h0 _) hcap h
  | skip n =>
    obtain rfl := Option.some.inj hi
    exact movesTo_of_moveCursor rfl h
  | _ => cases hi

/-- Reads and skips whose strides stay inside the payload together are all answered `OK`. -/
theorem askAll_of_strides {inputs : List Instr} {strides : List Nat} (hi : inputs.map stride = strides.map some)
    (hcap : s.rxpLen.toNat ≤ p.rxpCap) (h : s.rxpCur.toNat + strides.sum ≤ s.rxpLen.toNat) :
    ∃ t rs, askAll p inputs s = some (t, .ok rs) ∧ rs.length = inputs.length ∧
      t.rxpCur.toNat = s.rxpCur.toNat + strides.sum ∧ KeepsAllBut [.rxpCur] s t := by
  induction inputs generalizing s strides with
  | nil =>
    obtain rfl := List.map_eq_nil_iff.1 hi.symm
    exact ⟨s, [], rfl, rfl, rfl, .refl _ s⟩
  | cons i inputs ih =>
    obtain ⟨n, strides, rfl, hn, hrest⟩ := List.map_eq_cons_iff.1 hi.symm
    rw [List.sum_cons] at h
    obtain ⟨t, r, hask, hr, hcur, hkeep⟩ := movesTo_of_stride hcap hn.symm (by omega)
    have hlen := rxpLen_of_keeps hkeep
    obtain ⟨u, rs, hall, hrs, hucur, hukeep⟩ := ih (s := t) hrest.symm (hlen ▸ hcap) (by rw [hcur, hlen]; omega)
    refine ⟨u, r :: rs, askAll_cons hask hr hall, congrArg Nat.succ hrs, ?_, hkeep.trans hukeep⟩
    rw [hucur, hcur, List.sum_cons, Nat.add_assoc]

/-- `CURWR 1` and the walk over a payload of 53 bytes or more (R195). -/
theorem askAll_telemetryWalk (hcap : s.rxpLen.toNat ≤ p.rxpCap) (hlen : 53 ≤ s.rxpLen.toNat) :
    ∃ t r rs, askAll p (.curwr 1 :: telemetryWalk) s = some (t, .ok (r :: rs)) ∧ rs.length = 13 ∧
      t.rxpCur.toNat = 53 ∧ KeepsAllBut [.rxpCur] s t := by
  obtain ⟨t, r, hask, hr, hcur, hkeep⟩ :=
    movesTo_of_moveCursor (p := p) (i := .curwr 1) (s := s) (k := 1) rfl (by omega)
  have hsame := rxpLen_of_keeps hkeep
  obtain ⟨u, rs, hall, hrs, hucur, hukeep⟩ :=
    askAll_of_strides (p := p) (s := t) stride_telemetryWalk (hsame ▸ hcap) (by rw [hcur, hsame]; exact hlen)
  exact ⟨u, r, rs, askAll_cons hask hr hall, hrs, by rw [hucur, hcur]; rfl, hkeep.trans hukeep⟩

end

end Sys2Proof.Machine
end

section
/-! The statement about the telemetry walk (spec/45_client_profile.md R195). -/

namespace Sys2Proof.Machine

/-- Settles O57: from 1 the strides of the walk lead to 53. -/
theorem theTelemetryWalkFitsItsPayload : Obligations.TheTelemetryWalkFitsItsPayload := by
  unfold Obligations.TheTelemetryWalkFitsItsPayload
  intro p _ s hs hlen
  obtain ⟨t, r, rs, hall, hrs, hcur, hkeep⟩ := askAll_telemetryWalk hs.rxCursor.2 hlen
  exact ⟨t, r :: rs, hall, congrArg Nat.succ hrs, hcur, hkeep⟩

end Sys2Proof.Machine
end

section
/-! SUPPORT. The host's reading of a reply (spec/45_client_profile.md R196 to R199, R206): the gate, the identifier, the
walk, and the exchange in which the frame of a payload arrives. -/

namespace Sys2Proof.Machine

/-- The block holds a frame that decodes to `payload`: the host may read the reply. -/
structure HoldsReply (p : Params) (payload : List Byte) (s : State) : Prop where
  inv : Inv p s
  terminated : s.rxState = .terminated
  decodes : decodeFrame p (s.rxf.readBytes 0 s.rxCount.toNat) = .ok payload

/-- A walk gives thirteen responses, eleven of them values. -/
theorem exists_snapshotOf {rs : List Response} (h : rs.length = 13) : ∃ snap, snapshotOf rs = some snap := by
  match rs, h with
  | [_, _, _, _, _, _, _, _, _, _, _, _, _], _ => exact ⟨_, rfl⟩

/-- The high byte of a 16-bit field is its first byte (R196). -/
theorem extractLsb'_fieldWord_two (m : Memory) (i : Nat) :
    (fieldWord 2 (beNat (m.readBytes i 2))).extractLsb' 8 8 = m.read i := by
  rw [fieldWord_readBytes_two]
  grind

section
variable {p : Params} {s : State} {d : Response} {payload : List Byte}

/-! ## The answer of `DEC` -/

/-- `DEC` answers with the length of the payload and hands it over (R150). -/
theorem HoldsReply.ask_dec (h : HoldsReply p payload s) :
    ∃ t, ask p .dec s = some (t, ⟨.ok, BitVec.ofNat 32 payload.length, 0⟩) ∧ t.rxpLen.toNat = payload.length ∧
      t.rxpLen.toNat ≤ p.rxpCap ∧ t.rxpValid = true ∧ t.rxp.readBytes 0 payload.length = payload := by
  obtain ⟨t, ht, hrxp, hlen, -, hvalid, hans, -⟩ := h.inv.opDec_ok h.terminated h.decodes
  have hn : t.rxpLen.toNat = payload.length := by
    rw [hlen, toNat_ofNat_16 (Nat.lt_succ_of_le (decodeFrame_ok_length h.decodes).2)]
  refine ⟨t, ask_of_answers ht hans, hn, hn ▸ h.inv.payload_fits h.decodes, hvalid, ?_⟩
  rw [hrxp, Memory.readBytes_writeBytes (Memory.fits_wf h.inv.buffers.2.2)]

/-- The length answered does not wrap. -/
theorem HoldsReply.toNat_ofNat_length (h : HoldsReply p payload s) :
    (BitVec.ofNat 32 payload.length).toNat = payload.length := by
  have hle := (decodeFrame_ok_length h.decodes).2
  rw [BitVec.toNat_ofNat, Nat.mod_eq_of_lt (by omega)]

/-! ## What the host makes of it -/

/-- The length gate (R199). -/
theorem useReply_short (hok : d.status = .ok) (hgate : d.v0.toNat ≤ minTelemetryLen) :
    useReply p d s = some (s, .error .shortResponse) := by
  rw [useReply, if_neg (not_not_intro hok), if_pos hgate]

/-- The 16-bit read at 0 (R196). -/
theorem askAll_identifier (hcap : s.rxpLen.toNat ≤ p.rxpCap) (hlen : 2 ≤ s.rxpLen.toNat) :
    ∃ t r ident, askAll p [.curwr 0, .rdi16] s = some (t, .ok [r, ident]) ∧
      ident.v0.extractLsb' 8 8 = s.rxp.read 0 ∧ t.rxpCur.toNat = 2 ∧ KeepsAllBut [.rxpCur] s t := by
  obtain ⟨t, r, hask, hr, hcur, hkeep⟩ :=
    movesTo_of_moveCursor (p := p) (i := .curwr 0) (s := s) rfl (Nat.zero_le _)
  have hsame := rxpLen_of_keeps hkeep
  obtain ⟨u, hu, hucur, hans, hukeep⟩ :=
    readField_of_le (p := p) (s := t) (hsame ▸ hcap) (n := 2) (by rw [hcur, hsame]; exact hlen) 1
  have hident : ask p .rdi16 t = _ := ask_of_answers hu hans
  refine ⟨u, r, _, askAll_cons hask hr (askAll_cons hident rfl rfl), ?_, by rw [hucur, hcur], hkeep.trans hukeep⟩
  rw [extractLsb'_fieldWord_two, hcur]
  exact hkeep.2 .rxp (by simp) 0

/-- Above the gate the identifier decides (R196): another one ends the exchange after the read at 0. -/
theorem useReply_otherIdentifier (hok : d.status = .ok) (hgate : minTelemetryLen < d.v0.toNat)
    (hcap : s.rxpLen.toNat ≤ p.rxpCap) (hlen : 2 ≤ s.rxpLen.toNat) (hid : s.rxp.read 0 ≠ p.ids.getValues) :
    ∃ t, useReply p d s = some (t, .error .unknownPacket) ∧ t.rxpCur.toNat = 2 := by
  obtain ⟨t, r, ident, hall, hident, hcur, -⟩ := askAll_identifier hcap hlen
  refine ⟨t, ?_, hcur⟩
  rw [useReply, if_neg (not_not_intro hok), if_neg (by omega), hall]
  exact if_pos (hident ▸ hid)

/-- With get-telemetry's the walk follows, and its values are put together (R195, R197). -/
theorem useReply_telemetry (hok : d.status = .ok) (hgate : minTelemetryLen < d.v0.toNat)
    (hcap : s.rxpLen.toNat ≤ p.rxpCap) (hlen : 53 ≤ s.rxpLen.toNat) (hid : s.rxp.read 0 = p.ids.getValues) :
    ∃ t snap, useReply p d s = some (t, .ok snap) ∧ t.rxpCur.toNat = 53 := by
  obtain ⟨t, r, ident, hall, hident, -, hkeep⟩ := askAll_identifier hcap (by omega)
  have hsame := rxpLen_of_keeps hkeep
  obtain ⟨u, r', rs, hwalk, hrs, hcur, -⟩ := askAll_telemetryWalk (p := p) (s := t) (hsame ▸ hcap) (hsame ▸ hlen)
  obtain ⟨snap, hsnap⟩ := exists_snapshotOf hrs
  refine ⟨u, snap, ?_, hcur⟩
  rw [useReply, if_neg (not_not_intro hok), if_neg (by omega), hall]
  simp only [hident, hid, ne_eq, not_true_eq_false, if_false, hwalk, hsnap, Option.map_some]

/-! ## The reply the block holds -/

/-- A payload of 55 bytes or fewer stays in the block, and the host's read fails (R199). -/
theorem HoldsReply.readTelemetry_short (h : HoldsReply p payload s) (hlen : payload.length ≤ 55) :
    ∃ t, readTelemetry p s = some (t, .error .shortResponse) ∧ t.rxpValid = true ∧
      t.rxpLen.toNat = payload.length := by
  obtain ⟨t, hdec, hn, -, hvalid, -⟩ := h.ask_dec
  refine ⟨t, ?_, hvalid, hn⟩
  rw [readTelemetry, hdec]
  exact useReply_short rfl (h.toNat_ofNat_length.trans_le hlen)

/-- A longer one is read as its first byte says (R196 to R198). -/
theorem HoldsReply.readTelemetry_long {ident : Byte} {body : List Byte} (h : HoldsReply p (ident :: body) s)
    (hlen : 55 < body.length + 1) :
    (ident = p.ids.getValues → ∃ t snap, readTelemetry p s = some (t, .ok snap) ∧ t.rxpCur.toNat = 53) ∧
    (ident ≠ p.ids.getValues → ∃ t, readTelemetry p s = some (t, .error .unknownPacket) ∧ t.rxpCur.toNat = 2) := by
  obtain ⟨t, hdec, hn, hcap, -, hbytes⟩ := h.ask_dec
  have hfirst : t.rxp.read 0 = ident := (List.cons.inj hbytes).1
  have hgate : minTelemetryLen < (BitVec.ofNat 32 (ident :: body).length).toNat :=
    hlen.trans_eq h.toNat_ofNat_length.symm
  rw [List.length_cons] at hn
  rw [readTelemetry, hdec, ← hfirst]
  exact ⟨useReply_telemetry rfl hgate hcap (by omega), useReply_otherIdentifier rfl hgate hcap (by omega)⟩

/-! ## The exchange -/

/-- The frame of a payload, arriving after `RXSTART`, is the reply the block then holds (R161 to R168). -/
theorem exists_holdsReply_of_frame (hv : p.valid = true) (h : Inv p s) {frame : List Byte}
    (hframe : encodeFrame p payload = .ok frame) (hroom : frame.length ≤ p.frameCap) :
    ∃ t, runWith p (.rxstart :: frame.map .rxbyte) s = .next t ∧ HoldsReply p payload t := by
  obtain ⟨k, hk, rfl⟩ := encodeFrame_eq_ok.1 hframe
  have hread := readable_of_encodeKind hk
  have hb := valid_bounds hv
  have hwf := Memory.fits_wf h.buffers.2.1
  have hrun := rxBytes_buildFrame hv hwf (s := respond .ok 0 0 (freshReader .waitingForHeader s)) rfl rfl hread
    (length_buildFrame p k payload ▸ hroom)
  exact ⟨_, rxBytes_eq_runWith.symm.trans hrun,
    { inv := rxBytes_keeps_inv hv (opRxstart_keeps_inv h (opRxstart_eq s)) hrun
      terminated := rfl
      decodes := (congrArg _ (readBytes_holding hwf (by omega))).trans (decodeFrame_buildFrame hread) }⟩

/-- The exchange in which that frame arrives is the reading of the reply, however the host polls and whatever arrives
after it (R198). -/
theorem requestTelemetry_of_frame (hv : p.valid = true) (h : Inv p s) {frame : List Byte}
    (hframe : encodeFrame p payload = .ok frame) (hroom : frame.length ≤ p.frameCap) (how : Polling)
    (more : List Arrival) :
    ∃ t, HoldsReply p payload t ∧ requestTelemetry p how (frame.map .byte ++ more) s =
      (readTelemetry p t).map fun r => (r.1, some r.2) := by
  obtain ⟨t, hrun, ht⟩ := exists_holdsReply_of_frame hv h hframe hroom
  have harrive : runWith p (.rxstart :: (frame.map Arrival.byte).map Arrival.instr) s = .next t := by
    rwa [List.map_map]
  obtain ⟨x, c, outs, hx, hc, hrequest⟩ := requestTelemetry_of_run hv (how := how) (more := more) h.buffers.1 harrive
    (by rw [ht.terminated]; rfl) (by rw [ht.terminated]; nofun)
  exact ⟨{ t with txp := x, txpCur := c, outputs := outs },
    { inv := (ht.inv.transmit hx hc).of_block rfl
      terminated := ht.terminated
      decodes := ht.decodes }, hrequest⟩

end

end Sys2Proof.Machine
end

section
/-! The statements about the host's reading of a reply (spec/45_client_profile.md R196 to R199, R206). -/

namespace Sys2Proof.Machine

/-- Settles O58: the gate refuses what `DEC` has handed over, in the read and so in the exchange. -/
theorem aShortReplyFailsAndKeepsTheSnapshot : Obligations.AShortReplyFailsAndKeepsTheSnapshot := by
  unfold Obligations.AShortReplyFailsAndKeepsTheSnapshot
  refine ⟨fun p _ s payload cached hs hterm hd hlen => ?_,
    fun p hv s how payload frame more cached hs hframe hroom hlen => ?_⟩
  · obtain ⟨t, hread, hvalid, hn⟩ := HoldsReply.readTelemetry_short ⟨hs, hterm, hd⟩ hlen
    exact ⟨t, _, hread, rfl, rfl, hvalid, hn⟩
  · obtain ⟨u, hu, hrequest⟩ := requestTelemetry_of_frame hv hs hframe hroom how more
    obtain ⟨t, hread, hvalid, hn⟩ := hu.readTelemetry_short hlen
    rw [hread, Option.map_some] at hrequest
    exact ⟨t, _, hrequest, rfl, rfl, hvalid, hn⟩

/-- Settles O59: the identifier decides, in the read and so in the exchange. -/
theorem aLongReplyGivesASnapshotOrUnknownPacket : Obligations.ALongReplyGivesASnapshotOrUnknownPacket := by
  unfold Obligations.ALongReplyGivesASnapshotOrUnknownPacket
  refine ⟨fun p _ s ident body cached hs hterm hd hlen => ?_,
    fun p hv s how ident body frame more cached hs hframe hroom hlen => ?_⟩
  · obtain ⟨htelemetry, hother⟩ := HoldsReply.readTelemetry_long ⟨hs, hterm, hd⟩ hlen
    refine ⟨fun hid => ?_, fun hid => ?_⟩
    · obtain ⟨t, snap, hread, hcur⟩ := htelemetry hid
      exact ⟨t, snap, hread, rfl, hcur⟩
    · obtain ⟨t, hread, hcur⟩ := hother hid
      exact ⟨t, _, hread, rfl, rfl, hcur⟩
  · obtain ⟨u, hu, hrequest⟩ := requestTelemetry_of_frame hv hs hframe hroom how more
    obtain ⟨htelemetry, hother⟩ := hu.readTelemetry_long hlen
    refine ⟨fun hid => ?_, fun hid => ?_⟩
    · obtain ⟨t, snap, hread, hcur⟩ := htelemetry hid
      exact ⟨t, snap, by rw [hrequest, hread, Option.map_some], rfl, hcur⟩
    · obtain ⟨t, hread, hcur⟩ := hother hid
      exact ⟨t, _, by rw [hrequest, hread, Option.map_some], rfl, rfl, hcur⟩

end Sys2Proof.Machine
end

section
/-! SUPPORT. The integer sent for a real value (spec/45_client_profile.md R193, G5): it lies between the scaled value
and zero, less than 1 from the scaled value. -/

namespace Sys2Proof.Machine

theorem abs_sub_quantise_lt (x : Rat) (scale : Nat) : |x * scale - quantise x scale| < 1 := by
  rw [abs_lt]
  unfold quantise
  split
  · have hle := Rat.floor_le (x * scale)
    have hlt := Rat.lt_floor (x := x * scale)
    constructor <;> linarith
  · have hle := Rat.le_ceil (x := x * scale)
    have hlt := Rat.ceil_lt (x := x * scale)
    constructor <;> linarith

theorem abs_quantise_le (x : Rat) (scale : Nat) : |(quantise x scale : Rat)| ≤ |x * scale| := by
  have hscale : (0 : Rat) ≤ scale := Nat.cast_nonneg scale
  unfold quantise
  split
  · next hx =>
    have hnonneg : 0 ≤ (x * scale).floor := Rat.le_floor_iff.2 (by simpa using mul_nonneg hx hscale)
    exact abs_le_abs_of_nonneg (Int.cast_nonneg hnonneg) (Rat.floor_le _)
  · next hx =>
    have hnonpos : (x * scale).ceil ≤ 0 :=
      Rat.ceil_le_iff.2 (by simpa using mul_nonpos_of_nonpos_of_nonneg (not_le.1 hx).le hscale)
    exact abs_le_abs_of_nonpos (Int.cast_nonpos.2 hnonpos) Rat.le_ceil

end Sys2Proof.Machine
end

section
/-! The statement about quantised values (spec/45_client_profile.md R193). -/

namespace Sys2Proof.Machine

/-- Settles O60: both bounds hold for the scaled value, and are divided by the scale. -/
theorem quantisedValuesComeBackWithinOneStep : Obligations.QuantisedValuesComeBackWithinOneStep := by
  unfold Obligations.QuantisedValuesComeBackWithinOneStep
  intro x scale hscale
  have hpos : (0 : Rat) < scale := Nat.cast_pos.2 hscale
  constructor
  · rw [sub_div' hpos.ne', abs_div, Nat.abs_cast]
    exact div_lt_div_of_pos_right (abs_sub_quantise_lt x scale) hpos
  · rw [abs_div, Nat.abs_cast, div_le_iff₀ hpos]
    exact (abs_quantise_le x scale).trans_eq (by rw [abs_mul, Nat.abs_cast])

end Sys2Proof.Machine
end

section
/-! SUPPORT. Failure (spec/60_exceptions.md R225): every host command either fails, and then its answer is all that
changed, or answers `OK`. -/

namespace Sys2Proof.Machine

/-- `t` is `s` with an answer `(e, 0, 0)` and nothing else changed, or the answer put out last in `t` is `OK`. -/
def FailsOrAnswersOk (s t : State) : Prop :=
  (∃ e, t = respond e 0 0 s) ∨ ∃ v0 v1 u, t = respond .ok v0 v1 u

section
variable {p : Params} {s t : State}

theorem failsOrAnswersOk_fail (e : Status) (s : State) : FailsOrAnswersOk s (respond e 0 0 s) := .inl ⟨e, rfl⟩

theorem failsOrAnswersOk_ok (s : State) (v0 v1 : Word) (u : State) : FailsOrAnswersOk s (respond .ok v0 v1 u) :=
  .inr ⟨v0, v1, u, rfl⟩

theorem readField_failsOrAnswersOk {n : Nat} {v1 : Word} (h : readField p n v1 s = .next t) :
    FailsOrAnswersOk s t := by
  rcases readField_eq_next.1 h with ⟨-, rfl⟩ | ⟨-, -, rfl⟩
  · exact failsOrAnswersOk_fail ..
  · exact failsOrAnswersOk_ok ..

theorem opDec_failsOrAnswersOk (h : opDec p s = .next t) : FailsOrAnswersOk s t := by
  rcases opDec_eq_next.1 h with ⟨-, -, ⟨e, -, rfl⟩ | ⟨payload, -, haccept⟩⟩ | ⟨-, rfl⟩ | ⟨-, rfl⟩ | ⟨-, rfl⟩
  · exact failsOrAnswersOk_fail ..
  · obtain ⟨-, rfl⟩ := acceptPayload_eq_next.1 haccept
    exact failsOrAnswersOk_ok ..
  all_goals exact failsOrAnswersOk_fail ..

/-- Every host command fails with no state written, or answers `OK` (R225). -/
theorem execWith_failsOrAnswersOk {i : Instr} (hc : i.isCommand = true) (h : execWith p i s = .next t) :
    FailsOrAnswersOk s t := by
  cases i with
  | reserved0 | reservedF => exact fail_eq_next.1 h ▸ failsOrAnswersOk_fail ..
  | txclr | rxstart =>
    obtain rfl := Host.Outcome.next.inj h
    exact failsOrAnswersOk_ok ..
  | appu8 b | appi32 v =>
    rcases appendBytes_eq_next.1 h with ⟨-, rfl⟩ | ⟨-, rfl⟩
    · exact failsOrAnswersOk_fail ..
    · exact failsOrAnswersOk_ok ..
  | enc =>
    rcases opEnc_eq_next.1 h with ⟨e, -, rfl⟩ | ⟨k, -, -, rfl⟩
    · exact failsOrAnswersOk_fail ..
    · exact failsOrAnswersOk_ok ..
  | dec => exact opDec_failsOrAnswersOk h
  | curwr k | skip n =>
    rcases moveCursor_eq_next.1 h with ⟨-, rfl⟩ | ⟨-, rfl⟩
    · exact failsOrAnswersOk_fail ..
    · exact failsOrAnswersOk_ok ..
  | rdi16 | rdi32 => exact readField_failsOrAnswersOk h
  | rdf16 scale | rdf32 scale =>
    rcases readScaled_eq_next.1 h with ⟨-, rfl⟩ | ⟨-, hread⟩
    · exact failsOrAnswersOk_fail ..
    · exact readField_failsOrAnswersOk hread
  | crctx =>
    obtain ⟨-, rfl⟩ := opCrctx_eq_next.1 h
    exact failsOrAnswersOk_ok ..
  | rdreg r =>
    rcases opRdreg_eq_next.1 h with ⟨v, -, rfl⟩ | ⟨-, rfl⟩
    · exact failsOrAnswersOk_ok ..
    · exact failsOrAnswersOk_fail ..
  | rxbyte | rxexpire | reset | frameShort | frameLong => cases hc

/-- A response just given is the last thing put out. -/
theorem eq_of_last_output_respond {status : Status} {v0 v1 : Word} {r : Response}
    (h : (respond status v0 v1 s).outputs.getLast? = some (.response r)) : r = ⟨status, v0, v1⟩ := by
  simpa [@eq_comm _ r] using h

end

end Sys2Proof.Machine
end

section
/-! The statements about failures and answers (spec/60_exceptions.md). -/

namespace Sys2Proof.Machine

/-- Settles O52: a command that does not fail answers `OK`. -/
theorem aFailedCommandWritesNothing : Obligations.AFailedCommandWritesNothing := by
  unfold Obligations.AFailedCommandWritesNothing
  intro p i s t r hc h hr hfailed
  obtain ⟨e, rfl⟩ | ⟨v0, v1, u, rfl⟩ := execWith_failsOrAnswersOk hc h
  · obtain rfl := eq_of_last_output_respond hr
    exact ⟨rfl, rfl, rfl⟩
  · obtain rfl := eq_of_last_output_respond hr
    exact absurd rfl hfailed

/-- Settles O53: a command's response is the last thing it puts out. -/
theorem everyAnswerIsOneTheOperationMayGive : Obligations.EveryAnswerIsOneTheOperationMayGive := by
  unfold Obligations.EveryAnswerIsOneTheOperationMayGive
  intro p i s t hc h
  obtain ⟨r, hmay, hlast⟩ := execWith_last_output hc h
  exact ⟨r, hlast, hmay⟩

end Sys2Proof.Machine
end

section
/-! SUPPORT. Progress (spec/70_reset_and_hazards.md R253), and what a block with no staged byte and no payload answers
(R241). -/

namespace Sys2Proof.Machine

section
variable {p : Params} {s : State}

/-- From a state that meets the invariants every step leads on (R253): nothing is run, or one instruction is, from a
state with the same block. -/
theorem Inv.stepWith_next (hv : p.valid = true) (h : Inv p s) : ∃ t, stepWith p s = .next t := by
  have hfetched := h.fetched
  rcases hf : fetch s with ⟨_ | i, u⟩
  · exact ⟨u, stepWith_of_fetch_none hf⟩
  · rw [hf] at hfetched
    rw [stepWith_of_fetch_some hf]
    exact hfetched.execWith_next hv i

theorem moveCursor_of_empty (hlen : s.rxpLen = 0) {k : Nat} (hk : 0 < k) : Fails (moveCursor k s) .boundsError s :=
  moveCursor_past (by rw [hlen]; exact hk)

theorem moveCursor_zero : ∃ t, moveCursor 0 s = .next t ∧ Answers s t .ok 0 0 := by
  obtain ⟨t, ht, -, hans, -⟩ := moveCursor_of_le (Nat.zero_le s.rxpLen.toNat)
  exact ⟨t, ht, hans⟩

/-- With the receive cursor at 0 a skip moves it to its operand. -/
theorem opSkip_of_cursor_zero (hcur : s.rxpCur = 0) (n : BitVec 16) : opSkip n s = moveCursor n.toNat s := by
  simp [opSkip, hcur]

theorem readScaled_of_empty (hlen : s.rxpLen = 0) {scale : Word} (hscale : scale ≠ 0) {n : Nat} (hn : 0 < n) :
    Fails (readScaled p n scale s) .boundsError s := by
  rw [readScaled_of_ne hscale]
  exact readField_of_empty hlen hn scale

/-- Every register of a block a `RESET` leaves reads 0, `STATUS` included (R42). -/
theorem readRegister_of_reset {t : State} (h : exec .reset s = .next t) {r : BitVec 4} (hr : r.toNat ≤ 6) :
    readRegister r t = some 0 := by
  obtain ⟨u, hu, htxp, -, hcount, -, hlen, hexpect, hplen, -, hpcur, hstatus, -⟩ := resetPutsTheRegistersToZero s
  obtain rfl := Host.Outcome.next.inj (h.symm.trans hu)
  unfold readRegister
  split
  case h_8 =>
    simp only [imp_false] at *
    omega
  all_goals simp [htxp, hcount, hlen, hexpect, hplen, hpcur, hstatus]

end

end Sys2Proof.Machine
end

section
/-! The statements about reset and hazards (spec/70_reset_and_hazards.md). -/

namespace Sys2Proof.Machine

/-- Settles O12: for any parameters, and so for this hardware's. -/
theorem everyInputHasADefinedResult : Obligations.EveryInputHasADefinedResult := by
  unfold Obligations.EveryInputHasADefinedResult
  refine ⟨fun p hv s h => ⟨h.execWith_next hv, h.stepWith_next hv⟩, fun s h => ⟨fun i => ?_, ?_⟩⟩
  · rw [exec_eq_execWith]
    exact h.execWith_next hardware_valid i
  · rw [step_eq_stepWith]
    exact h.stepWith_next hardware_valid

/-- Settles O55: the reader is idle and holds no payload, the receive cursor is 0, and nothing is staged. -/
theorem whatTheResetStateAnswers : Obligations.WhatTheResetStateAnswers := by
  unfold Obligations.WhatTheResetStateAnswers
  intro s t hreset
  obtain ⟨u, hu, htxp, hidle, -, -, -, -, hlen, -, hcur, -⟩ := resetPutsTheRegistersToZero s
  obtain rfl := Host.Outcome.next.inj (hreset.symm.trans hu)
  have hinactive : t.rxState.active = false := by rw [hidle]; rfl
  have hstaged : t.txpCur.toNat ≤ 255 := by rw [htxp]; exact Nat.zero_le _
  have hskip : ∀ n, exec (.skip n) t = moveCursor n.toNat t := opSkip_of_cursor_zero hcur
  refine ⟨fun r hr => ?rdreg, opDec_notTerminated.1 (.inl hidle), readField_of_empty hlen two_pos 1,
    readField_of_empty hlen four_pos 1,
    fun scale hscale => ⟨readScaled_of_empty hlen hscale two_pos, readScaled_of_empty hlen hscale four_pos⟩,
    fun n hn => ?moves, moveCursor_zero, hskip 0 ▸ moveCursor_zero, ?enc, ?crctx, fun b => opRxbyte_inactive hinactive,
    opRxexpire_eq_next.2 (.inr ⟨hinactive, rfl⟩)⟩
  case rdreg =>
    obtain ⟨u, hu, hans, -⟩ := exec_rdreg_of_some (readRegister_of_reset hreset hr)
    exact ⟨u, hu, hans⟩
  case moves =>
    have hpos : 0 < n.toNat := Nat.pos_of_ne_zero fun h0 => hn (BitVec.eq_of_toNat_eq h0)
    exact ⟨hskip n ▸ moveCursor_of_empty hlen hpos, moveCursor_of_empty hlen hpos⟩
  case enc =>
    obtain ⟨u, hu, hout, -⟩ := (encEmitsTheFrameOfTheStagedPayload t).1 hstaged
    rw [htxp] at hout
    exact ⟨u, hu, hout⟩
  case crctx =>
    obtain ⟨⟨u, hu, hans, -⟩, -⟩ := crctxAnswersTheCrcOfTheStagedPayload t hstaged
    rw [htxp] at hans
    exact ⟨u, hu, hans⟩

end Sys2Proof.Machine
end
